-- ==== Sys2Proof/Word.lean ====
section
/-! DEFINITION. The data widths of the block (00_scope.md R8, R9) and texts as byte sequences. -/

namespace Sys2Proof

/-- A byte, an unsigned integer 0 to 255 (R9). -/
abbrev Byte := BitVec 8

/-- The width of IN_LEN, OUT_LEN, EINFO and CAPR (10_state.md R21). -/
abbrev Half16 := BitVec 16

/-- The width of SHIFT and of the data of a host access (10_state.md R21, 20_memory.md R63, R64). -/
abbrev Word := BitVec 32

/-- A text: a finite sequence of bytes with an explicit length, zero bytes allowed (R9). -/
abbrev Text := List Byte

/-- `zeros(n)`: n bytes of value 0 (R9). -/
def zeros (n : Nat) : Text := List.replicate n 0

end Sys2Proof
end

