-- ==== Sys2Proof/Config.lean ====
section
/-! DEFINITION. What is fixed for the block, and the free values: constants without a body that stand for every value the
spec leaves open. The capacity CAP is no constant here: it is the register CAPR of the state (log 1), so that every
statement about all states holds for every CAP. -/

namespace Sys2Proof

/-- The hardwired Affine multiplier a = 11, readable as AFF_A (00_scope.md R7, 10_state.md R29; log 2). -/
def Config.affineA : Nat := 11

/-- The hardwired Affine offset b = 19, readable as AFF_B (00_scope.md R7, 10_state.md R29; log 2). -/
def Config.affineB : Nat := 19

/-- The reference value of CAP (00_scope.md R6), which the model's reset state has.
DESIGN CHOICE, safe: statements are about states of any CAP (log 1). -/
def Config.capReference : Half16 := 256

/-- The size of the round-key schedule RKS (10_state.md R37). -/
def Config.rksSize : Nat := 32

/-- The size of the key matrix KM (10_state.md R38). -/
def Config.kmSize : Nat := 25

/-- FREE VALUE. The byte at an index of a memory, or of a read, that the spec leaves unspecified: first argument the number
of the draw, second the index (10_state.md R35, 20_memory.md R65, R75, 60_exceptions.md R242; logs 7 to 10). -/
opaque Config.freeByte : Nat → Nat → Byte

/-- FREE VALUE. A 16-bit register's value that the spec leaves unspecified: OUT_LEN after a Symbol or RbsShort error, or
read while a text-producing command runs (60_exceptions.md R242, 20_memory.md R75; logs 8, 9). -/
opaque Config.freeHalf : Nat → Half16

/-- FREE VALUE. How many host moves fit between an acceptance and its completion: finite and otherwise unspecified
(20_memory.md R72, 70_reset_and_hazards.md R291; log 4). -/
opaque Config.busyTime : Nat → Nat

/-- FREE VALUE. The random byte source's bytes: first argument the number of the acquisition, second the byte's place in it
(00_scope.md R18, 60_exceptions.md R258; log 5). -/
opaque Config.rbsByte : Nat → Nat → Byte

/-- FREE VALUE. How many free bytes the random byte source has to give at an acquisition: fewer than asked is a short read
(00_scope.md R18, 60_exceptions.md R257; log 5). -/
opaque Config.rbsExtra : Nat → Nat

end Sys2Proof
end

