-- ==== Sys2Proof/Syntax.lean ====
section
/-! DEFINITION. The sixteen commands of the block, one constructor per row of opcode_table.json (30_encoding.md R92).
A command has no operand fields (R95), so no constructor has an argument. -/

namespace Sys2Proof

/-- The block's instructions. Each docstring names the rule that gives the command's effect. -/
inductive Instr where
  /-- CAESAR_ENC, 40_caesar.md R112. -/
  | caesarEnc
  /-- CAESAR_DEC, 40_caesar.md R113. -/
  | caesarDec
  /-- AFFINE_ENC, 41_affine_modinv.md R132. -/
  | affineEnc
  /-- AFFINE_DEC, 41_affine_modinv.md R136. -/
  | affineDec
  /-- AFF_INV, 41_affine_modinv.md R134. -/
  | affInv
  /-- OTP_ENC, 42_otp.md R156. -/
  | otpEnc
  /-- OTP_DEC, 42_otp.md R157. -/
  | otpDec
  /-- OTP_PREP, 42_otp.md R153. -/
  | otpPrep
  /-- OTP_KEYGEN, 42_otp.md R154. -/
  | otpKeygen
  /-- PF_ENC, 43_playfair.md R181. -/
  | pfEnc
  /-- PF_DEC, 43_playfair.md R182. -/
  | pfDec
  /-- PF_PREP, 43_playfair.md R177. -/
  | pfPrep
  /-- PF_KEYMX, 43_playfair.md R173. -/
  | pfKeymx
  /-- FEISTEL_ENC, 44_feistel.md R206. -/
  | feistelEnc
  /-- FEISTEL_DEC, 44_feistel.md R209. -/
  | feistelDec
  /-- FEISTEL_PAD, 44_feistel.md R204. -/
  | feistelPad
  deriving DecidableEq, Repr

end Sys2Proof
end

