-- ==== Sys2Proof/WellFormed.lean ====
section
/-! DEFINITION. What a legal command byte, a legal command and an admissible configuration are. Each is a Bool. -/

namespace Sys2Proof

/-- The UNIT field of a command byte, bits 7:4 (30_encoding.md R90). -/
def unitField (b : Byte) : BitVec 4 := b.extractLsb' 4 4

/-- The FUNC field of a command byte, bits 3:0 (30_encoding.md R90). -/
def funcField (b : Byte) : BitVec 4 := b.extractLsb' 0 4

/-- UNIT values 1 to 5 select a unit, 0 and 6 to 15 none (30_encoding.md R93). -/
def unitExists (u : BitVec 4) : Bool := decide (1 ≤ u.toNat) && decide (u.toNat ≤ 5)

/-- FUNC values 0 to 3 select a function, 4 to 15 none (30_encoding.md R94). -/
def funcExists (f : BitVec 4) : Bool := decide (f.toNat ≤ 3)

/-- The four combinations of an existing unit and an existing function that name no command: Caesar has no PREP and no
KEY, Affine no PREP, Feistel no KEY (30_encoding.md R96). -/
def pairMissing (u f : BitVec 4) : Bool :=
  (decide (u = 1) && (decide (f = 2) || decide (f = 3))) || (decide (u = 2) && decide (f = 2)) ||
    (decide (u = 5) && decide (f = 3))

/-- A legal command byte, by R93, R94 and R96, without looking at the opcode map. -/
def legalByte (b : Byte) : Bool :=
  unitExists (unitField b) && funcExists (funcField b) && !pairMissing (unitField b) (funcField b)

/-- UNIT of a command, in the order of 30_encoding.md R93. -/
def Instr.unit : Instr → BitVec 4
  | .caesarEnc | .caesarDec => 1
  | .affineEnc | .affineDec | .affInv => 2
  | .otpEnc | .otpDec | .otpPrep | .otpKeygen => 3
  | .pfEnc | .pfDec | .pfPrep | .pfKeymx => 4
  | .feistelEnc | .feistelDec | .feistelPad => 5

/-- FUNC of a command: 0 ENC, 1 DEC, 2 PREP, 3 KEY (30_encoding.md R94). -/
def Instr.func : Instr → BitVec 4
  | .caesarEnc | .affineEnc | .otpEnc | .pfEnc | .feistelEnc => 0
  | .caesarDec | .affineDec | .otpDec | .pfDec | .feistelDec => 1
  | .otpPrep | .pfPrep | .feistelPad => 2
  | .affInv | .otpKeygen | .pfKeymx => 3

/-- A command is well formed when its unit has its function (30_encoding.md R93, R94, R96). Commands carry no operands, so
every constructor passes. -/
def Instr.wf (i : Instr) : Bool := unitExists i.unit && funcExists i.func && !pairMissing i.unit i.func

/-- An admissible CAP: CAP mod 8 = 0 and 8 ≤ CAP ≤ 65528 (00_scope.md R6). -/
def capOk (cap : Nat) : Bool := decide (cap % 8 = 0) && decide (8 ≤ cap) && decide (cap ≤ 65528)

/-- An admissible Affine multiplier: coprime with 26 (00_scope.md R7, 93_implementation_defined.md U1). -/
def affineOk (a : Nat) : Bool := decide (Nat.gcd a 26 = 1)

end Sys2Proof
end

