-- ==== Sys2Proof/Decode.lean ====
section
/-! DEFINITION. Decoding of a command byte, total on all 256 bytes (30_encoding.md R92, R96, R98), and the encoder.
An illegal byte is rejected by the name of the reason. -/

namespace Sys2Proof

/-- Why a command byte is illegal (30_encoding.md R96). Whatever the reason, its completion step raises IllegalCommand. -/
inductive IllegalByte where
  /-- UNIT is 0 or 6 to 15. -/
  | noSuchUnit
  /-- FUNC is 4 to 15. -/
  | noSuchFunction
  /-- The unit exists and lacks the function: 0x12, 0x13, 0x22, 0x53. -/
  | functionMissingInUnit
  deriving DecidableEq, Repr

/-- The opcode map: the command byte of each mnemonic, as 30_encoding.md R92 lists them. -/
def opcodeMap : List (Byte × Instr) :=
  [(0x10, .caesarEnc), (0x11, .caesarDec),
   (0x20, .affineEnc), (0x21, .affineDec), (0x23, .affInv),
   (0x30, .otpEnc), (0x31, .otpDec), (0x32, .otpPrep), (0x33, .otpKeygen),
   (0x40, .pfEnc), (0x41, .pfDec), (0x42, .pfPrep), (0x43, .pfKeymx),
   (0x50, .feistelEnc), (0x51, .feistelDec), (0x52, .feistelPad)]

/-- The first row of an opcode map whose byte is `b`; the whole byte is compared, mask 0xFF (30_encoding.md R92). -/
def lookupByte (b : Byte) : List (Byte × Instr) → Option Instr
  | [] => none
  | (k, i) :: rows => if k = b then some i else lookupByte b rows

/-- The reason an illegal byte is illegal (30_encoding.md R96). -/
def illegalReason (b : Byte) : IllegalByte :=
  if unitExists (unitField b) = false then .noSuchUnit
  else if funcExists (funcField b) = false then .noSuchFunction
  else .functionMissingInUnit

/-- `Decode(op)` (30_encoding.md R98). -/
def decode (b : Byte) : Except IllegalByte Instr :=
  match lookupByte b opcodeMap with
  | some i => .ok i
  | none => .error (illegalReason b)

/-- The command a byte names, if any. -/
def decode? (b : Byte) : Option Instr := lookupByte b opcodeMap

/-- The command byte of a command: UNIT * 16 + FUNC, put together from the fields of R93 and R94 (30_encoding.md R90). -/
def encode (i : Instr) : Byte := i.unit ++ i.func

/-- The host's table words: bit 0 of the command byte is bit 0 of the word, and bits from `nbits` on are 0. -/
def tableByte (nbits w : Nat) : Byte := BitVec.ofNat 8 (w % 2 ^ nbits)

/-- The instruction this decoder reads from the table word `w` of `nbits` bits. -/
def decodeTableWord (nbits w : Nat) : Option Instr := decode? (tableByte nbits w)

end Sys2Proof
end

