-- ==== Sys2Proof/Machine/State.lean ====
section
/-! DEFINITION. The state of the block (10_state.md R20 to R45) as plain data, the block's errors, the model's own stops,
the moves of the host, and the state after reset (R44). -/

namespace Sys2Proof.Machine

/-- The five byte memories (10_state.md R33 to R38). -/
inductive Space where
  | ibuf | obuf | keybuf | rks | km
  deriving DecidableEq, Repr

/-- The eleven registers (10_state.md R21). -/
inductive Reg where
  | cmd | status | ctrl | inLen | outLen | shift | inv | affA | affB | einfo | capr
  deriving DecidableEq, Repr

/-- The four errors of the block with the information EINFO records (60_exceptions.md R230). They are no stops of the
model: each is taken as a next state by the error step R240. -/
inductive Err where
  /-- The latched byte is no command (R231). -/
  | illegalCommand (op : Byte)
  /-- IN_LEN does not fit the command (R232). -/
  | length (n : Half16)
  /-- The text byte at an index is not in the key matrix (R233). -/
  | symbol (i : Nat)
  /-- The random byte source delivered too few bytes; how many the command received in all (R234). -/
  | rbsShort (k : Nat)
  deriving DecidableEq, Repr

/-- How the model itself stops a run. No state whose CAP is admissible (00_scope.md R6) reaches one. -/
inductive Fault where
  /-- Raised by the operation that gives a command its output text, when the text is longer than OBUF. The spec excludes it
  by CAP mod 8 = 0 (R6), so it happens only in a state that is not this hardware. Safe: the model stops (log 14). -/
  | obufOverrun
  deriving DecidableEq, Repr

/-- Refusals of the model. -/
inductive Refusal where
  /-- Raised by exec's arm of an instruction that has no meaning yet. Safe: the model stops. -/
  | notModelled (mnemonic : String)
  /-- Raised by AFF_INV and AFFINE_DEC when the multiplier has no inverse modulo 26: 93_implementation_defined.md U1 has such a
  configuration refused. Never happens with the hardwired 11. Safe: the model stops (log 2). -/
  | noInverse
  deriving DecidableEq, Repr

/-- A byte memory as a list of index and byte in one canonical form: indices strictly rising, no byte 0 listed. An
unlisted index reads as `unlistedByte`. -/
abbrev Memory := List Host.Cell

/-- What an unlisted index of a memory reads as: 0, the reset contents of every memory (10_state.md R44). -/
def unlistedByte : Byte := 0

/-- The indices of OBUF from `start` on are unspecified, their bytes the free values of draw `draw` (10_state.md R35,
60_exceptions.md R242; log 7). -/
structure Junk where
  start : Nat
  draw : Nat
  deriving DecidableEq, Repr

/-- The random byte source as seen from the port (60_exceptions.md R256; logs 5, 6). -/
structure Rbs where
  /-- Bytes a directive has named and the source still has to deliver, next one first (30_encoding.md R106). -/
  named : Text
  /-- How many bytes the source delivers before a short read, if a directive says so (30_encoding.md R106). -/
  limit : Option Nat
  /-- How many acquisitions the source has answered: the number of the next draw (R258). -/
  asked : Nat
  deriving DecidableEq, Repr

/-- One move of the agents outside the block: a primitive access of 30_encoding.md R101, a part of the pseudo-operation
`mov` (R104), a directive to the random byte source (R106), or the reset input (70_reset_and_hazards.md R270). -/
inductive HostMove where
  /-- `wr`: HostWriteReg (20_memory.md R64). -/
  | wr (n : Nat) (v : Word)
  /-- `rd`: HostReadReg (20_memory.md R63). -/
  | rd (n : Nat)
  /-- `wb`: HostWriteBuf (20_memory.md R65). -/
  | wb (sp : Space) (i : Nat) (v : Word)
  /-- `rb`: HostReadBuf (20_memory.md R65). -/
  | rb (sp : Space) (i : Nat)
  /-- `wait`: read STATUS until BUSY reads 0 (30_encoding.md R101). -/
  | wait
  /-- `mov`, its first access `rd OUT_LEN`; the answer says how many bytes follow (30_encoding.md R104). -/
  | mov
  /-- `wb` of the byte the host has read last: the `<that byte>` of `mov` (30_encoding.md R104). -/
  | wbLast (sp : Space) (i : Nat)
  /-- The input rst (70_reset_and_hazards.md R270). -/
  | rst
  /-- `rbs hex:..` (30_encoding.md R106). -/
  | rbs (bytes : Text)
  /-- `rbs short n` (30_encoding.md R106). -/
  | rbsShort (n : Nat)
  deriving DecidableEq, Repr

/-- The machine. INVENTORY.md lists every field with the rule that names it. -/
structure State where
  /-- OP, readable as CMD (10_state.md R22, R32). -/
  op : Byte
  /-- STATUS.BUSY (10_state.md R23). -/
  busy : Bool
  /-- STATUS.DONE (10_state.md R23). -/
  done : Bool
  /-- STATUS.ERR (10_state.md R23). -/
  err : Bool
  /-- STATUS.ECODE (10_state.md R23, 60_exceptions.md R230). -/
  ecode : BitVec 4
  /-- CTRL.IE (10_state.md R26). -/
  ie : Bool
  /-- IN_LEN (10_state.md R27). -/
  inLen : Half16
  /-- OUT_LEN (10_state.md R28). -/
  outLen : Half16
  /-- SHIFT (10_state.md R30). -/
  shift : Word
  /-- INV (10_state.md R31). -/
  inv : Byte
  /-- EINFO (10_state.md R31, 60_exceptions.md R240). -/
  einfo : Half16
  /-- CAPR, the constant CAP (10_state.md R29, 00_scope.md R6; log 1). -/
  capr : Half16
  /-- IBUF (10_state.md R33). -/
  ibuf : Memory
  /-- OBUF (10_state.md R34). -/
  obuf : Memory
  /-- KEYBUF (10_state.md R36). -/
  keybuf : Memory
  /-- RKS, the round-key schedule (10_state.md R37). -/
  rks : Memory
  /-- KM, the key matrix (10_state.md R38). -/
  km : Memory
  /-- THE MODEL'S OWN: which part of OBUF is unspecified (log 7). -/
  obufJunk : Option Junk
  /-- THE MODEL'S OWN: what the random byte source will answer (logs 5, 6). -/
  rbs : Rbs
  /-- THE MODEL'S OWN: the coming moves of the host, next one first (log 3). -/
  script : List HostMove
  /-- THE MODEL'S OWN: the values the host has read, newest first (log 3). -/
  answers : List Word
  /-- THE MODEL'S OWN: how many host moves still fit before the completion step (log 4). -/
  delay : Nat
  /-- THE MODEL'S OWN: how many free values have been drawn (log 11). -/
  tick : Nat
  deriving DecidableEq, Repr

/-- What a step or a meaning answers. -/
abbrev Result := Host.Outcome State Fault Refusal

/-- The machine right after reset (10_state.md R44), with CAP at its reference value 256 (00_scope.md R6; log 1), no host
move waiting, and the model's own fields at the values of log 11. -/
def State.reset : State where
  op := 0
  busy := false
  done := false
  err := false
  ecode := 0
  ie := false
  inLen := 0
  outLen := 0
  shift := 0
  inv := 0
  einfo := 0
  capr := Config.capReference
  ibuf := []
  obuf := []
  keybuf := []
  rks := []
  km := []
  obufJunk := none
  rbs := { named := [], limit := none, asked := 0 }
  script := []
  answers := []
  delay := 0
  tick := 0

end Sys2Proof.Machine
end

