-- ==== Sys2Proof/Machine/Flags.lean ====
section
/-! DEFINITION. The flags: the words STATUS and CTRL as software reads them, the output irq, the error codes, and the only
three changes of BUSY, DONE and ERR besides reset (10_state.md R23, R24, R26, 60_exceptions.md R230, R240, R250). -/

namespace Sys2Proof.Machine

/-- STATUS as a word: ECODE in bits 7:4, 0 in the reserved bit 3, ERR, DONE, BUSY (10_state.md R23; log 17). -/
def State.status (s : State) : Byte :=
  s.ecode ++ (0#1 ++ (BitVec.ofBool s.err ++ (BitVec.ofBool s.done ++ BitVec.ofBool s.busy)))

/-- CTRL as a word: IE in bit 0, bits 7:1 read 0 (10_state.md R26; log 17). -/
def State.ctrl (s : State) : Byte := 0#7 ++ BitVec.ofBool s.ie

/-- The interrupt output, a level with no latch (60_exceptions.md R250). -/
def State.irq (s : State) : Bool := s.ie && (s.done || s.err)

/-- ECODE of an error (60_exceptions.md R230). -/
def Err.code : Err → BitVec 4
  | .illegalCommand _ => 1
  | .length _ => 2
  | .symbol _ => 3
  | .rbsShort _ => 4

/-- What EINFO records of an error, its low 16 bits (60_exceptions.md R230, R240). -/
def Err.info : Err → Half16
  | .illegalCommand op => op.setWidth 16
  | .length n => n
  | .symbol i => BitVec.ofNat 16 i
  | .rbsShort k => BitVec.ofNat 16 k

/-- Whether an error is raised before the command has written anything (60_exceptions.md R242). -/
def Err.precise : Err → Bool
  | .illegalCommand _ => true
  | .length _ => true
  | .symbol _ => false
  | .rbsShort _ => false

/-- The flags at an acceptance (10_state.md R24). -/
def State.markAccepted (s : State) : State := { s with busy := true, done := false }

/-- The flags at a completion without error (10_state.md R24). -/
def State.markDone (s : State) : State := { s with busy := false, done := true }

/-- The flags and ECODE at an error (10_state.md R24, 60_exceptions.md R240). -/
def State.markError (c : BitVec 4) (s : State) : State :=
  { s with busy := false, done := false, err := true, ecode := c }

end Sys2Proof.Machine
end

