-- ==== Sys2Proof/Machine/Ops.lean ====
section
/-! DEFINITION. The named operations every meaning uses: byte memories, the input and output text, completion and the error
step (20_memory.md R71, 60_exceptions.md R240, R242), acceptance (10_state.md R22) and reset (70_reset_and_hazards.md R270). -/

namespace Sys2Proof.Machine

/-! ### Byte memories -/

/-- The byte at index `a` of a memory (00_scope.md R17). -/
def Memory.read : Memory → Nat → Byte
  | [], _ => unlistedByte
  | (k, v) :: m, a => if k = a then v else Memory.read m a

/-- The memory with no entry for index `a`. -/
def Memory.erase : Memory → Nat → Memory
  | [], _ => []
  | (k, v) :: m, a => if k = a then Memory.erase m a else (k, v) :: Memory.erase m a

/-- The memory with the entry `(a, v)` in its place. -/
def Memory.insert : Memory → Nat → Byte → Memory
  | [], a, v => [(a, v)]
  | (k, w) :: m, a, v =>
    if a < k then (a, v) :: (k, w) :: m
    else if a = k then (a, v) :: m
    else (k, w) :: Memory.insert m a v

/-- `space[a] <- v` (00_scope.md R17), keeping the canonical form. -/
def Memory.write (m : Memory) (a : Nat) (v : Byte) : Memory :=
  if v = unlistedByte then m.erase a else m.insert a v

/-- `space[a..a+len(t)) <- t` (00_scope.md R17). -/
def Memory.writeText : Memory → Nat → Text → Memory
  | m, _, [] => m
  | m, a, v :: t => Memory.writeText (m.write a v) (a + 1) t

/-- The cells of a text laid out from index `a` on, zero bytes unlisted. -/
def Memory.cellsFrom : Nat → Text → Memory
  | _, [] => []
  | a, v :: t => if v = unlistedByte then Memory.cellsFrom (a + 1) t else (a, v) :: Memory.cellsFrom (a + 1) t

/-- A memory that holds the text `t` from index 0 on and 0 everywhere else. -/
def Memory.ofText (t : Text) : Memory := Memory.cellsFrom 0 t

/-- The text `m[0..n)` (00_scope.md R17). -/
def Memory.slice (m : Memory) (n : Nat) : Text := (List.range n).map m.read

/-- The canonical form: indices strictly rising, no listed byte equal to what an unlisted index reads as. -/
abbrev Memory.wf (m : Memory) : Prop :=
  m.Pairwise (fun c d => c.1 < d.1) ∧ ∀ c ∈ m, c.2 ≠ unlistedByte

/-- Every listed index is below `n`. -/
abbrev Memory.below (n : Nat) (m : Memory) : Prop := ∀ c ∈ m, c.1 < n

/-! ### The contents of the five memories -/

/-- CAP of this machine (00_scope.md R6, 10_state.md R29). -/
def State.cap (s : State) : Nat := s.capr.toNat

/-- `size(space)` (20_memory.md R65). -/
def State.size (s : State) : Space → Nat
  | .ibuf => s.cap
  | .obuf => s.cap
  | .keybuf => s.cap
  | .rks => Config.rksSize
  | .km => Config.kmSize

/-- The byte OBUF holds at index `i`: a free value where OBUF is unspecified (10_state.md R35, 60_exceptions.md R242; log 7). -/
def State.obufByte (s : State) (i : Nat) : Byte :=
  match s.obufJunk with
  | some j => if j.start ≤ i then Config.freeByte j.draw i else s.obuf.read i
  | none => s.obuf.read i

/-- The byte a memory holds at index `i`: `space[i]` (00_scope.md R17). -/
def State.peek (s : State) : Space → Nat → Byte
  | .ibuf, i => s.ibuf.read i
  | .obuf, i => s.obufByte i
  | .keybuf, i => s.keybuf.read i
  | .rks, i => s.rks.read i
  | .km, i => s.km.read i

/-- The text `space[0..n)` (00_scope.md R17). -/
def State.slice (s : State) (sp : Space) (n : Nat) : Text := (List.range n).map (s.peek sp)

/-! ### Output text, completion and the error step -/

/-- `OBUF[0..len(t)) <- t; OUT_LEN <- len(t)`; OBUF beyond OUT_LEN is then unspecified (10_state.md R28, R34, R35; log 7). -/
def State.setOutput (t : Text) (s : State) : State :=
  { s with
    obuf := Memory.ofText t
    obufJunk := some { start := t.length, draw := s.tick }
    outLen := BitVec.ofNat 16 t.length
    tick := s.tick + 1 }

/-- `INV <- i` (41_affine_modinv.md R134, R136). -/
def State.setInv (i : Nat) (s : State) : State := { s with inv := BitVec.ofNat 8 i }

/-- `KM[0..25) <- g` (43_playfair.md R173). -/
def State.setMatrix (g : Text) (s : State) : State := { s with km := Memory.ofText g }

/-- `KEYBUF[0..len(k)) <- k`; indices beyond keep their bytes (10_state.md R36). -/
def State.setKey (k : Text) (s : State) : State := { s with keybuf := s.keybuf.writeText 0 k }

/-- RKS takes a whole schedule (10_state.md R37). -/
def State.setSchedule (k : Text) (s : State) : State := { s with rks := Memory.ofText k }

/-- The random byte source after the acquisitions of a command (60_exceptions.md R261). -/
def State.setRbs (r : Rbs) (s : State) : State := { s with rbs := r }

/-- `n` unspecified bytes of draw `d` (60_exceptions.md R242; log 8). -/
def freeText (d n : Nat) : Text := (List.range n).map (Config.freeByte d)

/-- KEYBUF[0..n) takes unspecified bytes, the rest of KEYBUF is unchanged (60_exceptions.md R242; log 8). -/
def State.loseKey (n : Nat) (s : State) : State := { s.setKey (freeText s.tick n) with tick := s.tick + 1 }

/-- All of RKS takes unspecified bytes (60_exceptions.md R242; log 8). -/
def State.loseSchedule (s : State) : State := { s.setSchedule (freeText s.tick Config.rksSize) with tick := s.tick + 1 }

/-- The end of a completion step without error: `STATUS.BUSY <- 0; STATUS.DONE <- 1` (20_memory.md R71). -/
def State.complete (s : State) : State := { s.markDone with delay := 0 }

/-- The error step (60_exceptions.md R240), with what R242 says of OBUF and OUT_LEN: unchanged after IllegalCommand and
Length, unspecified after Symbol and RbsShort (log 8). -/
def State.raise (e : Err) (s : State) : State :=
  { s.markError e.code with
    einfo := e.info
    obuf := if e.precise then s.obuf else []
    obufJunk := if e.precise then s.obufJunk else some { start := 0, draw := s.tick }
    outLen := if e.precise then s.outLen else Config.freeHalf s.tick
    tick := if e.precise then s.tick else s.tick + 1
    delay := 0 }

/-- The check every command that reads IN_LEN makes first: `if IN_LEN > CAP: raise Length(IN_LEN)` (60_exceptions.md R232 (a)). -/
def guardLength (s : State) (k : Result) : Result :=
  if s.cap < s.inLen.toNat then .next (s.raise (.length s.inLen)) else k

/-- The engine writes no index of OBUF that does not exist: an output of `n` bytes must fit. It always does when CAP is
admissible (00_scope.md R6, 43_playfair.md R176, 44_feistel.md R201; log 14). -/
def guardOutput (n : Nat) (s : State) (k : State) : Result :=
  if n ≤ s.cap then .next k else .fault .obufOverrun

/-- A completion that gives the output text `t` (20_memory.md R71). -/
def emit (t : Text) (s : State) : Result := guardOutput t.length s (s.setOutput t).complete

/-! ### Acceptance and reset -/

/-- Acceptance of a command byte (10_state.md R22). How long the command stays in progress is a free value (log 4). -/
def State.accept (b : Byte) (s : State) : State :=
  { s.markAccepted with op := b, delay := Config.busyTime s.tick, tick := s.tick + 1 }

/-- The input rst: every piece of the block's state takes the value of 10_state.md R44, the constant CAPR keeps its value
(70_reset_and_hazards.md R270). The host's coming moves, the values it has read, and the source outside the block stay:
DESIGN CHOICE, safe for the block (log 22). -/
def State.rst (s : State) : State :=
  { State.reset with
    capr := s.capr
    rbs := s.rbs
    script := s.script
    answers := s.answers
    tick := s.tick }

/-- The state in which the command byte `b` has been accepted and its completion step is the next step (10_state.md R22,
20_memory.md R71): what placing an instruction for the next step takes on this block (log 12). -/
def State.latch (b : Byte) (s : State) : State :=
  { s with op := b, busy := true, done := false, err := false, ecode := 0, delay := 0 }

end Sys2Proof.Machine
end

