-- ==== Sys2Proof/Machine/Operands.lean ====
section
/-! DEFINITION. The implicit operands of the commands (30_encoding.md R95), the alphabets they share (00_scope.md R10 to R16),
the numbers of the registers (10_state.md R21), and which registers and memories each command writes (20_memory.md R66). -/

namespace Sys2Proof.Machine

/-! ### Arithmetic and alphabets -/

/-- `x mod m`, the floored modulus, never negative (00_scope.md R10). -/
def floorMod (x : Int) (m : Nat) : Nat := (x % (m : Int)).toNat

/-- Whether `lo <= c <= hi`, as unsigned bytes. -/
def inRange (lo hi c : Byte) : Bool := decide (lo.toNat ≤ c.toNat) && decide (c.toNat ≤ hi.toNat)

/-- '0' <= c <= '9' (00_scope.md R9). The codes are ASCII: PRESUMED, unsafe for a block with another code (log 19). -/
def isDigit (c : Byte) : Bool := inRange 0x30 0x39 c

/-- 'A' <= c <= 'Z' (00_scope.md R9). -/
def isUpper (c : Byte) : Bool := inRange 0x41 0x5A c

/-- 'a' <= c <= 'z' (00_scope.md R9). -/
def isLower (c : Byte) : Bool := inRange 0x61 0x7A c

/-- `Ord62(c)` (00_scope.md R13). -/
def ord62 (c : Byte) : Option Nat :=
  if isDigit c then some (c.toNat - 0x30)
  else if isUpper c then some (c.toNat - 0x41 + 10)
  else if isLower c then some (c.toNat - 0x61 + 36)
  else none

/-- `Chr62(n)`, 0 <= n <= 61 (00_scope.md R13). -/
def chr62 (n : Nat) : Byte :=
  if n ≤ 9 then BitVec.ofNat 8 (0x30 + n)
  else if n ≤ 35 then BitVec.ofNat 8 (0x41 + (n - 10))
  else BitVec.ofNat 8 (0x61 + (n - 36))

/-- `Ord26(c)` (00_scope.md R14). -/
def ord26 (c : Byte) : Option Nat := if isUpper c then some (c.toNat - 0x41) else none

/-- `Chr26(n)`, 0 <= n <= 25 (00_scope.md R14). -/
def chr26 (n : Nat) : Byte := BitVec.ofNat 8 (0x41 + n)

/-- `InOtp(c)` (00_scope.md R15). -/
def inOtp (c : Byte) : Bool := isDigit c || isLower c || isUpper c || decide (c = 0x20)

/-- The search of `ModInv26`, `fuel` candidates from `i` on, in ascending order (00_scope.md R16). -/
def modInvSearch (a : Nat) : (fuel i : Nat) → Option Nat
  | 0, _ => none
  | fuel + 1, i => if (a * i) % 26 = 1 then some i else modInvSearch a fuel (i + 1)

/-- `ModInv26(a)`: the exhaustive search over 0..25 (00_scope.md R16). -/
def modInv26 (a : Nat) : Option Nat := modInvSearch a 26 0

/-! ### Implicit operands -/

/-- `text`, also `keyword`: IBUF[0..IN_LEN) (30_encoding.md R95). -/
def State.text (s : State) : Text := s.slice .ibuf s.inLen.toNat

/-- `shift`: sint32(SHIFT) (30_encoding.md R95, 00_scope.md R8). -/
def State.shiftN (s : State) : Int := s.shift.toInt

/-- `key` of the one-time pad: KEYBUF[0..IN_LEN) (30_encoding.md R95). -/
def State.otpKey (s : State) : Text := s.slice .keybuf s.inLen.toNat

/-- `key_schedule[8]`: the 32 bytes of RKS (30_encoding.md R95, 10_state.md R37). -/
def State.schedule (s : State) : Text := s.slice .rks Config.rksSize

/-- `grid`: the 25 bytes of KM (30_encoding.md R95, 10_state.md R38). -/
def State.matrix (s : State) : Text := s.slice .km Config.kmSize

/-- The output text OBUF[0..OUT_LEN) (10_state.md R28). -/
def State.outText (s : State) : Text := s.slice .obuf s.outLen.toNat

/-! ### Register numbers and what a command writes -/

/-- The register with a number; numbers 0x0B and above are unimplemented (10_state.md R21). -/
def Reg.ofNumber : Nat → Option Reg
  | 0x00 => some .cmd
  | 0x01 => some .status
  | 0x02 => some .ctrl
  | 0x03 => some .inLen
  | 0x04 => some .outLen
  | 0x05 => some .shift
  | 0x06 => some .inv
  | 0x07 => some .affA
  | 0x08 => some .affB
  | 0x09 => some .einfo
  | 0x0A => some .capr
  | _ => none

/-- The commands that write OBUF and OUT_LEN (10_state.md R28). -/
def textProducing : Instr → Bool
  | .affInv => false
  | .otpKeygen => false
  | .pfKeymx => false
  | .caesarEnc => true
  | .caesarDec => true
  | .affineEnc => true
  | .affineDec => true
  | .otpEnc => true
  | .otpDec => true
  | .otpPrep => true
  | .pfEnc => true
  | .pfDec => true
  | .pfPrep => true
  | .feistelEnc => true
  | .feistelDec => true
  | .feistelPad => true

/-- Which memories a command writes (20_memory.md R66). -/
def writesSpace (i : Instr) : Space → Bool
  | .ibuf => false
  | .obuf => textProducing i
  | .keybuf => decide (i = .otpKeygen)
  | .rks => decide (i = .feistelEnc)
  | .km => decide (i = .pfKeymx)

/-- Which registers a command writes besides STATUS, whose reads are always defined (20_memory.md R66, R75). -/
def writesReg (i : Instr) : Reg → Bool
  | .outLen => textProducing i
  | .inv => decide (i = .affInv) || decide (i = .affineDec)
  | _ => false

end Sys2Proof.Machine
end

