-- ==== Sys2Proof/Machine/Rbs.lean ====
section
/-! DEFINITION. The random-byte-source port (00_scope.md R18, 60_exceptions.md R256 to R261). -/

namespace Sys2Proof.Machine

/-- The answer to an acquisition, with the source after it (60_exceptions.md R257). -/
inductive RbsAnswer where
  /-- The bytes asked for, in delivery order. -/
  | bytes (t : Text) (r : Rbs)
  /-- `short(k)`: only k bytes were delivered. -/
  | short (k : Nat) (r : Rbs)
  deriving DecidableEq, Repr

/-- How many bytes the source can deliver to an acquisition of `n` bytes. A directive's limit decides; without one, named
bytes are certain to come and a free number follows them (30_encoding.md R106, 60_exceptions.md R258; logs 5, 6). -/
def Rbs.available (r : Rbs) (n : Nat) : Nat :=
  match r.limit with
  | some l => l
  | none => if n ≤ r.named.length then n else r.named.length + Config.rbsExtra r.asked

/-- Byte `j` of the next answer: the named bytes first, then free values (00_scope.md R18; logs 5, 6). -/
def Rbs.byte (r : Rbs) (j : Nat) : Byte := r.named.getD j (Config.rbsByte r.asked j)

/-- The source after it has delivered `k` bytes. -/
def Rbs.after (r : Rbs) (k : Nat) : Rbs :=
  { named := r.named.drop k, limit := r.limit.map (fun l => l - k), asked := r.asked + 1 }

/-- `RbsRead(n)`: one acquisition of exactly n bytes, no retry, no zero fill (00_scope.md R18, 60_exceptions.md R257, R260). -/
def Rbs.acquire (r : Rbs) (n : Nat) : RbsAnswer :=
  if n ≤ r.available n then .bytes ((List.range n).map r.byte) (r.after n)
  else .short (r.available n) (r.after (r.available n))

/-- The round-key sequencer: `n` acquisitions of 4 bytes, in order; a short read ends them and counts every byte received
since the first (44_feistel.md R206, R207, 60_exceptions.md R234). -/
def Rbs.drawKeys : Nat → Rbs → RbsAnswer
  | 0, r => .bytes [] r
  | n + 1, r =>
    match r.acquire 4 with
    | .short k r₁ => .short k r₁
    | .bytes b r₁ =>
      match Rbs.drawKeys n r₁ with
      | .short k r₂ => .short (4 + k) r₂
      | .bytes bs r₂ => .bytes (b ++ bs) r₂

/-- `rbs hex:..`: the bytes the source delivers from this point on (30_encoding.md R106; log 6). -/
def Rbs.name (r : Rbs) (t : Text) : Rbs := { r with named := t, limit := none }

/-- `rbs short n`: the source delivers only n more bytes (30_encoding.md R106; log 6). -/
def Rbs.cutShort (r : Rbs) (n : Nat) : Rbs := { r with limit := some n }

end Sys2Proof.Machine
end

