-- ==== Sys2Proof/Machine/Access.lean ====
section
/-! DEFINITION. The host's accesses (20_memory.md R63 to R65, R75 to R77) and its moves (30_encoding.md R101, R104, R106,
70_reset_and_hazards.md R270). -/

namespace Sys2Proof.Machine

/-! ### Reads -/

/-- The current value of a register, extended with zeros (20_memory.md R63). AFF_A, AFF_B and CAPR are constants (R29). -/
def State.regValue (s : State) : Reg → Word
  | .cmd => s.op.setWidth 32
  | .status => s.status.setWidth 32
  | .ctrl => s.ctrl.setWidth 32
  | .inLen => s.inLen.setWidth 32
  | .outLen => s.outLen.setWidth 32
  | .shift => s.shift
  | .inv => s.inv.setWidth 32
  | .affA => BitVec.ofNat 32 Config.affineA
  | .affB => BitVec.ofNat 32 Config.affineB
  | .einfo => s.einfo.setWidth 32
  | .capr => s.capr.setWidth 32

/-- Whether the command in progress writes a register (20_memory.md R75; log 9). An illegal byte writes none (R96). -/
def State.regInFlux (s : State) (r : Reg) : Bool :=
  s.busy && (match decode? s.op with
    | some i => writesReg i r
    | none => false)

/-- Whether the command in progress writes a memory (20_memory.md R75; log 9). -/
def State.spaceInFlux (s : State) (sp : Space) : Bool :=
  s.busy && (match decode? s.op with
    | some i => writesSpace i sp
    | none => false)

/-- An unspecified value of a register that can be in flux: 16 bits for OUT_LEN, 8 bits for INV (20_memory.md R75; log 9). -/
def freeRegValue (d : Nat) : Reg → Word
  | .outLen => (Config.freeHalf d).setWidth 32
  | _ => (Config.freeByte d 0).setWidth 32

/-- What a host read of register number `n` answers (20_memory.md R63, R75, 10_state.md R21). -/
def State.readReg (s : State) (n : Nat) : Word :=
  match Reg.ofNumber n with
  | some r => if s.regInFlux r then freeRegValue s.tick r else s.regValue r
  | none => 0

/-- What a host read of a memory answers: any value at or beyond the size (R65; log 10) and where the command in progress
writes (R75; log 9), else the byte the memory holds. -/
def State.readBuf (s : State) (sp : Space) (i : Nat) : Byte :=
  if s.size sp ≤ i ∨ s.spaceInFlux sp then Config.freeByte s.tick i else s.peek sp i

/-- The host has read the value `v`. The draw number moves on, so that a later unspecified read is free again (log 9). -/
def State.answer (v : Word) (s : State) : State := { s with answers := v :: s.answers, tick := s.tick + 1 }

/-- `HostReadReg(n)` (20_memory.md R63). -/
def hostReadReg (n : Nat) (s : State) : State := s.answer (s.readReg n)

/-- `HostReadBuf(space, i)` (20_memory.md R65). -/
def hostReadBuf (sp : Space) (i : Nat) (s : State) : State := s.answer ((s.readBuf sp i).setWidth 32)

/-! ### Writes -/

/-- A write to CMD: acceptance, or ignored while BUSY or in the fault state (10_state.md R22). -/
def writeCmd (v : Word) (s : State) : State := if s.busy || s.err then s else s.accept (v.setWidth 8)

/-- A write to CTRL: only bit 0 is kept, at any time (10_state.md R26, 20_memory.md R64). -/
def writeCtrl (v : Word) (s : State) : State := { s with ie := v.getLsbD 0 }

/-- A host write to a register by name: read-only registers ignore it, and while BUSY so does every register but CTRL
(20_memory.md R64, R76). -/
def State.writeReg (s : State) (v : Word) : Reg → State
  | .cmd => writeCmd v s
  | .ctrl => writeCtrl v s
  | .inLen => if s.busy then s else { s with inLen := v.setWidth 16 }
  | .shift => if s.busy then s else { s with shift := v }
  | .status => s
  | .outLen => s
  | .inv => s
  | .affA => s
  | .affB => s
  | .einfo => s
  | .capr => s

/-- `HostWriteReg(n, v)`: unimplemented numbers ignore it (20_memory.md R64, 10_state.md R21). -/
def hostWriteReg (n : Nat) (v : Word) (s : State) : State :=
  match Reg.ofNumber n with
  | some r => s.writeReg v r
  | none => s

/-- `space[i] <- v` for the memories the host may write; OBUF and KM ignore it (20_memory.md R65). -/
def State.poke (s : State) (i : Nat) (v : Byte) : Space → State
  | .ibuf => { s with ibuf := s.ibuf.write i v }
  | .keybuf => { s with keybuf := s.keybuf.write i v }
  | .rks => { s with rks := s.rks.write i v }
  | .obuf => s
  | .km => s

/-- `HostWriteBuf(space, i, v)`: ignored while BUSY (R76) and at or beyond the size (20_memory.md R65). -/
def hostWriteBuf (sp : Space) (i : Nat) (v : Word) (s : State) : State :=
  if s.busy || decide (s.size sp ≤ i) then s else s.poke i (v.setWidth 8) sp

/-! ### Moves -/

/-- What follows the first access of `mov` when OUT_LEN has answered `n` (30_encoding.md R104). -/
def movRest (n : Word) : List HostMove :=
  (List.range n.toNat).flatMap (fun i => [.rb .obuf i, .wbLast .ibuf i]) ++ [.wr 0x03 n]

/-- The next moves of the host. -/
def State.enqueue (ms : List HostMove) (s : State) : State := { s with script := ms ++ s.script }

/-- One move, already taken off the script (30_encoding.md R101, R104, R106, 70_reset_and_hazards.md R270). -/
def performMove (m : HostMove) (s : State) : State :=
  match m with
  | .wr n v => hostWriteReg n v s
  | .rd n => hostReadReg n s
  | .wb sp i v => hostWriteBuf sp i v s
  | .rb sp i => hostReadBuf sp i s
  | .wait => if (s.readReg 0x01).getLsbD 0 then (hostReadReg 0x01 s).enqueue [.wait] else hostReadReg 0x01 s
  | .mov => (hostReadReg 0x04 s).enqueue (movRest (s.readReg 0x04))
  | .wbLast sp i => hostWriteBuf sp i (s.answers.headD 0) s
  | .rst => s.rst
  | .rbs t => { s with rbs := s.rbs.name t }
  | .rbsShort n => { s with rbs := s.rbs.cutShort n }

/-- The host's turn: its next move, and one move fewer that fits before the completion step; with no move waiting nothing
happens (20_memory.md R70, R72; logs 3, 4, 12). -/
def hostTurn (s : State) : State :=
  match s.script with
  | [] => s
  | m :: rest => performMove m { s with script := rest, delay := s.delay - 1 }

/-- Whether the engine's completion step is the next step: BUSY is 1 (20_memory.md R71), and no host move comes before it,
either because as many as fit have been made or because the host has none (R72; log 4). -/
def State.engineTurn (s : State) : Bool := s.busy && (decide (s.delay = 0) || s.script.isEmpty)

/-- The completion step of an illegal byte (60_exceptions.md R231). -/
def raiseIllegal (s : State) : State := s.raise (.illegalCommand s.op)

end Sys2Proof.Machine
end

