-- ==== Sys2Proof/Machine/Affine.lean ====
section
/-! DEFINITION. The Affine commands and the modular-inverse unit (41_affine_modinv.md). The byte functions take the pair a, b
as arguments, so that laws can be stated for any pair (00_scope.md R7); the commands use the hardwired pair (log 2). -/

namespace Sys2Proof.Machine

/-- `AffEncByte(c)` (R131). -/
def affEncByte (a b : Nat) (c : Byte) : Byte :=
  match ord26 c with
  | none => c
  | some x => chr26 (floorMod ((a : Int) * x + b) 26)

/-- `AffDecByte(c, inv)` (R135): x - b may be negative, the modulus is floored. -/
def affDecByte (inv b : Nat) (c : Byte) : Byte :=
  match ord26 c with
  | none => c
  | some x => chr26 (floorMod ((inv : Int) * ((x : Int) - b)) 26)

/-- AFFINE_ENC (R132). -/
def execAffineEnc (s : State) : Result :=
  guardLength s (emit (s.text.map (affEncByte Config.affineA Config.affineB)) s)

/-- AFF_INV (R134): IN_LEN is not examined. Without an inverse the configuration is refused (U1; log 2). -/
def execAffInv (s : State) : Result :=
  match modInv26 Config.affineA with
  | some i => .next (s.setInv i).complete
  | none => .refused .noInverse

/-- AFFINE_DEC (R136): the search runs on every AFFINE_DEC and INV is written. Without an inverse the configuration is
refused (U1; log 2). -/
def execAffineDec (s : State) : Result :=
  guardLength s
    (match modInv26 Config.affineA with
     | some i => emit (s.text.map (affDecByte i Config.affineB)) (s.setInv i)
     | none => .refused .noInverse)

end Sys2Proof.Machine
end

