-- ==== Sys2Proof/Machine/Caesar.lean ====
section
/-! DEFINITION. The Caesar commands (40_caesar.md). -/

namespace Sys2Proof.Machine

/-- `CaesarByte(c, N)` (R111), over the integers (00_scope.md R11). -/
def caesarByte (n : Int) (c : Byte) : Byte :=
  match ord62 c with
  | none => c
  | some k => chr62 (floorMod ((k : Int) + n) 62)

/-- CAESAR_ENC (R112). -/
def execCaesarEnc (s : State) : Result :=
  guardLength s (emit (s.text.map (caesarByte s.shiftN)) s)

/-- CAESAR_DEC (R113): the shift is negated in the integers. -/
def execCaesarDec (s : State) : Result :=
  guardLength s (emit (s.text.map (caesarByte (-s.shiftN))) s)

end Sys2Proof.Machine
end

