-- ==== Sys2Proof/Machine/Feistel.lean ====
section
/-! DEFINITION. The Feistel commands (44_feistel.md). -/

namespace Sys2Proof.Machine

/-- Four bytes: a half block (R202), or a round key (10_state.md R37). -/
structure Half where
  b0 : Byte
  b1 : Byte
  b2 : Byte
  b3 : Byte
  deriving DecidableEq, Repr

/-- A block of eight bytes: left half bytes 0 to 3, right half bytes 4 to 7 (R202). -/
structure Block where
  left : Half
  right : Half
  deriving DecidableEq, Repr

/-- `F(H, K)`: lane-wise product modulo 256 (R203, 00_scope.md R12). -/
def roundF (h k : Half) : Half := ⟨h.b0 * k.b0, h.b1 * k.b1, h.b2 * k.b2, h.b3 * k.b3⟩

/-- `XorHalf(A, B)` (R203). -/
def xorHalf (a b : Half) : Half := ⟨a.b0 ^^^ b.b0, a.b1 ^^^ b.b1, a.b2 ^^^ b.b2, a.b3 ^^^ b.b3⟩

/-- One encrypt round on one block: compute, then exchange (R205). -/
def encRound (k : Half) (w : Block) : Block := ⟨w.right, xorHalf w.left (roundF w.right k)⟩

/-- One decrypt round on one block: exchange, then compute (R208). -/
def decRound (k : Half) (w : Block) : Block := ⟨xorHalf w.right (roundF w.left k), w.left⟩

/-- The four-byte groups of a text, from index 0 on. -/
def toHalves : Text → List Half
  | a :: b :: c :: d :: t => ⟨a, b, c, d⟩ :: toHalves t
  | _ => []

/-- The blocks of a text whose length is a multiple of 8 (R202). -/
def toBlocks : Text → List Block
  | a :: b :: c :: d :: e :: f :: g :: h :: t => ⟨⟨a, b, c, d⟩, ⟨e, f, g, h⟩⟩ :: toBlocks t
  | _ => []

/-- The bytes of a half in index order. -/
def Half.toText (h : Half) : Text := [h.b0, h.b1, h.b2, h.b3]

/-- The text of a sequence of blocks (R202). -/
def ofBlocks : List Block → Text
  | [] => []
  | w :: ws => w.left.toText ++ w.right.toText ++ ofBlocks ws

/-- `EncRounds(w, S)` on blocks: rounds outermost, every block with the same key (R205). -/
def encBlocks (keys : List Half) (ws : List Block) : List Block :=
  keys.foldl (fun ws k => ws.map (encRound k)) ws

/-- `DecRounds(c, S)` on blocks: the schedule in reverse order (R208). -/
def decBlocks (keys : List Half) (ws : List Block) : List Block :=
  keys.reverse.foldl (fun ws k => ws.map (decRound k)) ws

/-- `EncRounds(w, S)` (R205); the schedule is the text of its keys in order. -/
def encRounds (w sched : Text) : Text := ofBlocks (encBlocks (toHalves sched) (toBlocks w))

/-- `DecRounds(c, S)` (R208). -/
def decRounds (c sched : Text) : Text := ofBlocks (decBlocks (toHalves sched) (toBlocks c))

/-- `FeistelPad(t)`: the fewest zero bytes that make the length a multiple of 8 (R201). -/
def feistelPad (t : Text) : Text := t ++ zeros ((8 - t.length % 8) % 8)

/-- FEISTEL_PAD (R204). -/
def execFeistelPad (s : State) : Result :=
  guardLength s (emit (feistelPad s.text) s)

/-- FEISTEL_ENC on the padded text `w`: eight acquisitions, then the rounds (R206, R207; log 20). -/
def feistelEncState (w : Text) (s : State) : State :=
  match s.rbs.drawKeys 8 with
  | .bytes k r => (((s.setRbs r).setSchedule k).setOutput (encRounds w k)).complete
  | .short k r => (s.setRbs r).loseSchedule.raise (.rbsShort k)

/-- FEISTEL_ENC (R206): an empty text still draws all eight keys. -/
def execFeistelEnc (s : State) : Result :=
  guardLength s (guardOutput (feistelPad s.text).length s (feistelEncState (feistelPad s.text) s))

/-- FEISTEL_DEC (R209): a length that is no multiple of 8 is refused, RKS is used as it stands. -/
def execFeistelDec (s : State) : Result :=
  guardLength s
    (if s.inLen.toNat % 8 ≠ 0 then .next (s.raise (.length s.inLen))
     else emit (decRounds s.text s.schedule) s)

end Sys2Proof.Machine
end

