-- ==== Sys2Proof/Machine/Otp.lean ====
section
/-! DEFINITION. The one-time-pad commands (42_otp.md). -/

namespace Sys2Proof.Machine

/-- `OtpFilter(t)` (R151). -/
def otpFilter (t : Text) : Text :=
  t.filter inOtp ++ zeros (t.length - (t.filter inOtp).length)

/-- `XorText(p, k)` (R155). -/
def xorText (p k : Text) : Text := List.zipWith (fun x y => x ^^^ y) p k

/-- OTP_PREP (R153). -/
def execOtpPrep (s : State) : Result :=
  guardLength s (emit (otpFilter s.text) s)

/-- OTP_ENC (R156): the command filters, then XORs with the key as it stands. -/
def execOtpEnc (s : State) : Result :=
  guardLength s (emit (xorText (otpFilter s.text) s.otpKey) s)

/-- OTP_DEC (R157): no filter. -/
def execOtpDec (s : State) : Result :=
  guardLength s (emit (xorText s.text s.otpKey) s)

/-- OTP_KEYGEN after its length check: no acquisition for length 0 (R154). -/
def keygenState (s : State) : State :=
  if s.inLen.toNat = 0 then s.complete
  else
    match s.rbs.acquire s.inLen.toNat with
    | .bytes k r => ((s.setRbs r).setKey k).complete
    | .short k r => ((s.setRbs r).loseKey s.inLen.toNat).raise (.rbsShort k)

/-- OTP_KEYGEN (R154). -/
def execOtpKeygen (s : State) : Result :=
  guardLength s (.next (keygenState s))

end Sys2Proof.Machine
end

