-- ==== Sys2Proof/Machine/Playfair.lean ====
section
/-! DEFINITION. The Playfair commands (43_playfair.md). The matrix is the text of the 25 bytes of KM, cell (r, c) at 5r + c. -/

namespace Sys2Proof.Machine

/-- 'I', the letter never placed in the matrix (00_scope.md R5). -/
def letterI : Byte := 0x49

/-- 'J', the letter 'I' is rewritten to in a text (00_scope.md R5). -/
def letterJ : Byte := 0x4A

/-- 'X', separator and pad (00_scope.md R5). -/
def letterX : Byte := 0x58

/-! ### Key-matrix builder -/

/-- One turn of either loop of `BuildKM` (R171). The letters placed so far are the used ones, so the grid itself tells
whether a letter is used: DEDUCED, safe (log 21). -/
def placeLetter (g : Text) (c : Byte) : Text :=
  if isUpper c ∧ c ≠ letterI ∧ c ∉ g ∧ g.length < 25 then g ++ [c] else g

/-- 'A', 'B', ..., 'Z' in this order. -/
def alphabet : Text := (List.range 26).map chr26

/-- `BuildKM(w)` (R171): the keyword left to right, then the alphabet. -/
def buildKM (w : Text) : Text := alphabet.foldl placeLetter (w.foldl placeLetter [])

/-! ### Preprocessing -/

/-- Steps 1 and 2 of `PfPrep` (R174): strip every byte outside 'A'..'Z', rewrite 'I' to 'J'. -/
def pfStrip (t : Text) : Text := (t.filter isUpper).map (fun c => if c = letterI then letterJ else c)

/-- Step 3 of `PfPrep` (R174): one forward pass over the digraphs. -/
def pfSeparate : Text → Text
  | a :: b :: t => a :: (if a = b then letterX else b) :: pfSeparate t
  | t => t

/-- Step 4 of `PfPrep` (R174): pad to even length. -/
def pfPad (s : Text) : Text := if s.length % 2 = 1 then s ++ [letterX] else s

/-- `PfPrep(t)` (R174). -/
def pfPrep (t : Text) : Text := pfPad (pfSeparate (pfStrip t))

/-! ### Digraph substitution -/

/-- The first index from `i` on at which a cell holds `c`. -/
def scanCells (c : Byte) : (cells : Text) → (i : Nat) → Option Nat
  | [], _ => none
  | k :: cells, i => if k = c then some i else scanCells c cells (i + 1)

/-- `Locate(c)`: row and column of the first cell that holds c (R178). -/
def locate (km : Text) (c : Byte) : Option (Nat × Nat) :=
  (scanCells c km 0).map (fun j => (j / 5, j % 5))

/-- KM[5r + c]. -/
def cell (km : Text) (r c : Nat) : Byte := km.getD (5 * r + c) unlistedByte

/-- The three rules of R179 for two located letters; the row test comes first. -/
def pfRule (km : Text) (d : Int) (pa pb : Nat × Nat) : Byte × Byte :=
  if pa.1 = pb.1 then
    (cell km pa.1 (floorMod (pa.2 + d) 5), cell km pb.1 (floorMod (pb.2 + d) 5))
  else if pa.2 = pb.2 then
    (cell km (floorMod (pa.1 + d) 5) pa.2, cell km (floorMod (pb.1 + d) 5) pb.2)
  else
    (cell km pa.1 pb.2, cell km pb.1 pa.2)

/-- `PfDigraph(a, b, d, i)` (R179); the error is the index of the byte that was not found. -/
def pfDigraph (km : Text) (d : Int) (i : Nat) (a b : Byte) : Except Nat (Byte × Byte) :=
  match locate km a with
  | none => .error i
  | some pa =>
    match locate km b with
    | none => .error (i + 1)
    | some pb => .ok (pfRule km d pa pb)

/-- `PfSubst(s, d)` for a text of even length whose first byte has index `i` (R180). -/
def pfSubst (km : Text) (d : Int) : (i : Nat) → Text → Except Nat Text
  | i, a :: b :: t =>
    match pfDigraph km d i a b with
    | .error j => .error j
    | .ok (x, y) =>
      match pfSubst km d (i + 2) t with
      | .error j => .error j
      | .ok u => .ok (x :: y :: u)
  | _, _ => .ok []

/-- A completion with the text a substitution gives, or the error Symbol (60_exceptions.md R233). -/
def emitSubst (r : Except Nat Text) (s : State) : Result :=
  match r with
  | .error i => .next (s.raise (.symbol i))
  | .ok t => emit t s

/-! ### Commands -/

/-- PF_KEYMX (R173). -/
def execPfKeymx (s : State) : Result :=
  guardLength s (.next (s.setMatrix (buildKM s.text)).complete)

/-- PF_PREP (R177). -/
def execPfPrep (s : State) : Result :=
  guardLength s (emit (pfPrep s.text) s)

/-- PF_ENC (R181): preprocess, then substitute with +1. -/
def execPfEnc (s : State) : Result :=
  guardLength s (emitSubst (pfSubst s.matrix 1 0 (pfPrep s.text)) s)

/-- PF_DEC (R182): an odd length is refused, no preprocessing, substitute with -1. -/
def execPfDec (s : State) : Result :=
  guardLength s
    (if s.inLen.toNat % 2 = 1 then .next (s.raise (.length s.inLen))
     else emitSubst (pfSubst s.matrix (-1) 0 s.text) s)

end Sys2Proof.Machine
end

