-- ==== Sys2Proof/Machine/Dispatch.lean ====
section
/-! DEFINITION. The completion step of each command (20_memory.md R71), one arm per constructor. -/

namespace Sys2Proof.Machine

def exec (i : Instr) (s : State) : Host.Outcome State Fault Refusal :=
  match i with
  | .caesarEnc => Sys2Proof.Machine.execCaesarEnc s
  | .caesarDec => Sys2Proof.Machine.execCaesarDec s
  | .affineEnc => Sys2Proof.Machine.execAffineEnc s
  | .affineDec => Sys2Proof.Machine.execAffineDec s
  | .affInv => Sys2Proof.Machine.execAffInv s
  | .otpEnc => Sys2Proof.Machine.execOtpEnc s
  | .otpDec => Sys2Proof.Machine.execOtpDec s
  | .otpPrep => Sys2Proof.Machine.execOtpPrep s
  | .otpKeygen => Sys2Proof.Machine.execOtpKeygen s
  | .pfEnc => Sys2Proof.Machine.execPfEnc s
  | .pfDec => Sys2Proof.Machine.execPfDec s
  | .pfPrep => Sys2Proof.Machine.execPfPrep s
  | .pfKeymx => Sys2Proof.Machine.execPfKeymx s
  | .feistelEnc => Sys2Proof.Machine.execFeistelEnc s
  | .feistelDec => Sys2Proof.Machine.execFeistelDec s
  | .feistelPad => Sys2Proof.Machine.execFeistelPad s

end Sys2Proof.Machine
end

