-- ==== Sys2Proof/Machine/Step.lean ====
section
/-! DEFINITION. One step of the machine (20_memory.md R70 to R72): the engine's completion step of the latched command, or
the host's next move. -/

namespace Sys2Proof.Machine

/-- The completion step of the command OP names; an illegal byte raises IllegalCommand (20_memory.md R71, 30_encoding.md R96). -/
def engineStep (s : State) : Host.Outcome State Fault Refusal :=
  match decode s.op with
  | .ok i => exec i s
  | .error _ => .next (raiseIllegal s)

/-- One step. -/
def step (s : State) : Host.Outcome State Fault Refusal :=
  if s.engineTurn then engineStep s else .next (hostTurn s)

/-- The state in which the next step runs the instruction of the table word `w`: its byte has been accepted (log 12). -/
def State.withFetchWord (s : State) (nbits w : Nat) : State := s.latch (tableByte nbits w)

end Sys2Proof.Machine
end

