-- ==== Sys2Proof/Machine/Script.lean ====
section
/-! DEFINITION. The notation of host scripts as lists of moves (30_encoding.md R101 to R105). -/

namespace Sys2Proof.Machine

/-- `cmd 0x..`: a write of a byte to CMD (R101, R102). -/
def cmdByte (b : Byte) : List HostMove := [.wr 0x00 (b.setWidth 32)]

/-- `cmd MNEMONIC` (R101, R102). -/
def cmd (i : Instr) : List HostMove := cmdByte (encode i)

/-- `run MNEMONIC`: cmd, then wait (R105). -/
def run (i : Instr) : List HostMove := cmd i ++ [.wait]

/-- The byte writes of `load` from index `i` on (R103). -/
def loadBytes (sp : Space) : (i : Nat) → Text → List HostMove
  | _, [] => []
  | i, v :: t => .wb sp i (v.setWidth 32) :: loadBytes sp (i + 1) t

/-- `load SPACE, text`: for IBUF the length is written last, for other memories no length is written (R103). -/
def load (sp : Space) (t : Text) : List HostMove :=
  loadBytes sp 0 t ++ (if sp = .ibuf then [.wr 0x03 (BitVec.ofNat 32 t.length)] else [])

end Sys2Proof.Machine
end

