-- ==== Sys2Proof/Safety.lean ====
section
/-! DEFINITION. The terms in which claims speak: what a step leaves unchanged, how a command ends, the invariant of the
reachable states, the checks of a host script, and the end of a good run. -/

namespace Sys2Proof.Machine

/-! ### Frames -/

/-- Each of these registers reads as before. STATUS is left out of such lists: claims speak of its fields. -/
def keepsRegs (rs : List Reg) (s t : State) : Prop := ∀ r ∈ rs, t.regValue r = s.regValue r

/-- Every byte of each of these memories reads as before. -/
def keepsBytes (sps : List Space) (s t : State) : Prop := ∀ sp ∈ sps, ∀ a, t.peek sp a = s.peek sp a

/-- All registers besides STATUS and EINFO, and every byte of all memories, read as before. -/
def keepsAll (s t : State) : Prop :=
  keepsRegs [.cmd, .ctrl, .inLen, .outLen, .shift, .inv, .affA, .affB, .capr] s t ∧
    keepsBytes [.ibuf, .obuf, .keybuf, .rks, .km] s t

/-- What every command leaves unchanged however it ends, errors included (10_state.md R22, R26, R27, R30, R33, R41): OP, CTRL,
IN_LEN, SHIFT, the constants, IBUF; and the host's coming moves and past answers. -/
def keepsInputs (s t : State) : Prop :=
  keepsRegs [.cmd, .ctrl, .inLen, .shift, .affA, .affB, .capr] s t ∧ keepsBytes [.ibuf] s t ∧
    t.script = s.script ∧ t.answers = s.answers

/-! ### How a command ends -/

/-- The end without error: BUSY 0, DONE 1, ERR, ECODE and EINFO as before (20_memory.md R71, 10_state.md R24). -/
def completed (s t : State) : Prop :=
  t.busy = false ∧ t.done = true ∧ t.err = s.err ∧ t.ecode = s.ecode ∧ t.einfo = s.einfo

/-- The end with an error of a code and an information (60_exceptions.md R240). -/
def failed (code : BitVec 4) (info : Half16) (t : State) : Prop :=
  t.busy = false ∧ t.done = false ∧ t.err = true ∧ t.ecode = code ∧ t.einfo = info

/-- The end with the error Length: code 2, EINFO the length, and nothing else changed (60_exceptions.md R232, R242). -/
def lengthError (s t : State) : Prop := failed 2 s.inLen t ∧ keepsAll s t

/-- A text command has completed with the output text `out` in OBUF[0..OUT_LEN) (10_state.md R28, R34). -/
def gaveText (out : Text) (s t : State) : Prop := completed s t ∧ t.outText = out

/-- The host has moved the output of `t` back as the input of `u` (30_encoding.md R104), on the same block. -/
def movedBack (t u : State) : Prop :=
  u.inLen = t.outLen ∧ (∀ i, i < t.outLen.toNat → u.peek .ibuf i = t.peek .obuf i) ∧ u.capr = t.capr

/-! ### The invariant -/

/-- CAP is admissible (00_scope.md R6). -/
def State.admissible (s : State) : Prop := capOk s.cap = true

/-- Every memory is in its canonical form and lists no index beyond its size, OBUF none in its unspecified part. -/
def State.memOk (s : State) : Prop :=
  (s.ibuf.wf ∧ s.ibuf.below s.cap) ∧ (s.obuf.wf ∧ s.obuf.below s.cap) ∧ (s.keybuf.wf ∧ s.keybuf.below s.cap) ∧
    (s.rks.wf ∧ s.rks.below Config.rksSize) ∧ (s.km.wf ∧ s.km.below Config.kmSize) ∧
    ∀ j, s.obufJunk = some j → s.obuf.below j.start

/-- At most one of BUSY, DONE, ERR is 1 (10_state.md R23); ECODE and EINFO are 0 while ERR is 0, and ECODE is one of the
four codes while ERR is 1 (10_state.md R23, 60_exceptions.md R230). -/
def State.flagsOk (s : State) : Prop :=
  ¬(s.busy = true ∧ s.done = true) ∧ ¬(s.busy = true ∧ s.err = true) ∧ ¬(s.done = true ∧ s.err = true) ∧
    (s.err = false → s.ecode = 0 ∧ s.einfo = 0) ∧ (s.err = true → 1 ≤ s.ecode.toNat ∧ s.ecode.toNat ≤ 4)

/-- A text that is a built key matrix: the 25 letters 'A'..'Z' without 'I', each exactly once (43_playfair.md R172). -/
def builtMatrix (g : Text) : Prop :=
  g.length = 25 ∧ g.Nodup ∧ ∀ c : Byte, c ∈ g ↔ (isUpper c = true ∧ c ≠ letterI)

/-- KM is all zeros or a built matrix (10_state.md R39). -/
def State.kmOk (s : State) : Prop := s.matrix = zeros 25 ∨ builtMatrix s.matrix

/-- OUT_LEN is at most CAP unless an error has left it unspecified (10_state.md R28). -/
def State.outLenOk (s : State) : Prop := s.err = false → s.outLen.toNat ≤ s.cap

/-- The invariant of the reachable states. -/
def State.Inv (s : State) : Prop := s.admissible ∧ s.memOk ∧ s.flagsOk ∧ s.kmOk ∧ s.outLenOk

/-! ### Texts -/

/-- Preprocessed form for the one-time pad: alphabet bytes, then zero bytes only (42_otp.md R152 (b)). -/
def otpForm (t : Text) : Prop := ∃ p n, (∀ c ∈ p, inOtp c = true) ∧ t = p ++ zeros n

/-- Preprocessed form for Playfair: letters without 'I', even length, no digraph with equal letters other than "XX"
(43_playfair.md R175 (d)). -/
def pfForm (t : Text) : Prop :=
  (∀ c ∈ t, isUpper c = true ∧ c ≠ letterI) ∧ t.length % 2 = 0 ∧
    ∀ k, 2 * k + 1 < t.length → t.getD (2 * k) 0 = t.getD (2 * k + 1) 0 → t.getD (2 * k) 0 = letterX

/-! ### Host scripts -/

/-- The directive `expect X = v` (30_encoding.md R106): a check, no access. -/
inductive Expect where
  | reg (r : Reg) (v : Word)
  | bytes (sp : Space) (lo : Nat) (t : Text)
  | irq (v : Bool)
  deriving DecidableEq, Repr

/-- Whether the state has what the directive states. -/
def State.meets (s : State) : Expect → Bool
  | .reg r v => decide (s.regValue r = v)
  | .bytes sp lo t => decide ((List.range t.length).map (fun i => s.peek sp (lo + i)) = t)
  | .irq v => decide (s.irq = v)

/-- The end of a good run: nothing in progress, no move waiting, and not the fault state (60_exceptions.md R241). -/
def State.goodEnd (s : State) : Bool := !s.busy && s.script.isEmpty && !s.err

end Sys2Proof.Machine
end

