-- ==== Sys2Proof/Certificates/Slice0/Obligations.lean ====
section
/-! DEFINITION. The statements about the block, one definition each; OBLIGATIONS.json names the rule of the spec each one
formalises. -/

open Sys2Proof Sys2Proof.Machine

/-! ### Command bytes -/

/-- R98: the decoder answers exactly the sixteen rows of the opcode map and rejects every other byte. -/
def Obligations.DecoderFollowsOpcodeMap : Prop :=
  ∀ (b : Byte) (i : Instr), decode b = .ok i ↔ (b, i) ∈
    ([(0x10, .caesarEnc), (0x11, .caesarDec), (0x20, .affineEnc), (0x21, .affineDec), (0x23, .affInv), (0x30, .otpEnc),
      (0x31, .otpDec), (0x32, .otpPrep), (0x33, .otpKeygen), (0x40, .pfEnc), (0x41, .pfDec), (0x42, .pfPrep),
      (0x43, .pfKeymx), (0x50, .feistelEnc), (0x51, .feistelDec), (0x52, .feistelPad)] : List (Byte × Instr))

/-- R90, R92: decoding the byte put together from a command's UNIT and FUNC gives the command back. -/
def Obligations.DecodeEncodeAgree : Prop :=
  ∀ i : Instr, decode (encode i) = .ok i ∧ (encode i).toNat = i.unit.toNat * 16 + i.func.toNat

/-! ### Steps -/

/-- R71: when BUSY is 1 and no host move comes first, the step is the completion step of the command OP names and nothing
else; otherwise it is the host's next move, or, when the host has none, no change (model's choice, logs 3, 4, 12). R63 to
R65, R101, R104, R106, R270: each move is the access of its name, rst the reset input, `wait` reads STATUS again while BUSY,
a directive concerns the source alone (logs 6, 18), and a read puts the value it answers before the earlier answers (log 3).
-/
def Obligations.StepRunsDecodedCommand : Prop :=
  (∀ (s : State) (i : Instr), s.busy = true → (s.delay = 0 ∨ s.script = []) → decode s.op = .ok i → step s = exec i s) ∧
  (∀ (s : State) (m : HostMove) (rest : List HostMove), (s.busy = false ∨ s.delay ≠ 0) → s.script = m :: rest →
    step s = .next (performMove m { s with script := rest, delay := s.delay - 1 })) ∧
  (∀ s : State, s.busy = false → s.script = [] → step s = .next s) ∧
  (∀ s : State,
    (∀ n v, performMove (.wr n v) s = hostWriteReg n v s) ∧ (∀ n, performMove (.rd n) s = hostReadReg n s) ∧
    (∀ sp i v, performMove (.wb sp i v) s = hostWriteBuf sp i v s) ∧
    (∀ sp i, performMove (.rb sp i) s = hostReadBuf sp i s) ∧ performMove .rst s = s.rst ∧
    (∀ sp i, performMove (.wbLast sp i) s = hostWriteBuf sp i (s.answers.headD 0) s) ∧
    (s.busy = true → performMove .wait s = { hostReadReg 1 s with script := HostMove.wait :: s.script }) ∧
    (s.busy = false → performMove .wait s = hostReadReg 1 s) ∧
    (∀ t, performMove (.rbs t) s = { s with rbs := { named := t, limit := none, asked := s.rbs.asked } }) ∧
    (∀ n, performMove (.rbsShort n) s = { s with rbs := { s.rbs with limit := some n } })) ∧
  (∀ s : State, (∀ n, (hostReadReg n s).answers = s.readReg n :: s.answers) ∧
    (∀ sp i, (hostReadBuf sp i s).answers = (s.readBuf sp i).setWidth 32 :: s.answers))

/-- R231: the completion step of an illegal byte raises IllegalCommand with the byte in EINFO and does nothing else. -/
def Obligations.IllegalByteOnlyRaises : Prop :=
  ∀ s : State, s.busy = true → (s.delay = 0 ∨ s.script = []) → (∀ i, decode s.op ≠ .ok i) →
    ∃ t, step s = .next t ∧ failed 1 (s.op.setWidth 16) t ∧ keepsAll s t ∧ t.script = s.script ∧ t.answers = s.answers ∧
      t.rbs = s.rbs

/-- No step from a state with an admissible CAP (R6) stops: there is always a next state. -/
def Obligations.EveryStepGoesOn : Prop :=
  ∀ s : State, s.admissible → ∃ t, step s = .next t

/-- R72, R291: a command in progress ends after at most as many host moves as the free delay allows (logs 4, 13). -/
def Obligations.BusyEnds : Prop :=
  ∀ s : State, s.admissible → s.busy = true →
    ∃ k t, k ≤ s.delay + 1 ∧ Host.Core.run Sys2Proof.core k s = .next t ∧ t.busy = false

/-! ### Caesar -/

/-- R13: the mapping of the 62 symbols and its inverse. -/
def Obligations.CaesarAlphabetIsInverse : Prop :=
  (∀ c : Byte,
    (0x30 ≤ c.toNat ∧ c.toNat ≤ 0x39 → ord62 c = some (c.toNat - 0x30)) ∧
    (0x41 ≤ c.toNat ∧ c.toNat ≤ 0x5A → ord62 c = some (c.toNat - 0x41 + 10)) ∧
    (0x61 ≤ c.toNat ∧ c.toNat ≤ 0x7A → ord62 c = some (c.toNat - 0x61 + 36)) ∧
    (c.toNat < 0x30 ∨ (0x39 < c.toNat ∧ c.toNat < 0x41) ∨ (0x5A < c.toNat ∧ c.toNat < 0x61) ∨ 0x7A < c.toNat →
      ord62 c = none)) ∧
  (∀ n : Nat, n ≤ 61 →
    (n ≤ 9 → (chr62 n).toNat = 0x30 + n) ∧ (10 ≤ n ∧ n ≤ 35 → (chr62 n).toNat = 0x41 + (n - 10)) ∧
    (36 ≤ n → (chr62 n).toNat = 0x61 + (n - 36))) ∧
  (∀ (c : Byte) (k : Nat), ord62 c = some k → chr62 k = c) ∧ (∀ n : Nat, n ≤ 61 → ord62 (chr62 n) = some n)

/-- R112: CAESAR_ENC. -/
def Obligations.CaesarEncResult : Prop :=
  decode 0x10 = .ok .caesarEnc ∧ ∀ s : State,
    (s.inLen.toNat ≤ s.cap → ∃ t, exec .caesarEnc s = .next t ∧
      gaveText (s.text.map (caesarByte s.shift.toInt)) s t ∧ t.outLen = s.inLen ∧
      keepsInputs s t ∧ keepsRegs [.inv] s t ∧ keepsBytes [.keybuf, .rks, .km] s t) ∧
    (s.cap < s.inLen.toNat → ∃ t, exec .caesarEnc s = .next t ∧ lengthError s t)

/-- R113: CAESAR_DEC, the shift negated in the integers. -/
def Obligations.CaesarDecResult : Prop :=
  decode 0x11 = .ok .caesarDec ∧ ∀ s : State,
    (s.inLen.toNat ≤ s.cap → ∃ t, exec .caesarDec s = .next t ∧
      gaveText (s.text.map (caesarByte (-s.shift.toInt))) s t ∧ t.outLen = s.inLen ∧
      keepsInputs s t ∧ keepsRegs [.inv] s t ∧ keepsBytes [.keybuf, .rks, .km] s t) ∧
    (s.cap < s.inLen.toNat → ∃ t, exec .caesarDec s = .next t ∧ lengthError s t)

/-- R114: encrypt, move back, decrypt with the same SHIFT gives the text; also in the other order. -/
def Obligations.CaesarRoundTrip : Prop :=
  ∀ s t u : State, s.inLen.toNat ≤ s.cap → movedBack t u → u.shift = s.shift →
    (exec .caesarEnc s = .next t → ∃ v, exec .caesarDec u = .next v ∧ gaveText s.text u v) ∧
    (exec .caesarDec s = .next t → ∃ v, exec .caesarEnc u = .next v ∧ gaveText s.text u v)

/-- R115, R116: bytes outside the alphabet pass through, alphabet bytes map to alphabet bytes by the shifted ordinal;
period 62; encrypting with N is decrypting with -N. -/
def Obligations.CaesarPassThroughAndPeriod : Prop :=
  (∀ (c : Byte) (n : Int), (ord62 c = none → caesarByte n c = c) ∧
    (∀ k, ord62 c = some k → ord62 (caesarByte n c) = some (floorMod (k + n) 62))) ∧
  (∀ (c : Byte) (n : Int), caesarByte n c = caesarByte (n + 62) c) ∧
  (∀ (s t : State) (w : Word), w.toInt = -s.shift.toInt → exec .caesarEnc s = .next t →
    exec .caesarDec { s with shift := w } = .next { t with shift := w })

/-! ### Affine -/

/-- R16: the exhaustive search finds the unique inverse, and none exactly when there is none. -/
def Obligations.InverseSearchFindsInverse : Prop :=
  ∀ a : Nat, (∀ i, modInv26 a = some i ↔ (i < 26 ∧ (a * i) % 26 = 1)) ∧ (modInv26 a = none ↔ Nat.gcd a 26 ≠ 1)

/-- R132: AFFINE_ENC with a = 11, b = 19. -/
def Obligations.AffineEncResult : Prop :=
  decode 0x20 = .ok .affineEnc ∧ ∀ s : State,
    (s.inLen.toNat ≤ s.cap → ∃ t, exec .affineEnc s = .next t ∧
      gaveText (s.text.map (affEncByte 11 19)) s t ∧ t.outLen = s.inLen ∧
      keepsInputs s t ∧ keepsRegs [.inv] s t ∧ keepsBytes [.keybuf, .rks, .km] s t) ∧
    (s.cap < s.inLen.toNat → ∃ t, exec .affineEnc s = .next t ∧ lengthError s t)

/-- R134: AFF_INV writes INV = 19 and nothing else, whatever IN_LEN is. -/
def Obligations.AffInvResult : Prop :=
  decode 0x23 = .ok .affInv ∧ ∀ s : State, ∃ t, exec .affInv s = .next t ∧ completed s t ∧ t.inv = 19 ∧
    keepsInputs s t ∧ keepsRegs [.outLen] s t ∧ keepsBytes [.obuf, .keybuf, .rks, .km] s t

/-- R136: AFFINE_DEC with the inverse 19, which it also leaves in INV. -/
def Obligations.AffineDecResult : Prop :=
  decode 0x21 = .ok .affineDec ∧ ∀ s : State,
    (s.inLen.toNat ≤ s.cap → ∃ t, exec .affineDec s = .next t ∧
      gaveText (s.text.map (affDecByte 19 19)) s t ∧ t.outLen = s.inLen ∧ t.inv = 19 ∧
      keepsInputs s t ∧ keepsBytes [.keybuf, .rks, .km] s t) ∧
    (s.cap < s.inLen.toNat → ∃ t, exec .affineDec s = .next t ∧ lengthError s t)

/-- R137: the Affine round trip in both orders, for every text. -/
def Obligations.AffineRoundTrip : Prop :=
  ∀ s t u : State, s.inLen.toNat ≤ s.cap → movedBack t u →
    (exec .affineEnc s = .next t → ∃ v, exec .affineDec u = .next v ∧ gaveText s.text u v) ∧
    (exec .affineDec s = .next t → ∃ v, exec .affineEnc u = .next v ∧ gaveText s.text u v)

/-- R7, R14, R131, R135, R138: the ordinals of the letters; what the two byte functions make of a letter, for every pair and
every inverse value, over the integers; they leave every other byte alone; and they are inverse for every pair with an
invertible a. -/
def Obligations.AffineAnyPairInverts : Prop :=
  (∀ (c : Byte) (k : Nat), ord26 c = some k ↔ (k < 26 ∧ c.toNat = 0x41 + k)) ∧
  (∀ (a b i : Nat) (c : Byte) (k : Nat), ord26 c = some k →
    ord26 (affEncByte a b c) = some ((a * k + b) % 26) ∧
    ord26 (affDecByte i b c) = some (((i : Int) * ((k : Int) - (b : Int))) % 26).toNat) ∧
  (∀ (a b i : Nat) (c : Byte), ord26 c = none → affEncByte a b c = c ∧ affDecByte i b c = c) ∧
  (∀ (a b i : Nat), modInv26 a = some i → ∀ c : Byte,
    affDecByte i b (affEncByte a b c) = c ∧ affEncByte a b (affDecByte i b c) = c ∧
      (isUpper c = false → affEncByte a b c = c ∧ affDecByte i b c = c))

/-! ### One-time pad -/

/-- R15: which bytes are in the alphabet. R151, R152: the filter keeps the length, its result is in preprocessed form, and it
leaves exactly such texts alone; the alphabet bytes of the result are those of the text, in their order and number. -/
def Obligations.OtpFilterForm : Prop :=
  (∀ c : Byte, inOtp c = true ↔ ((0x30 ≤ c.toNat ∧ c.toNat ≤ 0x39) ∨ (0x41 ≤ c.toNat ∧ c.toNat ≤ 0x5A) ∨
    (0x61 ≤ c.toNat ∧ c.toNat ≤ 0x7A) ∨ c.toNat = 0x20)) ∧
  ∀ t : Text, (otpFilter t).length = t.length ∧ otpForm (otpFilter t) ∧ otpFilter (otpFilter t) = otpFilter t ∧
    (otpFilter t = t ↔ otpForm t) ∧ (∀ c, c ∈ t → inOtp c = true → c ∈ otpFilter t) ∧
    (otpFilter t).filter inOtp = t.filter inOtp

/-- R153: OTP_PREP. -/
def Obligations.OtpPrepResult : Prop :=
  decode 0x32 = .ok .otpPrep ∧ ∀ s : State,
    (s.inLen.toNat ≤ s.cap → ∃ t, exec .otpPrep s = .next t ∧
      gaveText (otpFilter s.text) s t ∧ t.outLen = s.inLen ∧
      keepsInputs s t ∧ keepsRegs [.inv] s t ∧ keepsBytes [.keybuf, .rks, .km] s t) ∧
    (s.cap < s.inLen.toNat → ∃ t, exec .otpPrep s = .next t ∧ lengthError s t)

/-- R154, R234, R242: OTP_KEYGEN: no acquisition for length 0, the source's bytes in order otherwise, RbsShort on a short
read with KEYBUF beyond IN_LEN kept, Length before the source is asked. -/
def Obligations.OtpKeygenResult : Prop :=
  decode 0x33 = .ok .otpKeygen ∧ ∀ s : State,
    (s.inLen = 0 → ∃ t, exec .otpKeygen s = .next t ∧ completed s t ∧ t.rbs = s.rbs ∧
      keepsInputs s t ∧ keepsRegs [.outLen, .inv] s t ∧ keepsBytes [.obuf, .keybuf, .rks, .km] s t) ∧
    (s.inLen ≠ 0 → s.inLen.toNat ≤ s.cap →
      (∀ k r, s.rbs.acquire s.inLen.toNat = .bytes k r → ∃ t, exec .otpKeygen s = .next t ∧ completed s t ∧ t.rbs = r ∧
        t.otpKey = k ∧ (∀ a, s.inLen.toNat ≤ a → t.peek .keybuf a = s.peek .keybuf a) ∧
        keepsInputs s t ∧ keepsRegs [.outLen, .inv] s t ∧ keepsBytes [.obuf, .rks, .km] s t) ∧
      (∀ k r, s.rbs.acquire s.inLen.toNat = .short k r → ∃ t, exec .otpKeygen s = .next t ∧
        failed 4 (BitVec.ofNat 16 k) t ∧ k < s.inLen.toNat ∧
        (∀ a, s.inLen.toNat ≤ a → t.peek .keybuf a = s.peek .keybuf a) ∧
        keepsInputs s t ∧ keepsRegs [.inv] s t ∧ keepsBytes [.rks, .km] s t)) ∧
    (s.cap < s.inLen.toNat → ∃ t, exec .otpKeygen s = .next t ∧ lengthError s t ∧ t.rbs = s.rbs)

/-- R156: OTP_ENC filters and XORs with the key as it stands; byte by byte. -/
def Obligations.OtpEncResult : Prop :=
  decode 0x30 = .ok .otpEnc ∧ ∀ s : State,
    (s.inLen.toNat ≤ s.cap → ∃ t, exec .otpEnc s = .next t ∧ completed s t ∧ t.outLen = s.inLen ∧
      (∀ i, i < s.inLen.toNat → t.peek .obuf i = (otpFilter s.text).getD i 0 ^^^ s.peek .keybuf i) ∧
      keepsInputs s t ∧ keepsRegs [.inv] s t ∧ keepsBytes [.keybuf, .rks, .km] s t) ∧
    (s.cap < s.inLen.toNat → ∃ t, exec .otpEnc s = .next t ∧ lengthError s t)

/-- R157: OTP_DEC XORs without a filter; byte by byte. -/
def Obligations.OtpDecResult : Prop :=
  decode 0x31 = .ok .otpDec ∧ ∀ s : State,
    (s.inLen.toNat ≤ s.cap → ∃ t, exec .otpDec s = .next t ∧ completed s t ∧ t.outLen = s.inLen ∧
      (∀ i, i < s.inLen.toNat → t.peek .obuf i = s.peek .ibuf i ^^^ s.peek .keybuf i) ∧
      keepsInputs s t ∧ keepsRegs [.inv] s t ∧ keepsBytes [.keybuf, .rks, .km] s t) ∧
    (s.cap < s.inLen.toNat → ∃ t, exec .otpDec s = .next t ∧ lengthError s t)

/-- R158: encrypt, move back, decrypt with the same key gives the filtered text, which is the text itself when it is in
preprocessed form. -/
def Obligations.OtpRoundTrip : Prop :=
  ∀ s t u : State, s.inLen.toNat ≤ s.cap → exec .otpEnc s = .next t → movedBack t u →
    (∀ i, i < s.inLen.toNat → u.peek .keybuf i = s.peek .keybuf i) →
    ∃ v, exec .otpDec u = .next v ∧ gaveText (otpFilter s.text) u v ∧ (otpForm s.text → v.outText = s.text)

/-! ### Playfair -/

/-- R172: the builder gives the 25 letters without 'I', each once, the keyword's eligible letters first, in order of first
occurrence. R171: they are followed by the letters 'A' to 'Z' in this order, without 'I' and without those of the keyword. -/
def Obligations.BuilderGivesMatrix : Prop :=
  ∀ w : Text, builtMatrix (buildKM w) ∧ letterI ∉ buildKM w ∧
    (w.filter (fun c => isUpper c && decide (c ≠ letterI))).eraseDups <+: buildKM w ∧
    buildKM w = (w.filter (fun c => isUpper c && decide (c ≠ 0x49))).eraseDups ++
      ((List.range 26).map (fun n => BitVec.ofNat 8 (0x41 + n))).filter (fun c => decide (c ≠ 0x49) && decide (c ∉ w))

/-- R173: PF_KEYMX. -/
def Obligations.PfKeymxResult : Prop :=
  decode 0x43 = .ok .pfKeymx ∧ ∀ s : State,
    (s.inLen.toNat ≤ s.cap → ∃ t, exec .pfKeymx s = .next t ∧ completed s t ∧ t.matrix = buildKM s.text ∧
      keepsInputs s t ∧ keepsRegs [.outLen, .inv] s t ∧ keepsBytes [.obuf, .keybuf, .rks] s t) ∧
    (s.cap < s.inLen.toNat → ∃ t, exec .pfKeymx s = .next t ∧ lengthError s t)

/-- R9: which bytes are uppercase letters. R174, R175: the preprocessor gives texts in preprocessed form and leaves exactly
those alone. With s the letters of the text in order, 'I' made 'J': the first letter of each digraph is that of s, the second
too unless the two are equal, when it is 'X', and an s of odd length is followed by the pad 'X' (the length of the result is
the statement PfPrepLength). -/
def Obligations.PfPrepForm : Prop :=
  (∀ c : Byte, isUpper c = true ↔ (0x41 ≤ c.toNat ∧ c.toNat ≤ 0x5A)) ∧
  ∀ t : Text, pfForm (pfPrep t) ∧ pfPrep (pfPrep t) = pfPrep t ∧ (pfPrep t = t ↔ pfForm t) ∧
    ∀ s : Text, s = (t.filter isUpper).map (fun c => if c = 0x49 then 0x4A else c) →
      (∀ k, 2 * k < s.length → (pfPrep t).getD (2 * k) 0 = s.getD (2 * k) 0) ∧
      (∀ k, 2 * k + 1 < s.length → (pfPrep t).getD (2 * k + 1) 0 =
        if s.getD (2 * k) 0 = s.getD (2 * k + 1) 0 then 0x58 else s.getD (2 * k + 1) 0) ∧
      (s.length % 2 = 1 → (pfPrep t).getD s.length 0 = 0x58)

/-- R176: the length of a preprocessed text; it fits OBUF. -/
def Obligations.PfPrepLength : Prop :=
  ∀ t : Text,
    ((t.filter isUpper).length % 2 = 0 → (pfPrep t).length = (t.filter isUpper).length) ∧
    ((t.filter isUpper).length % 2 = 1 → (pfPrep t).length = (t.filter isUpper).length + 1) ∧
    (pfPrep t).length ≤ t.length + 1 ∧
    (∀ cap : Nat, cap % 2 = 0 → t.length ≤ cap → (pfPrep t).length ≤ cap)

/-- R177: PF_PREP. -/
def Obligations.PfPrepResult : Prop :=
  decode 0x42 = .ok .pfPrep ∧ ∀ s : State, s.admissible →
    (s.inLen.toNat ≤ s.cap → ∃ t, exec .pfPrep s = .next t ∧
      gaveText (pfPrep s.text) s t ∧ t.outLen.toNat = (pfPrep s.text).length ∧
      keepsInputs s t ∧ keepsRegs [.inv] s t ∧ keepsBytes [.keybuf, .rks, .km] s t) ∧
    (s.cap < s.inLen.toNat → ∃ t, exec .pfPrep s = .next t ∧ lengthError s t)

/-- R181: PF_ENC; with a built matrix no Symbol error is possible. -/
def Obligations.PfEncResult : Prop :=
  decode 0x40 = .ok .pfEnc ∧ ∀ s : State, s.admissible →
    (s.inLen.toNat ≤ s.cap →
      (builtMatrix s.matrix → ∃ e, pfSubst s.matrix 1 0 (pfPrep s.text) = .ok e) ∧
      (∀ e, pfSubst s.matrix 1 0 (pfPrep s.text) = .ok e → ∃ t, exec .pfEnc s = .next t ∧
        gaveText e s t ∧ t.outLen.toNat = (pfPrep s.text).length ∧
        keepsInputs s t ∧ keepsRegs [.inv] s t ∧ keepsBytes [.keybuf, .rks, .km] s t) ∧
      (s.matrix = zeros 25 → pfPrep s.text ≠ [] → ∃ t, exec .pfEnc s = .next t ∧ failed 3 0 t ∧
        keepsInputs s t ∧ keepsRegs [.inv] s t ∧ keepsBytes [.keybuf, .rks, .km] s t)) ∧
    (s.cap < s.inLen.toNat → ∃ t, exec .pfEnc s = .next t ∧ lengthError s t)

/-- R182: PF_DEC: Length on a length beyond CAP or odd, Symbol with the lowest index not found, else the substitution. -/
def Obligations.PfDecResult : Prop :=
  decode 0x41 = .ok .pfDec ∧ ∀ s : State,
    (s.inLen.toNat ≤ s.cap → s.inLen.toNat % 2 = 0 →
      ((∀ i, i < s.inLen.toNat → locate s.matrix (s.peek .ibuf i) ≠ none) → ∃ e t,
        pfSubst s.matrix (-1) 0 s.text = .ok e ∧ exec .pfDec s = .next t ∧ gaveText e s t ∧ t.outLen = s.inLen ∧
        keepsInputs s t ∧ keepsRegs [.inv] s t ∧ keepsBytes [.keybuf, .rks, .km] s t) ∧
      (∀ i, i < s.inLen.toNat → locate s.matrix (s.peek .ibuf i) = none →
        (∀ j, j < i → locate s.matrix (s.peek .ibuf j) ≠ none) → ∃ t,
        exec .pfDec s = .next t ∧ failed 3 (BitVec.ofNat 16 i) t ∧
        keepsInputs s t ∧ keepsRegs [.inv] s t ∧ keepsBytes [.keybuf, .rks, .km] s t)) ∧
    (s.cap < s.inLen.toNat ∨ s.inLen.toNat % 2 = 1 → ∃ t, exec .pfDec s = .next t ∧ lengthError s t)

/-- R178: `Locate` answers the first cell that holds the byte, and none exactly when no cell does. R179: with a built matrix,
what a digraph of two letters of the matrix at (r, c) and (r', c') becomes, case by case; with any matrix, the index reported
of a byte not located, the first one first. R180: a substituted text has the length of the text, each of its digraphs is the
substitution of the digraph in its place, and a failure reports the first digraph that fails. -/
def Obligations.DigraphRules : Prop :=
  (∀ (km : Text) (c : Byte), (locate km c = none ↔ c ∉ km) ∧
    (∀ r c', locate km c = some (r, c') → c' < 5 ∧ 5 * r + c' < km.length ∧ km.getD (5 * r + c') 0 = c ∧
      ∀ j, j < 5 * r + c' → km.getD j 0 ≠ c)) ∧
  (∀ (km : Text) (d : Int) (i r c r' c' : Nat), builtMatrix km → r < 5 → c < 5 → r' < 5 → c' < 5 →
    pfDigraph km d i (cell km r c) (cell km r' c') = .ok
      (if r = r' then (cell km r (floorMod (c + d) 5), cell km r (floorMod (c' + d) 5))
       else if c = c' then (cell km (floorMod (r + d) 5) c, cell km (floorMod (r' + d) 5) c)
       else (cell km r c', cell km r' c))) ∧
  (∀ (km : Text) (d : Int) (i : Nat) (a b : Byte),
    (a ∉ km → pfDigraph km d i a b = .error i) ∧ (a ∈ km → b ∉ km → pfDigraph km d i a b = .error (i + 1)) ∧
    (a ∈ km → b ∈ km → ∃ p, pfDigraph km d i a b = .ok p)) ∧
  (∀ (km : Text) (d : Int) (s : Text), s.length % 2 = 0 →
    (∀ e, pfSubst km d 0 s = .ok e → e.length = s.length ∧ ∀ k, 2 * k + 1 < s.length →
      pfDigraph km d (2 * k) (s.getD (2 * k) 0) (s.getD (2 * k + 1) 0) = .ok (e.getD (2 * k) 0, e.getD (2 * k + 1) 0)) ∧
    (∀ j, pfSubst km d 0 s = .error j → ∃ k, 2 * k + 1 < s.length ∧
      pfDigraph km d (2 * k) (s.getD (2 * k) 0) (s.getD (2 * k + 1) 0) = .error j ∧
      ∀ k', k' < k → ∃ p, pfDigraph km d (2 * k') (s.getD (2 * k') 0) (s.getD (2 * k' + 1) 0) = .ok p))

/-- R183: without a matrix no byte but 0 is located, and PF_DEC on zero bytes of even length gives zero bytes. -/
def Obligations.NoMatrixLocatesNothing : Prop :=
  (∀ c : Byte, c ≠ 0 → locate (zeros 25) c = none) ∧ locate (zeros 25) 0 = some (0, 0) ∧
  (∀ s : State, s.matrix = zeros 25 → s.inLen.toNat ≤ s.cap → s.inLen.toNat % 2 = 0 → s.text = zeros s.inLen.toNat →
    ∃ t, exec .pfDec s = .next t ∧ gaveText (zeros s.inLen.toNat) s t)

/-- R184: the Playfair round trip: substituting a preprocessed text and back gives it, and PF_ENC, moving back, PF_DEC under
the same matrix gives the preprocessed text. -/
def Obligations.PfRoundTrip : Prop :=
  (∀ km s e, builtMatrix km → pfForm s → pfSubst km 1 0 s = .ok e → pfSubst km (-1) 0 e = .ok s) ∧
  (∀ s t u : State, s.admissible → s.inLen.toNat ≤ s.cap → builtMatrix s.matrix → exec .pfEnc s = .next t →
    movedBack t u → (∀ a, u.peek .km a = s.peek .km a) →
    ∃ v, exec .pfDec u = .next v ∧ gaveText (pfPrep s.text) u v)

/-- R185, R186: distinct letters become distinct letters and equal ones equal letters; the ciphertext of a preprocessed
text has its length, only letters of the matrix, and decrypts without error; it is itself in preprocessed form when the text
has no digraph of equal letters (a digraph "XX" becomes another doubled letter, which R186 overlooks). -/
def Obligations.CiphertextIsDecryptable : Prop :=
  ∀ km : Text, builtMatrix km →
    (∀ (d : Int) (i : Nat) (a b x y : Byte), (d = 1 ∨ d = -1) → pfDigraph km d i a b = .ok (x, y) → (x = y ↔ a = b)) ∧
    (∀ s e, pfForm s → pfSubst km 1 0 s = .ok e →
      e.length = s.length ∧ (∀ c ∈ e, isUpper c = true ∧ c ≠ letterI) ∧ (∃ p, pfSubst km (-1) 0 e = .ok p) ∧
      ((∀ k, 2 * k + 1 < s.length → s.getD (2 * k) 0 ≠ s.getD (2 * k + 1) 0) → pfForm e))

/-! ### Feistel -/

/-- R201: the padding adds the fewest zero bytes that make the length a multiple of 8; it fits OBUF. -/
def Obligations.FeistelPadIsLeast : Prop :=
  ∀ t : Text, (∃ n, n < 8 ∧ feistelPad t = t ++ zeros n) ∧ (feistelPad t).length % 8 = 0 ∧
    (t.length % 8 = 0 → feistelPad t = t) ∧
    (∀ cap : Nat, cap % 8 = 0 → t.length ≤ cap → (feistelPad t).length ≤ cap)

/-- R204: FEISTEL_PAD. -/
def Obligations.FeistelPadResult : Prop :=
  decode 0x52 = .ok .feistelPad ∧ ∀ s : State, s.admissible →
    (s.inLen.toNat ≤ s.cap → ∃ t, exec .feistelPad s = .next t ∧
      gaveText (feistelPad s.text) s t ∧ t.outLen.toNat = (feistelPad s.text).length ∧ t.rbs = s.rbs ∧
      keepsInputs s t ∧ keepsRegs [.inv] s t ∧ keepsBytes [.keybuf, .rks, .km] s t) ∧
    (s.cap < s.inLen.toNat → ∃ t, exec .feistelPad s = .next t ∧ lengthError s t)

/-- R206, R242: FEISTEL_ENC: with the 32 key bytes k drawn, RKS holds k and OBUF the rounds of the padded text under k; a
short read is RbsShort with the count of all key bytes received; Length before the source is asked. -/
def Obligations.FeistelEncResult : Prop :=
  decode 0x50 = .ok .feistelEnc ∧ ∀ s : State, s.admissible →
    (s.inLen.toNat ≤ s.cap →
      (∀ k r, s.rbs.drawKeys 8 = .bytes k r → ∃ t, exec .feistelEnc s = .next t ∧
        gaveText (encRounds (feistelPad s.text) k) s t ∧ t.outLen.toNat = (feistelPad s.text).length ∧
        t.schedule = k ∧ t.rbs = r ∧
        keepsInputs s t ∧ keepsRegs [.inv] s t ∧ keepsBytes [.keybuf, .km] s t) ∧
      (∀ n r, s.rbs.drawKeys 8 = .short n r → ∃ t, exec .feistelEnc s = .next t ∧ failed 4 (BitVec.ofNat 16 n) t ∧
        n < 32 ∧ keepsInputs s t ∧ keepsRegs [.inv] s t ∧ keepsBytes [.keybuf, .km] s t)) ∧
    (s.cap < s.inLen.toNat → ∃ t, exec .feistelEnc s = .next t ∧ lengthError s t ∧ t.rbs = s.rbs)

/-- R207, R234, R261: the sequencer takes the source's bytes in delivery order, skips none, and counts all of them on a short
read. The deterministic source is the one of the directives (R106; the model's reading of them is log 6). -/
def Obligations.KeysDrawnInOrder : Prop :=
  ∀ r : Rbs,
    (r.limit = none → 32 ≤ r.named.length →
      r.drawKeys 8 = .bytes (r.named.take 32) { named := r.named.drop 32, limit := none, asked := r.asked + 8 }) ∧
    (∀ l, r.limit = some l → l < 32 → ∃ r', r.drawKeys 8 = .short l r')

/-- R209: FEISTEL_DEC. -/
def Obligations.FeistelDecResult : Prop :=
  decode 0x51 = .ok .feistelDec ∧ ∀ s : State,
    (s.inLen.toNat ≤ s.cap → s.inLen.toNat % 8 = 0 → ∃ t, exec .feistelDec s = .next t ∧
      gaveText (decRounds s.text s.schedule) s t ∧ t.outLen = s.inLen ∧ t.rbs = s.rbs ∧
      keepsInputs s t ∧ keepsRegs [.inv] s t ∧ keepsBytes [.keybuf, .rks, .km] s t) ∧
    (s.cap < s.inLen.toNat ∨ s.inLen.toNat % 8 ≠ 0 → ∃ t, exec .feistelDec s = .next t ∧ lengthError s t)

/-- R210: FEISTEL_ENC, moving back, FEISTEL_DEC with RKS untouched gives the padded text, whatever keys the source gave. -/
def Obligations.FeistelRoundTrip : Prop :=
  (∀ w S : Text, w.length % 8 = 0 → decRounds (encRounds w S) S = w ∧ encRounds (decRounds w S) S = w) ∧
  (∀ s t u : State, s.admissible → s.inLen.toNat ≤ s.cap → exec .feistelEnc s = .next t → t.done = true →
    movedBack t u → (∀ a, u.peek .rks a = t.peek .rks a) →
    ∃ v, exec .feistelDec u = .next v ∧ gaveText (feistelPad s.text) u v)

/-- R203, R205, R208: the round function is the product modulo 256 in each lane and XorHalf the exclusive-or in each lane,
for every half and key; one round each way in these terms, which undo each other. R202: a text of whole blocks is its blocks,
left half first, each half in index order. R205, R208, R37: with any blocks and the 32 bytes of eight keys, EncRounds sends
every block through the rounds of keys 0, 1, ... 7 and DecRounds through those of keys 7, 6, ... 0. R211: the all-zero
schedule is the identity both ways; a key (1,1,1,1) sends (L, R) to (R, L xor R). -/
def Obligations.SpecialSchedules : Prop :=
  (∀ h k : Half,
    (roundF h k).b0.toNat = h.b0.toNat * k.b0.toNat % 256 ∧ (roundF h k).b1.toNat = h.b1.toNat * k.b1.toNat % 256 ∧
    (roundF h k).b2.toNat = h.b2.toNat * k.b2.toNat % 256 ∧ (roundF h k).b3.toNat = h.b3.toNat * k.b3.toNat % 256 ∧
    (xorHalf h k).b0 = h.b0 ^^^ k.b0 ∧ (xorHalf h k).b1 = h.b1 ^^^ k.b1 ∧
    (xorHalf h k).b2 = h.b2 ^^^ k.b2 ∧ (xorHalf h k).b3 = h.b3 ^^^ k.b3) ∧
  (∀ (k : Half) (w : Block), encRound k w = ⟨w.right, xorHalf w.left (roundF w.right k)⟩ ∧
    decRound k w = ⟨xorHalf w.right (roundF w.left k), w.left⟩ ∧ decRound k (encRound k w) = w) ∧
  (∀ ws : List Block, ofBlocks ws = ws.flatMap (fun b =>
    [b.left.b0, b.left.b1, b.left.b2, b.left.b3, b.right.b0, b.right.b1, b.right.b2, b.right.b3])) ∧
  (∀ w : Text, w.length % 8 = 0 → ∃ ws, w = ofBlocks ws) ∧
  (∀ (ws : List Block) (k0 k1 k2 k3 k4 k5 k6 k7 : Half),
    encRounds (ofBlocks ws) ([k0, k1, k2, k3, k4, k5, k6, k7].flatMap (fun k => [k.b0, k.b1, k.b2, k.b3])) =
      ofBlocks (ws.map (fun b =>
        encRound k7 (encRound k6 (encRound k5 (encRound k4 (encRound k3 (encRound k2 (encRound k1 (encRound k0 b))))))))) ∧
    decRounds (ofBlocks ws) ([k0, k1, k2, k3, k4, k5, k6, k7].flatMap (fun k => [k.b0, k.b1, k.b2, k.b3])) =
      ofBlocks (ws.map (fun b =>
        decRound k0 (decRound k1 (decRound k2 (decRound k3 (decRound k4 (decRound k5 (decRound k6 (decRound k7 b)))))))))) ∧
  (∀ w : Text, w.length % 8 = 0 → encRounds w (zeros 32) = w ∧ decRounds w (zeros 32) = w) ∧
  (∀ w : Block, encRound ⟨0, 0, 0, 0⟩ w = ⟨w.right, w.left⟩ ∧
    encRound ⟨1, 1, 1, 1⟩ w = ⟨w.right, xorHalf w.left w.right⟩) ∧
  encRounds [0x41, 0x42, 0x43, 0x44, 0x45, 0x46, 0x47, 0x48] (List.replicate 32 1) =
    [0x04, 0x04, 0x04, 0x0C, 0x41, 0x42, 0x43, 0x44]

/-! ### Errors -/

/-- R232 (a), R242: every command but AFF_INV ends with Length, and with nothing else changed, when IN_LEN > CAP. -/
def Obligations.LengthErrorIsPrecise : Prop :=
  ∀ (i : Instr) (s : State), i ≠ .affInv → s.cap < s.inLen.toNat → ∃ t, exec i s = .next t ∧ lengthError s t ∧
    t.rbs = s.rbs ∧ t.script = s.script ∧ t.answers = s.answers

/-- R235: which command can end in which error. -/
def Obligations.ErrorsPerCommand : Prop :=
  ∀ (i : Instr) (s t : State), s.err = false → exec i s = .next t → t.err = true →
    i ≠ .affInv ∧
    (t.ecode = 2 ∨ (t.ecode = 3 ∧ (i = .pfEnc ∨ i = .pfDec)) ∨ (t.ecode = 4 ∧ (i = .otpKeygen ∨ i = .feistelEnc))) ∧
    (t.ecode = 2 → s.cap < s.inLen.toNat ∨ (i = .pfDec ∧ s.inLen.toNat % 2 = 1) ∨
      (i = .feistelDec ∧ s.inLen.toNat % 8 ≠ 0))

/-- R66, R33, R242: whatever way a command ends, IBUF and the operands are unchanged, and so are the memories and registers
outside the writes column of its row, with one exception: after OTP_KEYGEN's short read nothing is claimed of OBUF and OUT_LEN,
which R242 leaves unspecified (log 8). Of KEYBUF beyond IN_LEN under OTP_KEYGEN the statement OtpKeygenResult speaks. -/
def Obligations.EngineWritesOnlyItsRow : Prop :=
  ∀ (i : Instr) (s t : State), exec i s = .next t →
    keepsInputs s t ∧
    (i ≠ .affInv → i ≠ .affineDec → keepsRegs [.inv] s t) ∧
    (i = .affInv ∨ i = .pfKeymx → keepsRegs [.outLen] s t ∧ keepsBytes [.obuf] s t) ∧
    (i = .otpKeygen → t.done = true → keepsRegs [.outLen] s t ∧ keepsBytes [.obuf] s t) ∧
    (i ≠ .otpKeygen → keepsBytes [.keybuf] s t) ∧ (i ≠ .feistelEnc → keepsBytes [.rks] s t) ∧
    (i ≠ .pfKeymx → keepsBytes [.km] s t) ∧ (i ≠ .otpKeygen → i ≠ .feistelEnc → t.rbs = s.rbs)

/-- R33: the bytes of IBUF at and beyond IN_LEN have no influence on any command. -/
def Obligations.InputBeyondLengthIgnored : Prop :=
  ∀ (i : Instr) (s t : State) (m : Memory), (∀ a, a < s.inLen.toNat → m.read a = s.ibuf.read a) →
    exec i s = .next t → exec i { s with ibuf := m } = .next { t with ibuf := m }

/-! ### Host accesses, the fault state, irq and reset -/

/-- R22: a write to CMD accepts the low byte when BUSY = 0 and ERR = 0, and changes nothing otherwise; CMD reads OP, which is
0 after reset. -/
def Obligations.CmdWriteAccepts : Prop :=
  State.reset.readReg 0 = 0 ∧ ∀ (s : State) (v : Word), s.readReg 0 = s.op.setWidth 32 ∧
    (s.busy = false → s.err = false →
      (hostWriteReg 0 v s).op = v.setWidth 8 ∧ (hostWriteReg 0 v s).busy = true ∧ (hostWriteReg 0 v s).done = false ∧
      (hostWriteReg 0 v s).err = false ∧ (hostWriteReg 0 v s).ecode = s.ecode ∧
      (hostWriteReg 0 v s).readReg 0 = (v.setWidth 8).setWidth 32 ∧
      keepsRegs [.ctrl, .inLen, .outLen, .shift, .inv, .affA, .affB, .einfo, .capr] s (hostWriteReg 0 v s) ∧
      keepsBytes [.ibuf, .obuf, .keybuf, .rks, .km] s (hostWriteReg 0 v s)) ∧
    (s.busy = true ∨ s.err = true → hostWriteReg 0 v s = s)

/-- R64, R21, R26: what a host write to CTRL, IN_LEN or SHIFT does, and what is read back; CTRL may be written at any time,
IN_LEN and SHIFT while BUSY = 0; every number but these three and CMD's (CmdWriteAccepts) ignores the write. -/
def Obligations.RegisterWritesTruncate : Prop :=
  ∀ (s : State) (v : Word),
    ((hostWriteReg 2 v s).readReg 2 = v &&& 1 ∧
      keepsRegs [.cmd, .status, .inLen, .outLen, .shift, .inv, .affA, .affB, .einfo, .capr] s (hostWriteReg 2 v s) ∧
      keepsBytes [.ibuf, .obuf, .keybuf, .rks, .km] s (hostWriteReg 2 v s)) ∧
    (s.busy = false →
      (hostWriteReg 3 v s).readReg 3 = (v.setWidth 16).setWidth 32 ∧
      keepsRegs [.cmd, .status, .ctrl, .outLen, .shift, .inv, .affA, .affB, .einfo, .capr] s (hostWriteReg 3 v s) ∧
      keepsBytes [.ibuf, .obuf, .keybuf, .rks, .km] s (hostWriteReg 3 v s) ∧
      (hostWriteReg 5 v s).readReg 5 = v ∧
      keepsRegs [.cmd, .status, .ctrl, .inLen, .outLen, .inv, .affA, .affB, .einfo, .capr] s (hostWriteReg 5 v s) ∧
      keepsBytes [.ibuf, .obuf, .keybuf, .rks, .km] s (hostWriteReg 5 v s)) ∧
    (∀ n, n ≠ 0 → n ≠ 2 → n ≠ 3 → n ≠ 5 → hostWriteReg n v s = s)

/-- R29, R21: AFF_A, AFF_B and CAPR read as constants in every state and writes to them are ignored; unimplemented numbers read
as 0. -/
def Obligations.ConstantsReadAsWired : Prop :=
  ∀ s : State, s.readReg 7 = 11 ∧ s.readReg 8 = 19 ∧ s.readReg 10 = s.capr.setWidth 32 ∧
    (∀ v, hostWriteReg 7 v s = s ∧ hostWriteReg 8 v s = s ∧ hostWriteReg 10 v s = s) ∧ ∀ n, 11 ≤ n → s.readReg n = 0

/-- R65: host accesses to the memories while BUSY = 0. -/
def Obligations.BufferAccesses : Prop :=
  ∀ (s : State) (sp : Space) (i : Nat) (v : Word), s.busy = false →
    (i < s.size sp → s.readBuf sp i = s.peek sp i) ∧
    ((sp = .ibuf ∨ sp = .keybuf ∨ sp = .rks) → i < s.size sp →
      (hostWriteBuf sp i v s).peek sp i = v.setWidth 8 ∧
      (∀ sp' a, sp' ≠ sp ∨ a ≠ i → (hostWriteBuf sp i v s).peek sp' a = s.peek sp' a) ∧
      keepsRegs [.cmd, .status, .ctrl, .inLen, .outLen, .shift, .inv, .affA, .affB, .einfo, .capr] s
        (hostWriteBuf sp i v s)) ∧
    (sp = .obuf ∨ sp = .km ∨ s.size sp ≤ i → hostWriteBuf sp i v s = s)

/-- R63: a read changes no register, no flag and no memory; while BUSY = 0 it answers the register's value extended with zeros.
R23: the word STATUS in terms of its fields. -/
def Obligations.ReadsHaveNoSideEffect : Prop :=
  (∀ (s t : State) (n : Nat) (sp : Space) (i : Nat), (t = hostReadReg n s ∨ t = hostReadBuf sp i s) →
    keepsAll s t ∧ t.busy = s.busy ∧ t.done = s.done ∧ t.err = s.err ∧ t.ecode = s.ecode ∧ t.einfo = s.einfo ∧
      t.script = s.script ∧ t.rbs = s.rbs) ∧
  (∀ s : State, s.busy = false →
    s.readReg 0 = s.op.setWidth 32 ∧ s.readReg 1 = s.status.setWidth 32 ∧ s.readReg 2 = s.ctrl.setWidth 32 ∧
      s.readReg 3 = s.inLen.setWidth 32 ∧ s.readReg 4 = s.outLen.setWidth 32 ∧ s.readReg 5 = s.shift ∧
      s.readReg 6 = s.inv.setWidth 32 ∧ s.readReg 9 = s.einfo.setWidth 32) ∧
  (∀ s : State, s.status.toNat = 16 * s.ecode.toNat + 4 * s.err.toNat + 2 * s.done.toNat + s.busy.toNat)

/-- R76, R74: while BUSY a host write other than to CTRL changes nothing. -/
def Obligations.WritesWhileBusyIgnored : Prop :=
  ∀ s : State, s.busy = true →
    (∀ n v, n ≠ 2 → hostWriteReg n v s = s) ∧ (∀ sp i v, hostWriteBuf sp i v s = s)

/-- R75: while BUSY, reads of CMD, STATUS, CTRL, IN_LEN, SHIFT, the constants and IBUF answer the stored values, and so do
KEYBUF unless the command is OTP_KEYGEN and RKS unless it is FEISTEL_ENC. The clause about KM is not R75's, which does not list
KM: it rests on log 9 (DEDUCED), which follows 93_implementation_defined.md U8. Nothing is said of OBUF, OUT_LEN, INV and
EINFO. -/
def Obligations.BusyReadsOfStoredValues : Prop :=
  ∀ s : State, s.busy = true →
    (s.readReg 0 = s.op.setWidth 32 ∧ s.readReg 1 = s.status.setWidth 32 ∧ (s.readReg 1).getLsbD 0 = true ∧
      s.readReg 2 = s.ctrl.setWidth 32 ∧ s.readReg 3 = s.inLen.setWidth 32 ∧ s.readReg 5 = s.shift ∧
      s.readReg 7 = 11 ∧ s.readReg 8 = 19 ∧ s.readReg 10 = s.capr.setWidth 32) ∧
    (∀ i, i < s.cap → s.readBuf .ibuf i = s.peek .ibuf i) ∧
    (s.op ≠ 0x33 → ∀ i, i < s.cap → s.readBuf .keybuf i = s.peek .keybuf i) ∧
    (s.op ≠ 0x50 → ∀ i, i < Config.rksSize → s.readBuf .rks i = s.peek .rks i) ∧
    (s.op ≠ 0x43 → ∀ i, i < Config.kmSize → s.readBuf .km i = s.peek .km i)

/-- R241, R25, R77: from the fault state no step but reset clears ERR, ECODE or EINFO, and no command is accepted. -/
def Obligations.FaultStateIsSticky : Prop :=
  ∀ s t : State, s.err = true → s.busy = false → (∀ rest, s.script ≠ HostMove.rst :: rest) → step s = .next t →
    t.err = true ∧ t.ecode = s.ecode ∧ t.einfo = s.einfo ∧ t.busy = false ∧ t.done = s.done ∧ t.op = s.op

/-- R250, R251: irq is IE and (DONE or ERR); in a state of the invariant it is 0 while BUSY. -/
def Obligations.InterruptOutput : Prop :=
  ∀ s : State, (s.irq = true ↔ ((s.regValue .ctrl).getLsbD 0 = true ∧
      ((s.regValue .status).getLsbD 1 = true ∨ (s.regValue .status).getLsbD 2 = true))) ∧
    (s.flagsOk → s.busy = true → s.irq = false)

/-- R44: the state after reset. CAPR = 256 is the model's reference CAP (log 1). -/
def Obligations.ResetValues : Prop :=
  State.reset.readReg 0 = 0 ∧ State.reset.readReg 1 = 0 ∧ State.reset.readReg 2 = 0 ∧ State.reset.readReg 3 = 0 ∧
    State.reset.readReg 4 = 0 ∧ State.reset.readReg 5 = 0 ∧ State.reset.readReg 6 = 0 ∧ State.reset.readReg 7 = 11 ∧
    State.reset.readReg 8 = 19 ∧ State.reset.readReg 9 = 0 ∧ State.reset.readReg 10 = 256 ∧
    State.reset.irq = false ∧ ∀ sp i, i < State.reset.size sp → State.reset.readBuf sp i = 0

/-- R270, R44: rst at any moment gives every register and every byte its reset value and keeps the constants. -/
def Obligations.RstZeroises : Prop :=
  ∀ s : State, s.rst.op = 0 ∧ s.rst.status = 0 ∧ s.rst.ctrl = 0 ∧ s.rst.inLen = 0 ∧ s.rst.outLen = 0 ∧
    s.rst.shift = 0 ∧ s.rst.inv = 0 ∧ s.rst.einfo = 0 ∧ s.rst.irq = false ∧
    keepsRegs [.affA, .affB, .capr] s s.rst ∧ ∀ sp a, s.rst.peek sp a = 0

/-- R104: `mov` on a block that is not busy copies OBUF[0..OUT_LEN) to IBUF, sets IN_LEN, and changes nothing else. -/
def Obligations.MovCopiesOutputToInput : Prop :=
  ∀ s : State, s.busy = false → s.script = [.mov] → s.outLen.toNat ≤ s.cap →
    ∃ t, Host.Core.run Sys2Proof.core (2 * s.outLen.toNat + 2) s = .next t ∧ t.script = [] ∧ t.inLen = s.outLen ∧
      (∀ a, a < s.outLen.toNat → t.peek .ibuf a = s.peek .obuf a) ∧
      (∀ a, s.outLen.toNat ≤ a → t.peek .ibuf a = s.peek .ibuf a) ∧
      keepsRegs [.cmd, .status, .ctrl, .outLen, .shift, .inv, .affA, .affB, .einfo, .capr] s t ∧
      keepsBytes [.obuf, .keybuf, .rks, .km] s t

/-! ### Invariants -/

/-- The state after reset meets the invariant. -/
def Obligations.ResetMeetsInvariant : Prop := State.reset.Inv

/-- R23, R28, R39, R6: every step from a state of the invariant, reachable or not, leads to a state of the invariant. -/
def Obligations.StepKeepsInvariant : Prop :=
  ∀ s t : State, s.Inv → step s = .next t → t.Inv

/-- R38, R29, R33: over every step, KM changes only by the completion of PF_KEYMX or by rst, CAPR never. -/
def Obligations.MatrixWrittenOnlyByKeymx : Prop :=
  ∀ s t : State, step s = .next t → t.capr = s.capr ∧
    (¬(s.engineTurn = true ∧ s.op = 0x43) → (∀ rest, s.script ≠ HostMove.rst :: rest) → keepsBytes [.km] s t)
end

