-- ==== Sys2Proof/Laws/Memory.lean ====
section
/-! SUPPORT. Byte memories: what a read answers after each operation, and that every operation keeps the canonical form and
the range of listed indices. -/

namespace Sys2Proof.Machine

/-! ### Reads -/

@[simp] theorem Memory.read_nil (a : Nat) : Memory.read [] a = unlistedByte := rfl

theorem Memory.read_cons (k : Nat) (v : Byte) (m : Memory) (a : Nat) :
    Memory.read ((k, v) :: m) a = if k = a then v else m.read a := rfl

/-- An index below every listed one is unlisted. -/
theorem Memory.read_of_lt_all {m : Memory} {a : Nat} (h : ∀ c ∈ m, a < c.1) : m.read a = unlistedByte := by
  induction m with
  | nil => rfl
  | cons c m ih =>
    obtain ⟨k, v⟩ := c
    have hk : a < k := h (k, v) (by simp)
    rw [Memory.read_cons, if_neg (by omega)]
    exact ih fun c hc => h c (by simp [hc])

/-- An index beyond every listed one is unlisted. -/
theorem Memory.read_of_below {n : Nat} {m : Memory} {a : Nat} (h : m.below n) (ha : n ≤ a) : m.read a = unlistedByte := by
  induction m with
  | nil => rfl
  | cons c m ih =>
    obtain ⟨k, v⟩ := c
    have hk : k < n := h (k, v) (by simp)
    rw [Memory.read_cons, if_neg (by omega)]
    exact ih fun c hc => h c (by simp [hc])

/-! ### Canonical form -/

theorem Memory.wf_nil : Memory.wf [] := by simp [Memory.wf]

/-- The memories of the reset state have the canonical form. -/
theorem State.reset_wf : State.reset.ibuf.wf ∧ State.reset.obuf.wf ∧ State.reset.keybuf.wf ∧ State.reset.rks.wf ∧
    State.reset.km.wf :=
  ⟨Memory.wf_nil, Memory.wf_nil, Memory.wf_nil, Memory.wf_nil, Memory.wf_nil⟩

theorem Memory.wf_cons {k : Nat} {v : Byte} {m : Memory} :
    Memory.wf ((k, v) :: m) ↔ (∀ c ∈ m, k < c.1) ∧ v ≠ unlistedByte ∧ m.wf := by
  simp only [Memory.wf, List.pairwise_cons, List.mem_cons, forall_eq_or_imp]
  tauto

theorem Memory.mem_erase {m : Memory} {a : Nat} {c : Host.Cell} (h : c ∈ m.erase a) : c ∈ m := by
  induction m with
  | nil => exact h
  | cons d m ih =>
    obtain ⟨k, v⟩ := d
    simp only [Memory.erase] at h
    split at h
    · exact List.mem_cons_of_mem _ (ih h)
    · rcases List.mem_cons.1 h with h | h
      · exact h ▸ List.mem_cons_self
      · exact List.mem_cons_of_mem _ (ih h)

theorem Memory.mem_insert {m : Memory} {a : Nat} {v : Byte} {c : Host.Cell} (h : c ∈ m.insert a v) :
    c = (a, v) ∨ c ∈ m := by
  induction m with
  | nil => simpa [Memory.insert] using h
  | cons d m ih =>
    obtain ⟨k, w⟩ := d
    simp only [Memory.insert] at h
    split at h
    · simpa using h
    · split at h
      · rcases List.mem_cons.1 h with h | h
        · exact .inl h
        · exact .inr (List.mem_cons_of_mem _ h)
      · rcases List.mem_cons.1 h with h | h
        · exact .inr (h ▸ List.mem_cons_self)
        · rcases ih h with h | h
          · exact .inl h
          · exact .inr (List.mem_cons_of_mem _ h)

theorem Memory.wf_erase {m : Memory} (h : m.wf) (a : Nat) : (m.erase a).wf := by
  induction m with
  | nil => exact h
  | cons d m ih =>
    obtain ⟨k, v⟩ := d
    obtain ⟨h₁, h₂, h₃⟩ := Memory.wf_cons.1 h
    simp only [Memory.erase]
    split
    · exact ih h₃
    · exact Memory.wf_cons.2 ⟨fun c hc => h₁ c (Memory.mem_erase hc), h₂, ih h₃⟩

theorem Memory.wf_insert {m : Memory} (h : m.wf) (a : Nat) {v : Byte} (hv : v ≠ unlistedByte) : (m.insert a v).wf := by
  induction m with
  | nil => exact Memory.wf_cons.2 ⟨by simp, hv, h⟩
  | cons d m ih =>
    obtain ⟨k, w⟩ := d
    obtain ⟨h₁, h₂, h₃⟩ := Memory.wf_cons.1 h
    simp only [Memory.insert]
    split
    · rename_i hlt
      refine Memory.wf_cons.2 ⟨?_, hv, h⟩
      intro c hc
      rcases List.mem_cons.1 hc with hc | hc
      · subst hc; exact hlt
      · have := h₁ c hc; omega
    · split
      · rename_i heq
        subst heq
        exact Memory.wf_cons.2 ⟨h₁, hv, h₃⟩
      · refine Memory.wf_cons.2 ⟨?_, h₂, ih h₃⟩
        intro c hc
        rcases Memory.mem_insert hc with hc | hc
        · subst hc; simp only; omega
        · exact h₁ c hc

theorem Memory.wf_write {m : Memory} (h : m.wf) (a : Nat) (v : Byte) : (m.write a v).wf := by
  unfold Memory.write
  split
  · exact Memory.wf_erase h a
  · exact Memory.wf_insert h a ‹_›

theorem Memory.wf_writeText {m : Memory} (h : m.wf) (a : Nat) (t : Text) : (m.writeText a t).wf := by
  induction t generalizing m a with
  | nil => exact h
  | cons v t ih => exact ih (Memory.wf_write h a v) (a + 1)

theorem Memory.le_of_mem_cellsFrom {a : Nat} {t : Text} {c : Host.Cell} (h : c ∈ Memory.cellsFrom a t) :
    a ≤ c.1 ∧ c.1 < a + t.length ∧ c.2 ≠ unlistedByte := by
  induction t generalizing a with
  | nil => simp [Memory.cellsFrom] at h
  | cons v t ih =>
    simp only [Memory.cellsFrom] at h
    simp only [List.length_cons]
    split at h
    · obtain ⟨h₁, h₂, h₃⟩ := ih h
      exact ⟨by omega, by omega, h₃⟩
    · rcases List.mem_cons.1 h with h | h
      · subst h
        exact ⟨Nat.le_refl a, by simp only; omega, ‹_›⟩
      · obtain ⟨h₁, h₂, h₃⟩ := ih h
        exact ⟨by omega, by omega, h₃⟩

theorem Memory.wf_cellsFrom (a : Nat) (t : Text) : (Memory.cellsFrom a t).wf := by
  induction t generalizing a with
  | nil => exact Memory.wf_nil
  | cons v t ih =>
    simp only [Memory.cellsFrom]
    split
    · exact ih _
    · exact Memory.wf_cons.2 ⟨fun c hc => by have := Memory.le_of_mem_cellsFrom hc; omega, ‹_›, ih _⟩

theorem Memory.wf_ofText (t : Text) : (Memory.ofText t).wf := Memory.wf_cellsFrom 0 t

/-! ### Range of the listed indices -/

theorem Memory.below_write {n : Nat} {m : Memory} (h : m.below n) {a : Nat} (ha : a < n) (v : Byte) :
    (m.write a v).below n := by
  intro c hc
  unfold Memory.write at hc
  split at hc
  · exact h c (Memory.mem_erase hc)
  · rcases Memory.mem_insert hc with hc | hc
    · subst hc; exact ha
    · exact h c hc

theorem Memory.below_writeText {n : Nat} {m : Memory} (h : m.below n) {a : Nat} {t : Text} (ha : a + t.length ≤ n) :
    (m.writeText a t).below n := by
  induction t generalizing m a with
  | nil => exact h
  | cons v t ih =>
    simp only [List.length_cons] at ha
    exact ih (Memory.below_write h (by omega) v) (by omega)

theorem Memory.below_ofText {n : Nat} {t : Text} (h : t.length ≤ n) : (Memory.ofText t).below n := by
  intro c hc
  have := Memory.le_of_mem_cellsFrom hc
  omega

/-! ### Reads after writes -/

theorem Memory.read_erase (m : Memory) (a b : Nat) :
    (m.erase a).read b = if b = a then unlistedByte else m.read b := by
  induction m with
  | nil => simp [Memory.erase]
  | cons d m ih =>
    obtain ⟨k, v⟩ := d
    simp only [Memory.erase]
    split
    · rw [ih, Memory.read_cons]
      split_ifs <;> first | rfl | omega
    · rw [Memory.read_cons, Memory.read_cons, ih]
      split_ifs <;> first | rfl | omega

theorem Memory.read_insert (m : Memory) (a : Nat) (v : Byte) (b : Nat) :
    (m.insert a v).read b = if b = a then v else m.read b := by
  induction m with
  | nil => simp only [Memory.insert, Memory.read_cons, Memory.read_nil]; split_ifs <;> simp_all
  | cons d m ih =>
    obtain ⟨k, w⟩ := d
    simp only [Memory.insert]
    split
    · simp only [Memory.read_cons, eq_comm (a := a)]
    · split
      · subst_vars
        simp only [Memory.read_cons, eq_comm (a := b)]
        split_ifs <;> rfl
      · simp only [Memory.read_cons, ih]
        split_ifs <;> first | rfl | omega

/-- A read after a write answers the written byte at its index and the old byte everywhere else. -/
theorem Memory.read_write (m : Memory) (a : Nat) (v : Byte) (b : Nat) :
    (m.write a v).read b = if b = a then v else m.read b := by
  unfold Memory.write
  split
  · rw [Memory.read_erase]; split_ifs <;> simp_all
  · rw [Memory.read_insert]

/-- A read after writing a text answers the text's byte inside it and the old byte outside. -/
theorem Memory.read_writeText (m : Memory) (a : Nat) (t : Text) (b : Nat) :
    (m.writeText a t).read b = if a ≤ b ∧ b < a + t.length then t.getD (b - a) 0 else m.read b := by
  induction t generalizing m a with
  | nil => rw [if_neg (by simp only [List.length_nil]; omega)]; rfl
  | cons v t ih =>
    rw [Memory.writeText, ih, Memory.read_write]
    by_cases hb : b = a
    · subst hb; simp
    · simp only [if_neg hb, List.length_cons]
      by_cases hr : a + 1 ≤ b ∧ b < a + 1 + t.length
      · rw [if_pos hr, if_pos (by omega)]
        obtain ⟨j, hj⟩ : ∃ j, b - a = j + 1 := ⟨b - a - 1, by omega⟩
        rw [hj, show b - (a + 1) = j by omega, List.getD_cons_succ]
      · rw [if_neg hr, if_neg (by omega)]

theorem Memory.read_cellsFrom (a : Nat) (t : Text) (b : Nat) :
    (Memory.cellsFrom a t).read b = if a ≤ b ∧ b < a + t.length then t.getD (b - a) 0 else unlistedByte := by
  induction t generalizing a with
  | nil => simp [Memory.cellsFrom]
  | cons v t ih =>
    have hstep : ∀ hb : b ≠ a, (Memory.cellsFrom (a + 1) t).read b =
        if a ≤ b ∧ b < a + (v :: t).length then (v :: t).getD (b - a) 0 else unlistedByte := by
      intro hb
      rw [ih, List.length_cons]
      by_cases hr : a + 1 ≤ b ∧ b < a + 1 + t.length
      · rw [if_pos hr, if_pos (by omega)]
        obtain ⟨j, hj⟩ : ∃ j, b - a = j + 1 := ⟨b - a - 1, by omega⟩
        rw [hj, show b - (a + 1) = j by omega, List.getD_cons_succ]
      · rw [if_neg hr, if_neg (by omega)]
    simp only [Memory.cellsFrom]
    split
    · by_cases hb : b = a
      · subst hb
        rw [Memory.read_of_lt_all fun c hc => by have := Memory.le_of_mem_cellsFrom hc; omega]
        simp_all
      · exact hstep hb
    · rw [Memory.read_cons]
      by_cases hb : b = a
      · subst hb; simp
      · rw [if_neg (Ne.symm hb)]; exact hstep hb

/-- A memory built from a text reads as the text, and as an unlisted index beyond it. -/
theorem Memory.read_ofText (t : Text) (b : Nat) : (Memory.ofText t).read b = t.getD b 0 := by
  rw [Memory.ofText, Memory.read_cellsFrom]
  by_cases hb : b < t.length
  · rw [if_pos (by omega)]; rfl
  · rw [if_neg (by omega), List.getD_eq_default _ _ (by omega)]; rfl

/-! ### Texts held in a memory -/

/-- The text read out of a range that holds it. -/
theorem map_range_eq {f : Nat → Byte} {t : Text} (h : ∀ i, i < t.length → f i = t.getD i 0) :
    (List.range t.length).map f = t := by
  apply List.ext_getElem
  · simp
  · intro i h₁ h₂
    simp only [List.getElem_map, List.getElem_range]
    rw [h i h₂]
    simp [h₂]

theorem map_range_congr {f g : Nat → Byte} {n : Nat} (h : ∀ i, i < n → f i = g i) :
    (List.range n).map f = (List.range n).map g :=
  List.map_congr_left fun i hi => h i (List.mem_range.1 hi)

end Sys2Proof.Machine
end

