-- ==== Sys2Proof/Laws/State.lean ====
section
/-! SUPPORT. One lemma per field of the state and per named update, and one for CAP, true by unfolding the update once, so that no proof
unfolds a record update. -/

namespace Sys2Proof.Machine

/-! ### Output text -/

@[simp] theorem State.setOutput_op (t : Text) (s : State) : (s.setOutput t).op = s.op := rfl
@[simp] theorem State.setOutput_busy (t : Text) (s : State) : (s.setOutput t).busy = s.busy := rfl
@[simp] theorem State.setOutput_done (t : Text) (s : State) : (s.setOutput t).done = s.done := rfl
@[simp] theorem State.setOutput_err (t : Text) (s : State) : (s.setOutput t).err = s.err := rfl
@[simp] theorem State.setOutput_ecode (t : Text) (s : State) : (s.setOutput t).ecode = s.ecode := rfl
@[simp] theorem State.setOutput_ie (t : Text) (s : State) : (s.setOutput t).ie = s.ie := rfl
@[simp] theorem State.setOutput_inLen (t : Text) (s : State) : (s.setOutput t).inLen = s.inLen := rfl
@[simp] theorem State.setOutput_outLen (t : Text) (s : State) : (s.setOutput t).outLen = BitVec.ofNat 16 t.length := rfl
@[simp] theorem State.setOutput_shift (t : Text) (s : State) : (s.setOutput t).shift = s.shift := rfl
@[simp] theorem State.setOutput_inv (t : Text) (s : State) : (s.setOutput t).inv = s.inv := rfl
@[simp] theorem State.setOutput_einfo (t : Text) (s : State) : (s.setOutput t).einfo = s.einfo := rfl
@[simp] theorem State.setOutput_capr (t : Text) (s : State) : (s.setOutput t).capr = s.capr := rfl
@[simp] theorem State.setOutput_ibuf (t : Text) (s : State) : (s.setOutput t).ibuf = s.ibuf := rfl
@[simp] theorem State.setOutput_obuf (t : Text) (s : State) : (s.setOutput t).obuf = Memory.ofText t := rfl
@[simp] theorem State.setOutput_keybuf (t : Text) (s : State) : (s.setOutput t).keybuf = s.keybuf := rfl
@[simp] theorem State.setOutput_rks (t : Text) (s : State) : (s.setOutput t).rks = s.rks := rfl
@[simp] theorem State.setOutput_km (t : Text) (s : State) : (s.setOutput t).km = s.km := rfl
@[simp] theorem State.setOutput_obufJunk (t : Text) (s : State) : (s.setOutput t).obufJunk = some { start := t.length, draw := s.tick } := rfl
@[simp] theorem State.setOutput_rbs (t : Text) (s : State) : (s.setOutput t).rbs = s.rbs := rfl
@[simp] theorem State.setOutput_script (t : Text) (s : State) : (s.setOutput t).script = s.script := rfl
@[simp] theorem State.setOutput_answers (t : Text) (s : State) : (s.setOutput t).answers = s.answers := rfl
@[simp] theorem State.setOutput_delay (t : Text) (s : State) : (s.setOutput t).delay = s.delay := rfl
@[simp] theorem State.setOutput_tick (t : Text) (s : State) : (s.setOutput t).tick = s.tick + 1 := rfl
@[simp] theorem State.setOutput_cap (t : Text) (s : State) : (s.setOutput t).cap = s.cap := rfl

/-! ### Completion -/

@[simp] theorem State.complete_op (s : State) : (s.complete).op = s.op := rfl
@[simp] theorem State.complete_busy (s : State) : (s.complete).busy = false := rfl
@[simp] theorem State.complete_done (s : State) : (s.complete).done = true := rfl
@[simp] theorem State.complete_err (s : State) : (s.complete).err = s.err := rfl
@[simp] theorem State.complete_ecode (s : State) : (s.complete).ecode = s.ecode := rfl
@[simp] theorem State.complete_ie (s : State) : (s.complete).ie = s.ie := rfl
@[simp] theorem State.complete_inLen (s : State) : (s.complete).inLen = s.inLen := rfl
@[simp] theorem State.complete_outLen (s : State) : (s.complete).outLen = s.outLen := rfl
@[simp] theorem State.complete_shift (s : State) : (s.complete).shift = s.shift := rfl
@[simp] theorem State.complete_inv (s : State) : (s.complete).inv = s.inv := rfl
@[simp] theorem State.complete_einfo (s : State) : (s.complete).einfo = s.einfo := rfl
@[simp] theorem State.complete_capr (s : State) : (s.complete).capr = s.capr := rfl
@[simp] theorem State.complete_ibuf (s : State) : (s.complete).ibuf = s.ibuf := rfl
@[simp] theorem State.complete_obuf (s : State) : (s.complete).obuf = s.obuf := rfl
@[simp] theorem State.complete_keybuf (s : State) : (s.complete).keybuf = s.keybuf := rfl
@[simp] theorem State.complete_rks (s : State) : (s.complete).rks = s.rks := rfl
@[simp] theorem State.complete_km (s : State) : (s.complete).km = s.km := rfl
@[simp] theorem State.complete_obufJunk (s : State) : (s.complete).obufJunk = s.obufJunk := rfl
@[simp] theorem State.complete_rbs (s : State) : (s.complete).rbs = s.rbs := rfl
@[simp] theorem State.complete_script (s : State) : (s.complete).script = s.script := rfl
@[simp] theorem State.complete_answers (s : State) : (s.complete).answers = s.answers := rfl
@[simp] theorem State.complete_delay (s : State) : (s.complete).delay = 0 := rfl
@[simp] theorem State.complete_tick (s : State) : (s.complete).tick = s.tick := rfl
@[simp] theorem State.complete_cap (s : State) : (s.complete).cap = s.cap := rfl

/-! ### The error step -/

@[simp] theorem State.raise_op (e : Err) (s : State) : (s.raise e).op = s.op := rfl
@[simp] theorem State.raise_busy (e : Err) (s : State) : (s.raise e).busy = false := rfl
@[simp] theorem State.raise_done (e : Err) (s : State) : (s.raise e).done = false := rfl
@[simp] theorem State.raise_err (e : Err) (s : State) : (s.raise e).err = true := rfl
@[simp] theorem State.raise_ecode (e : Err) (s : State) : (s.raise e).ecode = e.code := rfl
@[simp] theorem State.raise_ie (e : Err) (s : State) : (s.raise e).ie = s.ie := rfl
@[simp] theorem State.raise_inLen (e : Err) (s : State) : (s.raise e).inLen = s.inLen := rfl
@[simp] theorem State.raise_outLen (e : Err) (s : State) : (s.raise e).outLen = if e.precise then s.outLen else Config.freeHalf s.tick := rfl
@[simp] theorem State.raise_shift (e : Err) (s : State) : (s.raise e).shift = s.shift := rfl
@[simp] theorem State.raise_inv (e : Err) (s : State) : (s.raise e).inv = s.inv := rfl
@[simp] theorem State.raise_einfo (e : Err) (s : State) : (s.raise e).einfo = e.info := rfl
@[simp] theorem State.raise_capr (e : Err) (s : State) : (s.raise e).capr = s.capr := rfl
@[simp] theorem State.raise_ibuf (e : Err) (s : State) : (s.raise e).ibuf = s.ibuf := rfl
@[simp] theorem State.raise_obuf (e : Err) (s : State) : (s.raise e).obuf = if e.precise then s.obuf else [] := rfl
@[simp] theorem State.raise_keybuf (e : Err) (s : State) : (s.raise e).keybuf = s.keybuf := rfl
@[simp] theorem State.raise_rks (e : Err) (s : State) : (s.raise e).rks = s.rks := rfl
@[simp] theorem State.raise_km (e : Err) (s : State) : (s.raise e).km = s.km := rfl
@[simp] theorem State.raise_obufJunk (e : Err) (s : State) : (s.raise e).obufJunk = if e.precise then s.obufJunk else some { start := 0, draw := s.tick } := rfl
@[simp] theorem State.raise_rbs (e : Err) (s : State) : (s.raise e).rbs = s.rbs := rfl
@[simp] theorem State.raise_script (e : Err) (s : State) : (s.raise e).script = s.script := rfl
@[simp] theorem State.raise_answers (e : Err) (s : State) : (s.raise e).answers = s.answers := rfl
@[simp] theorem State.raise_delay (e : Err) (s : State) : (s.raise e).delay = 0 := rfl
@[simp] theorem State.raise_tick (e : Err) (s : State) : (s.raise e).tick = if e.precise then s.tick else s.tick + 1 := rfl
@[simp] theorem State.raise_cap (e : Err) (s : State) : (s.raise e).cap = s.cap := rfl

/-! ### INV -/

@[simp] theorem State.setInv_op (i : Nat) (s : State) : (s.setInv i).op = s.op := rfl
@[simp] theorem State.setInv_busy (i : Nat) (s : State) : (s.setInv i).busy = s.busy := rfl
@[simp] theorem State.setInv_done (i : Nat) (s : State) : (s.setInv i).done = s.done := rfl
@[simp] theorem State.setInv_err (i : Nat) (s : State) : (s.setInv i).err = s.err := rfl
@[simp] theorem State.setInv_ecode (i : Nat) (s : State) : (s.setInv i).ecode = s.ecode := rfl
@[simp] theorem State.setInv_ie (i : Nat) (s : State) : (s.setInv i).ie = s.ie := rfl
@[simp] theorem State.setInv_inLen (i : Nat) (s : State) : (s.setInv i).inLen = s.inLen := rfl
@[simp] theorem State.setInv_outLen (i : Nat) (s : State) : (s.setInv i).outLen = s.outLen := rfl
@[simp] theorem State.setInv_shift (i : Nat) (s : State) : (s.setInv i).shift = s.shift := rfl
@[simp] theorem State.setInv_inv (i : Nat) (s : State) : (s.setInv i).inv = BitVec.ofNat 8 i := rfl
@[simp] theorem State.setInv_einfo (i : Nat) (s : State) : (s.setInv i).einfo = s.einfo := rfl
@[simp] theorem State.setInv_capr (i : Nat) (s : State) : (s.setInv i).capr = s.capr := rfl
@[simp] theorem State.setInv_ibuf (i : Nat) (s : State) : (s.setInv i).ibuf = s.ibuf := rfl
@[simp] theorem State.setInv_obuf (i : Nat) (s : State) : (s.setInv i).obuf = s.obuf := rfl
@[simp] theorem State.setInv_keybuf (i : Nat) (s : State) : (s.setInv i).keybuf = s.keybuf := rfl
@[simp] theorem State.setInv_rks (i : Nat) (s : State) : (s.setInv i).rks = s.rks := rfl
@[simp] theorem State.setInv_km (i : Nat) (s : State) : (s.setInv i).km = s.km := rfl
@[simp] theorem State.setInv_obufJunk (i : Nat) (s : State) : (s.setInv i).obufJunk = s.obufJunk := rfl
@[simp] theorem State.setInv_rbs (i : Nat) (s : State) : (s.setInv i).rbs = s.rbs := rfl
@[simp] theorem State.setInv_script (i : Nat) (s : State) : (s.setInv i).script = s.script := rfl
@[simp] theorem State.setInv_answers (i : Nat) (s : State) : (s.setInv i).answers = s.answers := rfl
@[simp] theorem State.setInv_delay (i : Nat) (s : State) : (s.setInv i).delay = s.delay := rfl
@[simp] theorem State.setInv_tick (i : Nat) (s : State) : (s.setInv i).tick = s.tick := rfl
@[simp] theorem State.setInv_cap (i : Nat) (s : State) : (s.setInv i).cap = s.cap := rfl

/-! ### KM -/

@[simp] theorem State.setMatrix_op (g : Text) (s : State) : (s.setMatrix g).op = s.op := rfl
@[simp] theorem State.setMatrix_busy (g : Text) (s : State) : (s.setMatrix g).busy = s.busy := rfl
@[simp] theorem State.setMatrix_done (g : Text) (s : State) : (s.setMatrix g).done = s.done := rfl
@[simp] theorem State.setMatrix_err (g : Text) (s : State) : (s.setMatrix g).err = s.err := rfl
@[simp] theorem State.setMatrix_ecode (g : Text) (s : State) : (s.setMatrix g).ecode = s.ecode := rfl
@[simp] theorem State.setMatrix_ie (g : Text) (s : State) : (s.setMatrix g).ie = s.ie := rfl
@[simp] theorem State.setMatrix_inLen (g : Text) (s : State) : (s.setMatrix g).inLen = s.inLen := rfl
@[simp] theorem State.setMatrix_outLen (g : Text) (s : State) : (s.setMatrix g).outLen = s.outLen := rfl
@[simp] theorem State.setMatrix_shift (g : Text) (s : State) : (s.setMatrix g).shift = s.shift := rfl
@[simp] theorem State.setMatrix_inv (g : Text) (s : State) : (s.setMatrix g).inv = s.inv := rfl
@[simp] theorem State.setMatrix_einfo (g : Text) (s : State) : (s.setMatrix g).einfo = s.einfo := rfl
@[simp] theorem State.setMatrix_capr (g : Text) (s : State) : (s.setMatrix g).capr = s.capr := rfl
@[simp] theorem State.setMatrix_ibuf (g : Text) (s : State) : (s.setMatrix g).ibuf = s.ibuf := rfl
@[simp] theorem State.setMatrix_obuf (g : Text) (s : State) : (s.setMatrix g).obuf = s.obuf := rfl
@[simp] theorem State.setMatrix_keybuf (g : Text) (s : State) : (s.setMatrix g).keybuf = s.keybuf := rfl
@[simp] theorem State.setMatrix_rks (g : Text) (s : State) : (s.setMatrix g).rks = s.rks := rfl
@[simp] theorem State.setMatrix_km (g : Text) (s : State) : (s.setMatrix g).km = Memory.ofText g := rfl
@[simp] theorem State.setMatrix_obufJunk (g : Text) (s : State) : (s.setMatrix g).obufJunk = s.obufJunk := rfl
@[simp] theorem State.setMatrix_rbs (g : Text) (s : State) : (s.setMatrix g).rbs = s.rbs := rfl
@[simp] theorem State.setMatrix_script (g : Text) (s : State) : (s.setMatrix g).script = s.script := rfl
@[simp] theorem State.setMatrix_answers (g : Text) (s : State) : (s.setMatrix g).answers = s.answers := rfl
@[simp] theorem State.setMatrix_delay (g : Text) (s : State) : (s.setMatrix g).delay = s.delay := rfl
@[simp] theorem State.setMatrix_tick (g : Text) (s : State) : (s.setMatrix g).tick = s.tick := rfl
@[simp] theorem State.setMatrix_cap (g : Text) (s : State) : (s.setMatrix g).cap = s.cap := rfl

/-! ### KEYBUF -/

@[simp] theorem State.setKey_op (k : Text) (s : State) : (s.setKey k).op = s.op := rfl
@[simp] theorem State.setKey_busy (k : Text) (s : State) : (s.setKey k).busy = s.busy := rfl
@[simp] theorem State.setKey_done (k : Text) (s : State) : (s.setKey k).done = s.done := rfl
@[simp] theorem State.setKey_err (k : Text) (s : State) : (s.setKey k).err = s.err := rfl
@[simp] theorem State.setKey_ecode (k : Text) (s : State) : (s.setKey k).ecode = s.ecode := rfl
@[simp] theorem State.setKey_ie (k : Text) (s : State) : (s.setKey k).ie = s.ie := rfl
@[simp] theorem State.setKey_inLen (k : Text) (s : State) : (s.setKey k).inLen = s.inLen := rfl
@[simp] theorem State.setKey_outLen (k : Text) (s : State) : (s.setKey k).outLen = s.outLen := rfl
@[simp] theorem State.setKey_shift (k : Text) (s : State) : (s.setKey k).shift = s.shift := rfl
@[simp] theorem State.setKey_inv (k : Text) (s : State) : (s.setKey k).inv = s.inv := rfl
@[simp] theorem State.setKey_einfo (k : Text) (s : State) : (s.setKey k).einfo = s.einfo := rfl
@[simp] theorem State.setKey_capr (k : Text) (s : State) : (s.setKey k).capr = s.capr := rfl
@[simp] theorem State.setKey_ibuf (k : Text) (s : State) : (s.setKey k).ibuf = s.ibuf := rfl
@[simp] theorem State.setKey_obuf (k : Text) (s : State) : (s.setKey k).obuf = s.obuf := rfl
@[simp] theorem State.setKey_keybuf (k : Text) (s : State) : (s.setKey k).keybuf = s.keybuf.writeText 0 k := rfl
@[simp] theorem State.setKey_rks (k : Text) (s : State) : (s.setKey k).rks = s.rks := rfl
@[simp] theorem State.setKey_km (k : Text) (s : State) : (s.setKey k).km = s.km := rfl
@[simp] theorem State.setKey_obufJunk (k : Text) (s : State) : (s.setKey k).obufJunk = s.obufJunk := rfl
@[simp] theorem State.setKey_rbs (k : Text) (s : State) : (s.setKey k).rbs = s.rbs := rfl
@[simp] theorem State.setKey_script (k : Text) (s : State) : (s.setKey k).script = s.script := rfl
@[simp] theorem State.setKey_answers (k : Text) (s : State) : (s.setKey k).answers = s.answers := rfl
@[simp] theorem State.setKey_delay (k : Text) (s : State) : (s.setKey k).delay = s.delay := rfl
@[simp] theorem State.setKey_tick (k : Text) (s : State) : (s.setKey k).tick = s.tick := rfl
@[simp] theorem State.setKey_cap (k : Text) (s : State) : (s.setKey k).cap = s.cap := rfl

/-! ### RKS -/

@[simp] theorem State.setSchedule_op (k : Text) (s : State) : (s.setSchedule k).op = s.op := rfl
@[simp] theorem State.setSchedule_busy (k : Text) (s : State) : (s.setSchedule k).busy = s.busy := rfl
@[simp] theorem State.setSchedule_done (k : Text) (s : State) : (s.setSchedule k).done = s.done := rfl
@[simp] theorem State.setSchedule_err (k : Text) (s : State) : (s.setSchedule k).err = s.err := rfl
@[simp] theorem State.setSchedule_ecode (k : Text) (s : State) : (s.setSchedule k).ecode = s.ecode := rfl
@[simp] theorem State.setSchedule_ie (k : Text) (s : State) : (s.setSchedule k).ie = s.ie := rfl
@[simp] theorem State.setSchedule_inLen (k : Text) (s : State) : (s.setSchedule k).inLen = s.inLen := rfl
@[simp] theorem State.setSchedule_outLen (k : Text) (s : State) : (s.setSchedule k).outLen = s.outLen := rfl
@[simp] theorem State.setSchedule_shift (k : Text) (s : State) : (s.setSchedule k).shift = s.shift := rfl
@[simp] theorem State.setSchedule_inv (k : Text) (s : State) : (s.setSchedule k).inv = s.inv := rfl
@[simp] theorem State.setSchedule_einfo (k : Text) (s : State) : (s.setSchedule k).einfo = s.einfo := rfl
@[simp] theorem State.setSchedule_capr (k : Text) (s : State) : (s.setSchedule k).capr = s.capr := rfl
@[simp] theorem State.setSchedule_ibuf (k : Text) (s : State) : (s.setSchedule k).ibuf = s.ibuf := rfl
@[simp] theorem State.setSchedule_obuf (k : Text) (s : State) : (s.setSchedule k).obuf = s.obuf := rfl
@[simp] theorem State.setSchedule_keybuf (k : Text) (s : State) : (s.setSchedule k).keybuf = s.keybuf := rfl
@[simp] theorem State.setSchedule_rks (k : Text) (s : State) : (s.setSchedule k).rks = Memory.ofText k := rfl
@[simp] theorem State.setSchedule_km (k : Text) (s : State) : (s.setSchedule k).km = s.km := rfl
@[simp] theorem State.setSchedule_obufJunk (k : Text) (s : State) : (s.setSchedule k).obufJunk = s.obufJunk := rfl
@[simp] theorem State.setSchedule_rbs (k : Text) (s : State) : (s.setSchedule k).rbs = s.rbs := rfl
@[simp] theorem State.setSchedule_script (k : Text) (s : State) : (s.setSchedule k).script = s.script := rfl
@[simp] theorem State.setSchedule_answers (k : Text) (s : State) : (s.setSchedule k).answers = s.answers := rfl
@[simp] theorem State.setSchedule_delay (k : Text) (s : State) : (s.setSchedule k).delay = s.delay := rfl
@[simp] theorem State.setSchedule_tick (k : Text) (s : State) : (s.setSchedule k).tick = s.tick := rfl
@[simp] theorem State.setSchedule_cap (k : Text) (s : State) : (s.setSchedule k).cap = s.cap := rfl

/-! ### The source -/

@[simp] theorem State.setRbs_op (r : Rbs) (s : State) : (s.setRbs r).op = s.op := rfl
@[simp] theorem State.setRbs_busy (r : Rbs) (s : State) : (s.setRbs r).busy = s.busy := rfl
@[simp] theorem State.setRbs_done (r : Rbs) (s : State) : (s.setRbs r).done = s.done := rfl
@[simp] theorem State.setRbs_err (r : Rbs) (s : State) : (s.setRbs r).err = s.err := rfl
@[simp] theorem State.setRbs_ecode (r : Rbs) (s : State) : (s.setRbs r).ecode = s.ecode := rfl
@[simp] theorem State.setRbs_ie (r : Rbs) (s : State) : (s.setRbs r).ie = s.ie := rfl
@[simp] theorem State.setRbs_inLen (r : Rbs) (s : State) : (s.setRbs r).inLen = s.inLen := rfl
@[simp] theorem State.setRbs_outLen (r : Rbs) (s : State) : (s.setRbs r).outLen = s.outLen := rfl
@[simp] theorem State.setRbs_shift (r : Rbs) (s : State) : (s.setRbs r).shift = s.shift := rfl
@[simp] theorem State.setRbs_inv (r : Rbs) (s : State) : (s.setRbs r).inv = s.inv := rfl
@[simp] theorem State.setRbs_einfo (r : Rbs) (s : State) : (s.setRbs r).einfo = s.einfo := rfl
@[simp] theorem State.setRbs_capr (r : Rbs) (s : State) : (s.setRbs r).capr = s.capr := rfl
@[simp] theorem State.setRbs_ibuf (r : Rbs) (s : State) : (s.setRbs r).ibuf = s.ibuf := rfl
@[simp] theorem State.setRbs_obuf (r : Rbs) (s : State) : (s.setRbs r).obuf = s.obuf := rfl
@[simp] theorem State.setRbs_keybuf (r : Rbs) (s : State) : (s.setRbs r).keybuf = s.keybuf := rfl
@[simp] theorem State.setRbs_rks (r : Rbs) (s : State) : (s.setRbs r).rks = s.rks := rfl
@[simp] theorem State.setRbs_km (r : Rbs) (s : State) : (s.setRbs r).km = s.km := rfl
@[simp] theorem State.setRbs_obufJunk (r : Rbs) (s : State) : (s.setRbs r).obufJunk = s.obufJunk := rfl
@[simp] theorem State.setRbs_rbs (r : Rbs) (s : State) : (s.setRbs r).rbs = r := rfl
@[simp] theorem State.setRbs_script (r : Rbs) (s : State) : (s.setRbs r).script = s.script := rfl
@[simp] theorem State.setRbs_answers (r : Rbs) (s : State) : (s.setRbs r).answers = s.answers := rfl
@[simp] theorem State.setRbs_delay (r : Rbs) (s : State) : (s.setRbs r).delay = s.delay := rfl
@[simp] theorem State.setRbs_tick (r : Rbs) (s : State) : (s.setRbs r).tick = s.tick := rfl
@[simp] theorem State.setRbs_cap (r : Rbs) (s : State) : (s.setRbs r).cap = s.cap := rfl

/-! ### KEYBUF after a short read -/

@[simp] theorem State.loseKey_op (n : Nat) (s : State) : (s.loseKey n).op = s.op := rfl
@[simp] theorem State.loseKey_busy (n : Nat) (s : State) : (s.loseKey n).busy = s.busy := rfl
@[simp] theorem State.loseKey_done (n : Nat) (s : State) : (s.loseKey n).done = s.done := rfl
@[simp] theorem State.loseKey_err (n : Nat) (s : State) : (s.loseKey n).err = s.err := rfl
@[simp] theorem State.loseKey_ecode (n : Nat) (s : State) : (s.loseKey n).ecode = s.ecode := rfl
@[simp] theorem State.loseKey_ie (n : Nat) (s : State) : (s.loseKey n).ie = s.ie := rfl
@[simp] theorem State.loseKey_inLen (n : Nat) (s : State) : (s.loseKey n).inLen = s.inLen := rfl
@[simp] theorem State.loseKey_outLen (n : Nat) (s : State) : (s.loseKey n).outLen = s.outLen := rfl
@[simp] theorem State.loseKey_shift (n : Nat) (s : State) : (s.loseKey n).shift = s.shift := rfl
@[simp] theorem State.loseKey_inv (n : Nat) (s : State) : (s.loseKey n).inv = s.inv := rfl
@[simp] theorem State.loseKey_einfo (n : Nat) (s : State) : (s.loseKey n).einfo = s.einfo := rfl
@[simp] theorem State.loseKey_capr (n : Nat) (s : State) : (s.loseKey n).capr = s.capr := rfl
@[simp] theorem State.loseKey_ibuf (n : Nat) (s : State) : (s.loseKey n).ibuf = s.ibuf := rfl
@[simp] theorem State.loseKey_obuf (n : Nat) (s : State) : (s.loseKey n).obuf = s.obuf := rfl
@[simp] theorem State.loseKey_keybuf (n : Nat) (s : State) : (s.loseKey n).keybuf = s.keybuf.writeText 0 (freeText s.tick n) := rfl
@[simp] theorem State.loseKey_rks (n : Nat) (s : State) : (s.loseKey n).rks = s.rks := rfl
@[simp] theorem State.loseKey_km (n : Nat) (s : State) : (s.loseKey n).km = s.km := rfl
@[simp] theorem State.loseKey_obufJunk (n : Nat) (s : State) : (s.loseKey n).obufJunk = s.obufJunk := rfl
@[simp] theorem State.loseKey_rbs (n : Nat) (s : State) : (s.loseKey n).rbs = s.rbs := rfl
@[simp] theorem State.loseKey_script (n : Nat) (s : State) : (s.loseKey n).script = s.script := rfl
@[simp] theorem State.loseKey_answers (n : Nat) (s : State) : (s.loseKey n).answers = s.answers := rfl
@[simp] theorem State.loseKey_delay (n : Nat) (s : State) : (s.loseKey n).delay = s.delay := rfl
@[simp] theorem State.loseKey_tick (n : Nat) (s : State) : (s.loseKey n).tick = s.tick + 1 := rfl
@[simp] theorem State.loseKey_cap (n : Nat) (s : State) : (s.loseKey n).cap = s.cap := rfl

/-! ### RKS after a short read -/

@[simp] theorem State.loseSchedule_op (s : State) : (s.loseSchedule).op = s.op := rfl
@[simp] theorem State.loseSchedule_busy (s : State) : (s.loseSchedule).busy = s.busy := rfl
@[simp] theorem State.loseSchedule_done (s : State) : (s.loseSchedule).done = s.done := rfl
@[simp] theorem State.loseSchedule_err (s : State) : (s.loseSchedule).err = s.err := rfl
@[simp] theorem State.loseSchedule_ecode (s : State) : (s.loseSchedule).ecode = s.ecode := rfl
@[simp] theorem State.loseSchedule_ie (s : State) : (s.loseSchedule).ie = s.ie := rfl
@[simp] theorem State.loseSchedule_inLen (s : State) : (s.loseSchedule).inLen = s.inLen := rfl
@[simp] theorem State.loseSchedule_outLen (s : State) : (s.loseSchedule).outLen = s.outLen := rfl
@[simp] theorem State.loseSchedule_shift (s : State) : (s.loseSchedule).shift = s.shift := rfl
@[simp] theorem State.loseSchedule_inv (s : State) : (s.loseSchedule).inv = s.inv := rfl
@[simp] theorem State.loseSchedule_einfo (s : State) : (s.loseSchedule).einfo = s.einfo := rfl
@[simp] theorem State.loseSchedule_capr (s : State) : (s.loseSchedule).capr = s.capr := rfl
@[simp] theorem State.loseSchedule_ibuf (s : State) : (s.loseSchedule).ibuf = s.ibuf := rfl
@[simp] theorem State.loseSchedule_obuf (s : State) : (s.loseSchedule).obuf = s.obuf := rfl
@[simp] theorem State.loseSchedule_keybuf (s : State) : (s.loseSchedule).keybuf = s.keybuf := rfl
@[simp] theorem State.loseSchedule_rks (s : State) : (s.loseSchedule).rks = Memory.ofText (freeText s.tick Config.rksSize) := rfl
@[simp] theorem State.loseSchedule_km (s : State) : (s.loseSchedule).km = s.km := rfl
@[simp] theorem State.loseSchedule_obufJunk (s : State) : (s.loseSchedule).obufJunk = s.obufJunk := rfl
@[simp] theorem State.loseSchedule_rbs (s : State) : (s.loseSchedule).rbs = s.rbs := rfl
@[simp] theorem State.loseSchedule_script (s : State) : (s.loseSchedule).script = s.script := rfl
@[simp] theorem State.loseSchedule_answers (s : State) : (s.loseSchedule).answers = s.answers := rfl
@[simp] theorem State.loseSchedule_delay (s : State) : (s.loseSchedule).delay = s.delay := rfl
@[simp] theorem State.loseSchedule_tick (s : State) : (s.loseSchedule).tick = s.tick + 1 := rfl
@[simp] theorem State.loseSchedule_cap (s : State) : (s.loseSchedule).cap = s.cap := rfl

/-! ### Acceptance -/

@[simp] theorem State.accept_op (b : Byte) (s : State) : (s.accept b).op = b := rfl
@[simp] theorem State.accept_busy (b : Byte) (s : State) : (s.accept b).busy = true := rfl
@[simp] theorem State.accept_done (b : Byte) (s : State) : (s.accept b).done = false := rfl
@[simp] theorem State.accept_err (b : Byte) (s : State) : (s.accept b).err = s.err := rfl
@[simp] theorem State.accept_ecode (b : Byte) (s : State) : (s.accept b).ecode = s.ecode := rfl
@[simp] theorem State.accept_ie (b : Byte) (s : State) : (s.accept b).ie = s.ie := rfl
@[simp] theorem State.accept_inLen (b : Byte) (s : State) : (s.accept b).inLen = s.inLen := rfl
@[simp] theorem State.accept_outLen (b : Byte) (s : State) : (s.accept b).outLen = s.outLen := rfl
@[simp] theorem State.accept_shift (b : Byte) (s : State) : (s.accept b).shift = s.shift := rfl
@[simp] theorem State.accept_inv (b : Byte) (s : State) : (s.accept b).inv = s.inv := rfl
@[simp] theorem State.accept_einfo (b : Byte) (s : State) : (s.accept b).einfo = s.einfo := rfl
@[simp] theorem State.accept_capr (b : Byte) (s : State) : (s.accept b).capr = s.capr := rfl
@[simp] theorem State.accept_ibuf (b : Byte) (s : State) : (s.accept b).ibuf = s.ibuf := rfl
@[simp] theorem State.accept_obuf (b : Byte) (s : State) : (s.accept b).obuf = s.obuf := rfl
@[simp] theorem State.accept_keybuf (b : Byte) (s : State) : (s.accept b).keybuf = s.keybuf := rfl
@[simp] theorem State.accept_rks (b : Byte) (s : State) : (s.accept b).rks = s.rks := rfl
@[simp] theorem State.accept_km (b : Byte) (s : State) : (s.accept b).km = s.km := rfl
@[simp] theorem State.accept_obufJunk (b : Byte) (s : State) : (s.accept b).obufJunk = s.obufJunk := rfl
@[simp] theorem State.accept_rbs (b : Byte) (s : State) : (s.accept b).rbs = s.rbs := rfl
@[simp] theorem State.accept_script (b : Byte) (s : State) : (s.accept b).script = s.script := rfl
@[simp] theorem State.accept_answers (b : Byte) (s : State) : (s.accept b).answers = s.answers := rfl
@[simp] theorem State.accept_delay (b : Byte) (s : State) : (s.accept b).delay = Config.busyTime s.tick := rfl
@[simp] theorem State.accept_tick (b : Byte) (s : State) : (s.accept b).tick = s.tick + 1 := rfl
@[simp] theorem State.accept_cap (b : Byte) (s : State) : (s.accept b).cap = s.cap := rfl

/-! ### Placing a command -/

@[simp] theorem State.latch_op (b : Byte) (s : State) : (s.latch b).op = b := rfl
@[simp] theorem State.latch_busy (b : Byte) (s : State) : (s.latch b).busy = true := rfl
@[simp] theorem State.latch_done (b : Byte) (s : State) : (s.latch b).done = false := rfl
@[simp] theorem State.latch_err (b : Byte) (s : State) : (s.latch b).err = false := rfl
@[simp] theorem State.latch_ecode (b : Byte) (s : State) : (s.latch b).ecode = 0 := rfl
@[simp] theorem State.latch_ie (b : Byte) (s : State) : (s.latch b).ie = s.ie := rfl
@[simp] theorem State.latch_inLen (b : Byte) (s : State) : (s.latch b).inLen = s.inLen := rfl
@[simp] theorem State.latch_outLen (b : Byte) (s : State) : (s.latch b).outLen = s.outLen := rfl
@[simp] theorem State.latch_shift (b : Byte) (s : State) : (s.latch b).shift = s.shift := rfl
@[simp] theorem State.latch_inv (b : Byte) (s : State) : (s.latch b).inv = s.inv := rfl
@[simp] theorem State.latch_einfo (b : Byte) (s : State) : (s.latch b).einfo = s.einfo := rfl
@[simp] theorem State.latch_capr (b : Byte) (s : State) : (s.latch b).capr = s.capr := rfl
@[simp] theorem State.latch_ibuf (b : Byte) (s : State) : (s.latch b).ibuf = s.ibuf := rfl
@[simp] theorem State.latch_obuf (b : Byte) (s : State) : (s.latch b).obuf = s.obuf := rfl
@[simp] theorem State.latch_keybuf (b : Byte) (s : State) : (s.latch b).keybuf = s.keybuf := rfl
@[simp] theorem State.latch_rks (b : Byte) (s : State) : (s.latch b).rks = s.rks := rfl
@[simp] theorem State.latch_km (b : Byte) (s : State) : (s.latch b).km = s.km := rfl
@[simp] theorem State.latch_obufJunk (b : Byte) (s : State) : (s.latch b).obufJunk = s.obufJunk := rfl
@[simp] theorem State.latch_rbs (b : Byte) (s : State) : (s.latch b).rbs = s.rbs := rfl
@[simp] theorem State.latch_script (b : Byte) (s : State) : (s.latch b).script = s.script := rfl
@[simp] theorem State.latch_answers (b : Byte) (s : State) : (s.latch b).answers = s.answers := rfl
@[simp] theorem State.latch_delay (b : Byte) (s : State) : (s.latch b).delay = 0 := rfl
@[simp] theorem State.latch_tick (b : Byte) (s : State) : (s.latch b).tick = s.tick := rfl
@[simp] theorem State.latch_cap (b : Byte) (s : State) : (s.latch b).cap = s.cap := rfl

/-! ### Reset -/

@[simp] theorem State.rst_op (s : State) : (s.rst).op = 0 := rfl
@[simp] theorem State.rst_busy (s : State) : (s.rst).busy = false := rfl
@[simp] theorem State.rst_done (s : State) : (s.rst).done = false := rfl
@[simp] theorem State.rst_err (s : State) : (s.rst).err = false := rfl
@[simp] theorem State.rst_ecode (s : State) : (s.rst).ecode = 0 := rfl
@[simp] theorem State.rst_ie (s : State) : (s.rst).ie = false := rfl
@[simp] theorem State.rst_inLen (s : State) : (s.rst).inLen = 0 := rfl
@[simp] theorem State.rst_outLen (s : State) : (s.rst).outLen = 0 := rfl
@[simp] theorem State.rst_shift (s : State) : (s.rst).shift = 0 := rfl
@[simp] theorem State.rst_inv (s : State) : (s.rst).inv = 0 := rfl
@[simp] theorem State.rst_einfo (s : State) : (s.rst).einfo = 0 := rfl
@[simp] theorem State.rst_capr (s : State) : (s.rst).capr = s.capr := rfl
@[simp] theorem State.rst_ibuf (s : State) : (s.rst).ibuf = [] := rfl
@[simp] theorem State.rst_obuf (s : State) : (s.rst).obuf = [] := rfl
@[simp] theorem State.rst_keybuf (s : State) : (s.rst).keybuf = [] := rfl
@[simp] theorem State.rst_rks (s : State) : (s.rst).rks = [] := rfl
@[simp] theorem State.rst_km (s : State) : (s.rst).km = [] := rfl
@[simp] theorem State.rst_obufJunk (s : State) : (s.rst).obufJunk = none := rfl
@[simp] theorem State.rst_rbs (s : State) : (s.rst).rbs = s.rbs := rfl
@[simp] theorem State.rst_script (s : State) : (s.rst).script = s.script := rfl
@[simp] theorem State.rst_answers (s : State) : (s.rst).answers = s.answers := rfl
@[simp] theorem State.rst_delay (s : State) : (s.rst).delay = 0 := rfl
@[simp] theorem State.rst_tick (s : State) : (s.rst).tick = s.tick := rfl
@[simp] theorem State.rst_cap (s : State) : (s.rst).cap = s.cap := rfl

/-! ### A host read -/

@[simp] theorem State.answer_op (v : Word) (s : State) : (s.answer v).op = s.op := rfl
@[simp] theorem State.answer_busy (v : Word) (s : State) : (s.answer v).busy = s.busy := rfl
@[simp] theorem State.answer_done (v : Word) (s : State) : (s.answer v).done = s.done := rfl
@[simp] theorem State.answer_err (v : Word) (s : State) : (s.answer v).err = s.err := rfl
@[simp] theorem State.answer_ecode (v : Word) (s : State) : (s.answer v).ecode = s.ecode := rfl
@[simp] theorem State.answer_ie (v : Word) (s : State) : (s.answer v).ie = s.ie := rfl
@[simp] theorem State.answer_inLen (v : Word) (s : State) : (s.answer v).inLen = s.inLen := rfl
@[simp] theorem State.answer_outLen (v : Word) (s : State) : (s.answer v).outLen = s.outLen := rfl
@[simp] theorem State.answer_shift (v : Word) (s : State) : (s.answer v).shift = s.shift := rfl
@[simp] theorem State.answer_inv (v : Word) (s : State) : (s.answer v).inv = s.inv := rfl
@[simp] theorem State.answer_einfo (v : Word) (s : State) : (s.answer v).einfo = s.einfo := rfl
@[simp] theorem State.answer_capr (v : Word) (s : State) : (s.answer v).capr = s.capr := rfl
@[simp] theorem State.answer_ibuf (v : Word) (s : State) : (s.answer v).ibuf = s.ibuf := rfl
@[simp] theorem State.answer_obuf (v : Word) (s : State) : (s.answer v).obuf = s.obuf := rfl
@[simp] theorem State.answer_keybuf (v : Word) (s : State) : (s.answer v).keybuf = s.keybuf := rfl
@[simp] theorem State.answer_rks (v : Word) (s : State) : (s.answer v).rks = s.rks := rfl
@[simp] theorem State.answer_km (v : Word) (s : State) : (s.answer v).km = s.km := rfl
@[simp] theorem State.answer_obufJunk (v : Word) (s : State) : (s.answer v).obufJunk = s.obufJunk := rfl
@[simp] theorem State.answer_rbs (v : Word) (s : State) : (s.answer v).rbs = s.rbs := rfl
@[simp] theorem State.answer_script (v : Word) (s : State) : (s.answer v).script = s.script := rfl
@[simp] theorem State.answer_answers (v : Word) (s : State) : (s.answer v).answers = v :: s.answers := rfl
@[simp] theorem State.answer_delay (v : Word) (s : State) : (s.answer v).delay = s.delay := rfl
@[simp] theorem State.answer_tick (v : Word) (s : State) : (s.answer v).tick = s.tick + 1 := rfl
@[simp] theorem State.answer_cap (v : Word) (s : State) : (s.answer v).cap = s.cap := rfl

/-! ### Moves put before the script -/

@[simp] theorem State.enqueue_op (ms : List HostMove) (s : State) : (s.enqueue ms).op = s.op := rfl
@[simp] theorem State.enqueue_busy (ms : List HostMove) (s : State) : (s.enqueue ms).busy = s.busy := rfl
@[simp] theorem State.enqueue_done (ms : List HostMove) (s : State) : (s.enqueue ms).done = s.done := rfl
@[simp] theorem State.enqueue_err (ms : List HostMove) (s : State) : (s.enqueue ms).err = s.err := rfl
@[simp] theorem State.enqueue_ecode (ms : List HostMove) (s : State) : (s.enqueue ms).ecode = s.ecode := rfl
@[simp] theorem State.enqueue_ie (ms : List HostMove) (s : State) : (s.enqueue ms).ie = s.ie := rfl
@[simp] theorem State.enqueue_inLen (ms : List HostMove) (s : State) : (s.enqueue ms).inLen = s.inLen := rfl
@[simp] theorem State.enqueue_outLen (ms : List HostMove) (s : State) : (s.enqueue ms).outLen = s.outLen := rfl
@[simp] theorem State.enqueue_shift (ms : List HostMove) (s : State) : (s.enqueue ms).shift = s.shift := rfl
@[simp] theorem State.enqueue_inv (ms : List HostMove) (s : State) : (s.enqueue ms).inv = s.inv := rfl
@[simp] theorem State.enqueue_einfo (ms : List HostMove) (s : State) : (s.enqueue ms).einfo = s.einfo := rfl
@[simp] theorem State.enqueue_capr (ms : List HostMove) (s : State) : (s.enqueue ms).capr = s.capr := rfl
@[simp] theorem State.enqueue_ibuf (ms : List HostMove) (s : State) : (s.enqueue ms).ibuf = s.ibuf := rfl
@[simp] theorem State.enqueue_obuf (ms : List HostMove) (s : State) : (s.enqueue ms).obuf = s.obuf := rfl
@[simp] theorem State.enqueue_keybuf (ms : List HostMove) (s : State) : (s.enqueue ms).keybuf = s.keybuf := rfl
@[simp] theorem State.enqueue_rks (ms : List HostMove) (s : State) : (s.enqueue ms).rks = s.rks := rfl
@[simp] theorem State.enqueue_km (ms : List HostMove) (s : State) : (s.enqueue ms).km = s.km := rfl
@[simp] theorem State.enqueue_obufJunk (ms : List HostMove) (s : State) : (s.enqueue ms).obufJunk = s.obufJunk := rfl
@[simp] theorem State.enqueue_rbs (ms : List HostMove) (s : State) : (s.enqueue ms).rbs = s.rbs := rfl
@[simp] theorem State.enqueue_script (ms : List HostMove) (s : State) : (s.enqueue ms).script = ms ++ s.script := rfl
@[simp] theorem State.enqueue_answers (ms : List HostMove) (s : State) : (s.enqueue ms).answers = s.answers := rfl
@[simp] theorem State.enqueue_delay (ms : List HostMove) (s : State) : (s.enqueue ms).delay = s.delay := rfl
@[simp] theorem State.enqueue_tick (ms : List HostMove) (s : State) : (s.enqueue ms).tick = s.tick := rfl
@[simp] theorem State.enqueue_cap (ms : List HostMove) (s : State) : (s.enqueue ms).cap = s.cap := rfl

end Sys2Proof.Machine
end

