-- ==== Sys2Proof/Laws/Ops.lean ====
section
/-! SUPPORT. The shared operations of the meanings: what each can answer, what it changes and what it leaves. -/

namespace Sys2Proof.Machine

/-! ### Frames are equivalences that compose -/

theorem keepsRegs_refl (rs : List Reg) (s : State) : keepsRegs rs s s := fun _ _ => rfl

theorem keepsBytes_refl (sps : List Space) (s : State) : keepsBytes sps s s := fun _ _ _ => rfl

theorem keepsRegs_trans {rs : List Reg} {s t u : State} (h : keepsRegs rs s t) (k : keepsRegs rs t u) : keepsRegs rs s u :=
  fun r hr => (k r hr).trans (h r hr)

theorem keepsBytes_trans {sps : List Space} {s t u : State} (h : keepsBytes sps s t) (k : keepsBytes sps t u) :
    keepsBytes sps s u :=
  fun sp hsp a => (k sp hsp a).trans (h sp hsp a)

theorem keepsInputs_trans {s t u : State} (h : keepsInputs s t) (k : keepsInputs t u) : keepsInputs s u :=
  ⟨keepsRegs_trans h.1 k.1, keepsBytes_trans h.2.1 k.2.1, k.2.2.1.trans h.2.2.1, k.2.2.2.trans h.2.2.2⟩

theorem keepsInputs_of {s t : State} (hop : t.op = s.op) (hie : t.ie = s.ie) (hin : t.inLen = s.inLen)
    (hsh : t.shift = s.shift) (hcap : t.capr = s.capr) (hib : t.ibuf = s.ibuf) (hsc : t.script = s.script)
    (han : t.answers = s.answers) : keepsInputs s t := by
  refine ⟨?_, ?_, hsc, han⟩
  · intro r hr
    fin_cases hr <;> simp [State.regValue, State.ctrl, hop, hie, hin, hsh, hcap]
  · intro sp hsp a
    fin_cases hsp
    simp [State.peek, hib]

/-! ### Bytes of the memories after the updates -/

theorem State.cap_eq (s : State) : s.cap = s.capr.toNat := rfl

/-- An admissible CAP, as arithmetic (00_scope.md R6). -/
theorem State.admissible_iff (s : State) : s.admissible ↔ s.cap % 8 = 0 ∧ 8 ≤ s.cap ∧ s.cap ≤ 65528 := by
  simp only [State.admissible, capOk, Bool.and_eq_true, decide_eq_true_eq, and_assoc]

@[simp] theorem State.peek_complete (s : State) (sp : Space) (a : Nat) : s.complete.peek sp a = s.peek sp a := by
  cases sp <;> rfl

theorem State.peek_raise_precise {e : Err} (h : e.precise = true) (s : State) (sp : Space) (a : Nat) :
    (s.raise e).peek sp a = s.peek sp a := by
  cases sp <;> simp [State.peek, State.obufByte, h]

theorem State.peek_raise {sp : Space} (h : sp ≠ .obuf) (e : Err) (s : State) (a : Nat) :
    (s.raise e).peek sp a = s.peek sp a := by
  cases sp <;> first | rfl | exact absurd rfl h

theorem State.peek_setOutput {sp : Space} (h : sp ≠ .obuf) (t : Text) (s : State) (a : Nat) :
    (s.setOutput t).peek sp a = s.peek sp a := by
  cases sp <;> first | rfl | exact absurd rfl h

/-- OBUF after a text command: the text, then free values (10_state.md R34, R35). -/
theorem State.obufByte_setOutput (t : Text) (s : State) (a : Nat) :
    (s.setOutput t).obufByte a = if a < t.length then t.getD a 0 else Config.freeByte s.tick a := by
  simp only [State.obufByte, State.setOutput_obufJunk, State.setOutput_obuf, Memory.read_ofText]
  by_cases h : a < t.length
  · rw [if_neg (by omega), if_pos h]
  · rw [if_pos (by omega), if_neg h]

theorem State.peek_latch (b : Byte) (s : State) (sp : Space) (a : Nat) : (s.latch b).peek sp a = s.peek sp a := by
  cases sp <;> rfl

theorem State.peek_answer (v : Word) (s : State) (sp : Space) (a : Nat) : (s.answer v).peek sp a = s.peek sp a := by
  cases sp <;> rfl

theorem State.peek_enqueue (ms : List HostMove) (s : State) (sp : Space) (a : Nat) :
    (s.enqueue ms).peek sp a = s.peek sp a := by
  cases sp <;> rfl

theorem State.peek_accept (b : Byte) (s : State) (sp : Space) (a : Nat) : (s.accept b).peek sp a = s.peek sp a := by
  cases sp <;> rfl

/-! ### Texts -/

@[simp] theorem State.length_slice (s : State) (sp : Space) (n : Nat) : (s.slice sp n).length = n := by simp [State.slice]

theorem State.getD_slice (s : State) (sp : Space) {n i : Nat} (h : i < n) : (s.slice sp n).getD i 0 = s.peek sp i := by
  simp [State.slice, h]

theorem State.slice_congr {s t : State} {sp sq : Space} {n : Nat} (h : ∀ i, i < n → s.peek sp i = t.peek sq i) :
    s.slice sp n = t.slice sq n := map_range_congr h

@[simp] theorem State.length_text (s : State) : s.text.length = s.inLen.toNat := by simp [State.text]

@[simp] theorem State.length_otpKey (s : State) : s.otpKey.length = s.inLen.toNat := by simp [State.otpKey]

@[simp] theorem State.length_schedule (s : State) : s.schedule.length = 32 := by simp [State.schedule, Config.rksSize]

@[simp] theorem State.length_matrix (s : State) : s.matrix.length = 25 := by simp [State.matrix, Config.kmSize]

/-- A text that fits OBUF has a length OUT_LEN can hold. -/
theorem State.toNat_length {s : State} {t : Text} (h : t.length ≤ s.cap) : (BitVec.ofNat 16 t.length).toNat = t.length := by
  have := s.capr.isLt
  simp only [State.cap_eq] at h
  rw [BitVec.toNat_ofNat, Nat.mod_eq_of_lt (by omega)]

/-- The output text after a text command is the text the command gave. -/
theorem State.outText_setOutput {t : Text} (h : t.length < 65536) (s : State) : (s.setOutput t).outText = t := by
  have hlen : (BitVec.ofNat 16 t.length).toNat = t.length := by
    rw [BitVec.toNat_ofNat, Nat.mod_eq_of_lt (by omega)]
  rw [State.outText, State.setOutput_outLen, hlen, State.slice]
  refine map_range_eq fun i hi => ?_
  rw [State.peek, State.obufByte_setOutput, if_pos hi]

@[simp] theorem State.outText_complete (s : State) : s.complete.outText = s.outText :=
  State.slice_congr fun _ _ => State.peek_complete s _ _

/-- KEYBUF after a key has been written: the key, then the old bytes (42_otp.md R154). -/
theorem State.peek_setKey (k : Text) (s : State) (a : Nat) :
    (s.setKey k).peek .keybuf a = if a < k.length then k.getD a 0 else s.peek .keybuf a := by
  simp only [State.peek, State.setKey_keybuf, Memory.read_writeText]
  simp

theorem State.otpKey_setKey {k : Text} {s : State} (h : k.length = s.inLen.toNat) : (s.setKey k).otpKey = k := by
  rw [State.otpKey, State.setKey_inLen, ← h, State.slice]
  exact map_range_eq fun i hi => by rw [State.peek_setKey, if_pos hi]

/-- RKS after a schedule has been written holds it (44_feistel.md R206). -/
theorem State.schedule_setSchedule {k : Text} (h : k.length = 32) (s : State) : (s.setSchedule k).schedule = k := by
  rw [State.schedule, Config.rksSize, ← h, State.slice]
  exact map_range_eq fun i _ => by rw [State.peek, State.setSchedule_rks, Memory.read_ofText]

/-- KM after a matrix has been written holds it (43_playfair.md R173). -/
theorem State.matrix_setMatrix {g : Text} (h : g.length = 25) (s : State) : (s.setMatrix g).matrix = g := by
  rw [State.matrix, Config.kmSize, ← h, State.slice]
  exact map_range_eq fun i _ => by rw [State.peek, State.setMatrix_km, Memory.read_ofText]

/-! ### The length check -/

theorem guardLength_of_le {s : State} (h : s.inLen.toNat ≤ s.cap) (k : Result) : guardLength s k = k :=
  if_neg (by omega)

theorem guardLength_of_lt {s : State} (h : s.cap < s.inLen.toNat) (k : Result) :
    guardLength s k = .next (s.raise (.length s.inLen)) :=
  if_pos h

/-- Everything the length check can do. -/
theorem guardLength_cases {s t : State} {k : Result} (h : guardLength s k = .next t) :
    (s.cap < s.inLen.toNat ∧ t = s.raise (.length s.inLen)) ∨ (s.inLen.toNat ≤ s.cap ∧ k = .next t) := by
  unfold guardLength at h
  split at h
  · exact .inl ⟨‹_›, by simpa using h.symm⟩
  · exact .inr ⟨by omega, h⟩

/-! ### The error step -/

/-- The error Length changes nothing but the flags, ECODE and EINFO (60_exceptions.md R242). -/
theorem lengthError_raise (s : State) : lengthError s (s.raise (.length s.inLen)) := by
  refine ⟨⟨rfl, rfl, rfl, rfl, rfl⟩, ?_, ?_⟩
  · intro r hr
    fin_cases hr <;> simp [State.regValue, State.ctrl, Err.precise]
  · intro sp _ a
    exact State.peek_raise_precise rfl s sp a

theorem failed_raise (e : Err) (s : State) : failed e.code e.info (s.raise e) := ⟨rfl, rfl, rfl, rfl, rfl⟩

theorem keepsInputs_raise (e : Err) (s : State) : keepsInputs s (s.raise e) :=
  keepsInputs_of rfl rfl rfl rfl rfl rfl rfl rfl

/-- What an error leaves unchanged besides the inputs (60_exceptions.md R242). -/
theorem keepsRest_raise (e : Err) (s : State) :
    keepsRegs [.inv] s (s.raise e) ∧ keepsBytes [.keybuf, .rks, .km] s (s.raise e) := by
  refine ⟨?_, ?_⟩
  · intro r hr
    fin_cases hr
    rfl
  · intro sp hsp a
    exact State.peek_raise (by rintro rfl; simp at hsp) e s a

/-! ### Completion -/

theorem completed_complete (s : State) : completed s s.complete := ⟨rfl, rfl, rfl, rfl, rfl⟩

theorem keepsInputs_complete (s : State) : keepsInputs s s.complete :=
  keepsInputs_of rfl rfl rfl rfl rfl rfl rfl rfl

theorem keepsInputs_setOutput (t : Text) (s : State) : keepsInputs s (s.setOutput t) :=
  keepsInputs_of rfl rfl rfl rfl rfl rfl rfl rfl

theorem guardOutput_of_le {n : Nat} {s : State} (h : n ≤ s.cap) (k : State) : guardOutput n s k = .next k := if_pos h

/-- Everything the output check can do when it answers a next state. -/
theorem guardOutput_cases {n : Nat} {s k t : State} (h : guardOutput n s k = .next t) : n ≤ s.cap ∧ t = k := by
  unfold guardOutput at h
  split at h
  · exact ⟨‹_›, by simpa using h.symm⟩
  · cases h

theorem emit_of_le {t : Text} {s : State} (h : t.length ≤ s.cap) : emit t s = .next (s.setOutput t).complete :=
  guardOutput_of_le h _

theorem emit_cases {t : Text} {s u : State} (h : emit t s = .next u) :
    t.length ≤ s.cap ∧ u = (s.setOutput t).complete :=
  guardOutput_cases h

/-- Everything a completion with an output text does: the text in OBUF[0..OUT_LEN), the flags, and the frame. -/
theorem emit_gives {t : Text} {s : State} (h : t.length ≤ s.cap) :
    gaveText t s (s.setOutput t).complete ∧ (s.setOutput t).complete.outLen.toNat = t.length ∧
      keepsInputs s (s.setOutput t).complete ∧ keepsRegs [.inv] s (s.setOutput t).complete ∧
      keepsBytes [.keybuf, .rks, .km] s (s.setOutput t).complete := by
  have hlt : t.length < 65536 := by
    have := s.capr.isLt
    simp only [State.cap_eq] at h
    omega
  refine ⟨⟨⟨rfl, rfl, rfl, rfl, rfl⟩, ?_⟩, ?_, ?_, ?_, ?_⟩
  · rw [State.outText_complete, State.outText_setOutput hlt]
  · exact State.toNat_length h
  · exact keepsInputs_trans (keepsInputs_setOutput t s) (keepsInputs_complete _)
  · intro r hr
    fin_cases hr
    rfl
  · intro sp hsp a
    rw [State.peek_complete]
    exact State.peek_setOutput (by rintro rfl; simp at hsp) t s a

end Sys2Proof.Machine
end

