-- ==== Sys2Proof/Laws/Access.lean ====
section
/-! SUPPORT. The host's accesses and moves: everything each can do. -/

namespace Sys2Proof.Machine

theorem State.readReg_of_idle {s : State} (h : s.busy = false) (n : Nat) :
    s.readReg n = (match Reg.ofNumber n with | some r => s.regValue r | none => 0) := by
  unfold State.readReg State.regInFlux
  cases Reg.ofNumber n <;> simp [h]

theorem State.readBuf_of_idle {s : State} (h : s.busy = false) {sp : Space} {i : Nat} (hi : i < s.size sp) :
    s.readBuf sp i = s.peek sp i := by
  unfold State.readBuf State.spaceInFlux
  simp [h, hi]

/-- Everything a write to CMD can do (10_state.md R22). -/
theorem writeCmd_cases (v : Word) (s : State) :
    (s.busy = false ∧ s.err = false ∧ writeCmd v s = s.accept (v.setWidth 8)) ∨
    ((s.busy = true ∨ s.err = true) ∧ writeCmd v s = s) := by
  unfold writeCmd
  cases hb : s.busy <;> cases he : s.err <;> simp

/-- Everything a host write to a register can do (20_memory.md R64, R76). -/
theorem hostWriteReg_cases (n : Nat) (v : Word) (s : State) :
    hostWriteReg n v s = s ∨
    (n = 0 ∧ s.busy = false ∧ s.err = false ∧ hostWriteReg n v s = s.accept (v.setWidth 8)) ∨
    (n = 2 ∧ hostWriteReg n v s = { s with ie := v.getLsbD 0 }) ∨
    (n = 3 ∧ s.busy = false ∧ hostWriteReg n v s = { s with inLen := v.setWidth 16 }) ∨
    (n = 5 ∧ s.busy = false ∧ hostWriteReg n v s = { s with shift := v }) := by
  match n with
  | 0 =>
    rcases writeCmd_cases v s with ⟨h₁, h₂, h₃⟩ | ⟨-, h⟩
    · exact .inr (.inl ⟨rfl, h₁, h₂, h₃⟩)
    · exact .inl h
  | 1 => exact .inl rfl
  | 2 => exact .inr (.inr (.inl ⟨rfl, rfl⟩))
  | 3 => cases hb : s.busy <;> simp [hostWriteReg, Reg.ofNumber, State.writeReg, hb]
  | 4 => exact .inl rfl
  | 5 => cases hb : s.busy <;> simp [hostWriteReg, Reg.ofNumber, State.writeReg, hb]
  | 6 => exact .inl rfl
  | 7 => exact .inl rfl
  | 8 => exact .inl rfl
  | 9 => exact .inl rfl
  | 10 => exact .inl rfl
  | n + 11 => exact .inl rfl

/-- Everything a host write to a memory can do (20_memory.md R65, R76). -/
theorem hostWriteBuf_cases (sp : Space) (i : Nat) (v : Word) (s : State) :
    hostWriteBuf sp i v s = s ∨
    (s.busy = false ∧ i < s.size sp ∧
      ((sp = .ibuf ∧ hostWriteBuf sp i v s = { s with ibuf := s.ibuf.write i (v.setWidth 8) }) ∨
       (sp = .keybuf ∧ hostWriteBuf sp i v s = { s with keybuf := s.keybuf.write i (v.setWidth 8) }) ∨
       (sp = .rks ∧ hostWriteBuf sp i v s = { s with rks := s.rks.write i (v.setWidth 8) }))) := by
  unfold hostWriteBuf
  split
  · exact .inl rfl
  · rename_i h
    simp only [Bool.or_eq_true, decide_eq_true_eq, not_or, Bool.not_eq_true, Nat.not_le] at h
    cases sp
    · exact .inr ⟨h.1, h.2, .inl ⟨rfl, rfl⟩⟩
    · exact .inl rfl
    · exact .inr ⟨h.1, h.2, .inr (.inl ⟨rfl, rfl⟩)⟩
    · exact .inr ⟨h.1, h.2, .inr (.inr ⟨rfl, rfl⟩)⟩
    · exact .inl rfl

/-- A host read changes only the model's record of answers and draws. -/
theorem keepsAll_answer (v : Word) (s : State) : keepsAll s (s.answer v) := by
  refine ⟨?_, fun sp _ a => State.peek_answer v s sp a⟩
  intro r hr
  fin_cases hr <;> rfl

end Sys2Proof.Machine
end

