-- ==== Sys2Proof/Laws/Text.lean ====
section
/-! SUPPORT. Arithmetic and text functions of the commands: ranges, lengths, and the block view of a text. -/

namespace Sys2Proof.Machine

/-! ### Floored modulus -/

theorem floorMod_cast (x : Int) {m : Nat} (h : 0 < m) : ((floorMod x m : Nat) : Int) = x % (m : Int) := by
  rw [floorMod, Int.toNat_of_nonneg (Int.emod_nonneg _ (by omega))]

theorem floorMod_lt (x : Int) {m : Nat} (h : 0 < m) : floorMod x m < m := by
  have h₁ := floorMod_cast x h
  have h₂ := Int.emod_lt_of_pos x (show (0 : Int) < m by omega)
  omega

/-! ### Lengths -/

@[simp] theorem length_zeros (n : Nat) : (zeros n).length = n := by simp [zeros]

@[simp] theorem length_otpFilter (t : Text) : (otpFilter t).length = t.length := by
  have := List.length_filter_le inOtp t
  simp only [otpFilter, List.length_append, length_zeros]
  omega

@[simp] theorem length_xorText (p k : Text) : (xorText p k).length = min p.length k.length := by simp [xorText]

@[simp] theorem length_pfSeparate (t : Text) : (pfSeparate t).length = t.length := by
  induction t using pfSeparate.induct with
  | case1 a b t ih => simp [pfSeparate, ih]
  | case2 t h => rw [pfSeparate]; exact h

theorem length_pfStrip_le (t : Text) : (pfStrip t).length ≤ t.length := by
  simpa [pfStrip] using List.length_filter_le isUpper t

/-- A substituted text has the length of a text of even length. -/
theorem length_pfSubst {km : Text} {d : Int} {i : Nat} {s e : Text} (h : pfSubst km d i s = .ok e)
    (hs : s.length % 2 = 0) : e.length = s.length := by
  induction s using pfSeparate.induct generalizing i e with
  | case1 a b s ih =>
    simp only [pfSubst] at h
    split at h
    · cases h
    · split at h
      · cases h
      · rename_i u hu
        cases h
        have := ih hu (by simpa [List.length_cons, Nat.add_assoc] using hs)
        simp [this]
  | case2 s hn =>
    match s, hn with
    | [], _ => cases h; rfl
    | [a], _ => simp at hs
    | a :: b :: s, hn => exact absurd rfl (hn a b s)

/-! ### Blocks -/

@[simp] theorem toBlocks_ofBlocks (ws : List Block) : toBlocks (ofBlocks ws) = ws := by
  induction ws with
  | nil => rfl
  | cons w ws ih => simp [ofBlocks, Half.toText, toBlocks, ih]

theorem ofBlocks_toBlocks {t : Text} (h : t.length % 8 = 0) : ofBlocks (toBlocks t) = t := by
  induction t using toBlocks.induct with
  | case1 a b c d e f g x t ih =>
    simp only [toBlocks, ofBlocks, Half.toText]
    rw [ih (by simp only [List.length_cons] at h; omega)]
    rfl
  | case2 t hn =>
    match t, hn with
    | [], _ => rfl
    | [_], _ | [_, _], _ | [_, _, _], _ | [_, _, _, _], _ | [_, _, _, _, _], _ | [_, _, _, _, _, _], _
    | [_, _, _, _, _, _, _], _ => simp at h
    | a :: b :: c :: d :: e :: f :: g :: x :: t, hn => exact absurd rfl (hn a b c d e f g x t)

@[simp] theorem length_ofBlocks (ws : List Block) : (ofBlocks ws).length = 8 * ws.length := by
  induction ws with
  | nil => rfl
  | cons w ws ih => simp only [ofBlocks, Half.toText, List.length_append, List.length_cons, List.length_nil, ih]; omega

theorem length_toBlocks {t : Text} (h : t.length % 8 = 0) : 8 * (toBlocks t).length = t.length := by
  rw [← length_ofBlocks, ofBlocks_toBlocks h]

@[simp] theorem length_encBlocks (ks : List Half) (ws : List Block) : (encBlocks ks ws).length = ws.length := by
  induction ks generalizing ws with
  | nil => rfl
  | cons k ks ih => simpa [encBlocks] using ih (ws.map (encRound k))

theorem length_decFold (ks : List Half) (ws : List Block) :
    (ks.foldl (fun ws k => ws.map (decRound k)) ws).length = ws.length := by
  induction ks generalizing ws with
  | nil => rfl
  | cons k ks ih => simpa using ih (ws.map (decRound k))

@[simp] theorem length_decBlocks (ks : List Half) (ws : List Block) : (decBlocks ks ws).length = ws.length :=
  length_decFold ks.reverse ws

theorem length_encRounds {w : Text} (h : w.length % 8 = 0) (k : Text) : (encRounds w k).length = w.length := by
  rw [encRounds, length_ofBlocks, length_encBlocks, length_toBlocks h]

theorem length_decRounds {w : Text} (h : w.length % 8 = 0) (k : Text) : (decRounds w k).length = w.length := by
  rw [decRounds, length_ofBlocks, length_decBlocks, length_toBlocks h]

/-! ### The random byte source -/

/-- Everything an acquisition can answer (00_scope.md R18). -/
theorem Rbs.acquire_cases (r : Rbs) (n : Nat) :
    (∃ t, t.length = n ∧ r.acquire n = .bytes t (r.after n)) ∨
    (∃ k, k < n ∧ r.acquire n = .short k (r.after k)) := by
  unfold Rbs.acquire
  split
  · exact .inl ⟨_, by simp, rfl⟩
  · exact .inr ⟨_, by omega, rfl⟩

/-- Everything the round-key sequencer can answer (44_feistel.md R206). -/
theorem Rbs.drawKeys_cases (n : Nat) (r : Rbs) :
    (∃ t r', t.length = 4 * n ∧ r.drawKeys n = .bytes t r') ∨ (∃ k r', k < 4 * n ∧ r.drawKeys n = .short k r') := by
  induction n generalizing r with
  | zero => exact .inl ⟨[], r, rfl, rfl⟩
  | succ n ih =>
    rcases r.acquire_cases 4 with ⟨t, ht, h⟩ | ⟨k, hk, h⟩
    · rcases ih (r.after 4) with ⟨t', r', ht', h'⟩ | ⟨k, r', hk, h'⟩
      · exact .inl ⟨t ++ t', r', by simp; omega, by simp [Rbs.drawKeys, h, h']⟩
      · exact .inr ⟨4 + k, r', by omega, by simp [Rbs.drawKeys, h, h']⟩
    · exact .inr ⟨k, r.after k, by omega, by simp [Rbs.drawKeys, h]⟩

/-! ### Moving a result back -/

/-- The text of a block to which the host has moved the output back is that output (30_encoding.md R104). -/
theorem text_movedBack {t u : State} (h : movedBack t u) : u.text = t.outText := by
  rw [State.text, State.outText, h.1]
  exact State.slice_congr h.2.1

end Sys2Proof.Machine
end

