-- ==== Sys2Proof/Laws/Exec.lean ====
section
/-! SUPPORT. Everything a completion step can do, said once (20_memory.md R66, R71, 60_exceptions.md R235). -/

namespace Sys2Proof.Machine

/-- AFF_INV finds the inverse 19 of 11 (41_affine_modinv.md R133). -/
theorem modInv26_affineA : modInv26 Config.affineA = some 19 := by decide

/-- Everything a completion or error step can do: the errors Length and Symbol, an output text, and the five commands that
write something else. -/
theorem exec_cases {i : Instr} {s t : State} (h : exec i s = .next t) :
    (t = s.raise (.length s.inLen) ∧ i ≠ .affInv ∧
      (s.cap < s.inLen.toNat ∨ (i = .pfDec ∧ s.inLen.toNat % 2 = 1) ∨ (i = .feistelDec ∧ s.inLen.toNat % 8 ≠ 0))) ∨
    (∃ j, t = s.raise (.symbol j) ∧ (i = .pfEnc ∨ i = .pfDec)) ∨
    (∃ u, t = (s.setOutput u).complete ∧ u.length ≤ s.cap ∧ textProducing i = true ∧ i ≠ .affineDec ∧ i ≠ .feistelEnc) ∨
    (∃ u, t = ((s.setInv 19).setOutput u).complete ∧ u.length ≤ s.cap ∧ i = .affineDec) ∨
    (t = (s.setInv 19).complete ∧ i = .affInv) ∨
    (t = (s.setMatrix (buildKM s.text)).complete ∧ i = .pfKeymx) ∨
    (t = keygenState s ∧ s.inLen.toNat ≤ s.cap ∧ i = .otpKeygen) ∨
    (t = feistelEncState (feistelPad s.text) s ∧ (feistelPad s.text).length ≤ s.cap ∧ i = .feistelEnc) := by
  cases i
  case affInv =>
    simp only [exec, execAffInv, modInv26_affineA] at h
    exact .inr (.inr (.inr (.inr (.inl ⟨by simpa using h.symm, rfl⟩))))
  case affineDec =>
    simp only [exec, execAffineDec, modInv26_affineA] at h
    rcases guardLength_cases h with ⟨hl, rfl⟩ | ⟨-, h⟩
    · exact .inl ⟨rfl, by decide, .inl hl⟩
    · obtain ⟨hu, rfl⟩ := emit_cases h
      exact .inr (.inr (.inr (.inl ⟨_, rfl, by simpa using hu, rfl⟩)))
  case otpKeygen =>
    rcases guardLength_cases h with ⟨hl, rfl⟩ | ⟨hl, h⟩
    · exact .inl ⟨rfl, by decide, .inl hl⟩
    · exact .inr (.inr (.inr (.inr (.inr (.inr (.inl ⟨by simpa using h.symm, hl, rfl⟩))))))
  case pfKeymx =>
    rcases guardLength_cases h with ⟨hl, rfl⟩ | ⟨-, h⟩
    · exact .inl ⟨rfl, by decide, .inl hl⟩
    · exact .inr (.inr (.inr (.inr (.inr (.inl ⟨by simpa using h.symm, rfl⟩)))))
  case feistelEnc =>
    rcases guardLength_cases h with ⟨hl, rfl⟩ | ⟨-, h⟩
    · exact .inl ⟨rfl, by decide, .inl hl⟩
    · obtain ⟨hu, rfl⟩ := guardOutput_cases h
      exact .inr (.inr (.inr (.inr (.inr (.inr (.inr ⟨rfl, hu, rfl⟩))))))
  case pfEnc =>
    rcases guardLength_cases h with ⟨hl, rfl⟩ | ⟨-, h⟩
    · exact .inl ⟨rfl, by decide, .inl hl⟩
    · unfold emitSubst at h
      split at h
      · exact .inr (.inl ⟨_, by simpa using h.symm, .inl rfl⟩)
      · obtain ⟨hu, rfl⟩ := emit_cases h
        exact .inr (.inr (.inl ⟨_, rfl, hu, rfl, by decide, by decide⟩))
  case pfDec =>
    rcases guardLength_cases h with ⟨hl, rfl⟩ | ⟨-, h⟩
    · exact .inl ⟨rfl, by decide, .inl hl⟩
    · split at h
      · exact .inl ⟨by simpa using h.symm, by decide, .inr (.inl ⟨rfl, ‹_›⟩)⟩
      · unfold emitSubst at h
        split at h
        · exact .inr (.inl ⟨_, by simpa using h.symm, .inr rfl⟩)
        · obtain ⟨hu, rfl⟩ := emit_cases h
          exact .inr (.inr (.inl ⟨_, rfl, hu, rfl, by decide, by decide⟩))
  case feistelDec =>
    rcases guardLength_cases h with ⟨hl, rfl⟩ | ⟨-, h⟩
    · exact .inl ⟨rfl, by decide, .inl hl⟩
    · split at h
      · exact .inl ⟨by simpa using h.symm, by decide, .inr (.inr ⟨rfl, ‹_›⟩)⟩
      · obtain ⟨hu, rfl⟩ := emit_cases h
        exact .inr (.inr (.inl ⟨_, rfl, hu, rfl, by decide, by decide⟩))
  all_goals
    rcases guardLength_cases h with ⟨hl, rfl⟩ | ⟨-, h⟩
    · exact .inl ⟨rfl, by decide, .inl hl⟩
    · obtain ⟨hu, rfl⟩ := emit_cases h
      exact .inr (.inr (.inl ⟨_, rfl, hu, rfl, by decide, by decide⟩))

/-- Everything OTP_KEYGEN can do after its length check (42_otp.md R154). -/
theorem keygenState_cases (s : State) :
    (s.inLen.toNat = 0 ∧ keygenState s = s.complete) ∨
    (∃ k r, k.length = s.inLen.toNat ∧ s.rbs.acquire s.inLen.toNat = .bytes k r ∧
      keygenState s = ((s.setRbs r).setKey k).complete) ∨
    (∃ k r, k < s.inLen.toNat ∧ s.rbs.acquire s.inLen.toNat = .short k r ∧
      keygenState s = ((s.setRbs r).loseKey s.inLen.toNat).raise (.rbsShort k)) := by
  unfold keygenState
  split
  · exact .inl ⟨‹_›, rfl⟩
  · rcases Rbs.acquire_cases s.rbs s.inLen.toNat with ⟨k, hk, h⟩ | ⟨k, hk, h⟩ <;> rw [h]
    · exact .inr (.inl ⟨k, _, hk, rfl, rfl⟩)
    · exact .inr (.inr ⟨k, _, hk, rfl, rfl⟩)

/-- Everything FEISTEL_ENC can do on the padded text `w` (44_feistel.md R206). -/
theorem feistelEncState_cases (w : Text) (s : State) :
    (∃ k r, k.length = 32 ∧ s.rbs.drawKeys 8 = .bytes k r ∧
      feistelEncState w s = (((s.setRbs r).setSchedule k).setOutput (encRounds w k)).complete) ∨
    (∃ k r, k < 32 ∧ s.rbs.drawKeys 8 = .short k r ∧
      feistelEncState w s = (s.setRbs r).loseSchedule.raise (.rbsShort k)) := by
  unfold feistelEncState
  rcases Rbs.drawKeys_cases 8 s.rbs with ⟨k, r, hk, h⟩ | ⟨k, r, hk, h⟩ <;> rw [h]
  · exact .inl ⟨k, r, hk, rfl, rfl⟩
  · exact .inr ⟨k, r, hk, rfl, rfl⟩

end Sys2Proof.Machine
end

