-- ==== Sys2Proof/Laws/PerInstr.lean ====
section
/-! SUPPORT. What holds of every command as syntax, one lemma per constructor (30_encoding.md R90, R93, R94, R96). -/

namespace Sys2Proof.Laws.Encoding

/-- The command is well formed, its byte is legal by the rules about UNIT and FUNC alone, and the two fields of its byte are
its unit and its function. -/
def Statement (i : Instr) : Prop :=
  i.wf = true ∧ legalByte (encode i) = true ∧ unitField (encode i) = i.unit ∧ funcField (encode i) = i.func

theorem caesarEnc : Statement .caesarEnc := ⟨by decide, by decide, by decide, by decide⟩

theorem caesarDec : Statement .caesarDec := ⟨by decide, by decide, by decide, by decide⟩

theorem affineEnc : Statement .affineEnc := ⟨by decide, by decide, by decide, by decide⟩

theorem affineDec : Statement .affineDec := ⟨by decide, by decide, by decide, by decide⟩

theorem affInv : Statement .affInv := ⟨by decide, by decide, by decide, by decide⟩

theorem otpEnc : Statement .otpEnc := ⟨by decide, by decide, by decide, by decide⟩

theorem otpDec : Statement .otpDec := ⟨by decide, by decide, by decide, by decide⟩

theorem otpPrep : Statement .otpPrep := ⟨by decide, by decide, by decide, by decide⟩

theorem otpKeygen : Statement .otpKeygen := ⟨by decide, by decide, by decide, by decide⟩

theorem pfEnc : Statement .pfEnc := ⟨by decide, by decide, by decide, by decide⟩

theorem pfDec : Statement .pfDec := ⟨by decide, by decide, by decide, by decide⟩

theorem pfPrep : Statement .pfPrep := ⟨by decide, by decide, by decide, by decide⟩

theorem pfKeymx : Statement .pfKeymx := ⟨by decide, by decide, by decide, by decide⟩

theorem feistelEnc : Statement .feistelEnc := ⟨by decide, by decide, by decide, by decide⟩

theorem feistelDec : Statement .feistelDec := ⟨by decide, by decide, by decide, by decide⟩

theorem feistelPad : Statement .feistelPad := ⟨by decide, by decide, by decide, by decide⟩

end Sys2Proof.Laws.Encoding
end

