-- ==== Sys2Proof/Laws/Step.lean ====
section
/-! SUPPORT. What a step can do, said once. -/

namespace Sys2Proof.Machine

theorem State.engineTurn_iff (s : State) : s.engineTurn = true ↔ s.busy = true ∧ (s.delay = 0 ∨ s.script = []) := by
  simp [State.engineTurn, List.isEmpty_iff]

theorem decode_eq (b : Byte) :
    decode b = (match decode? b with | some i => .ok i | none => .error (illegalReason b)) := rfl

theorem decode?_of_decode {b : Byte} {i : Instr} (h : decode b = .ok i) : decode? b = some i := by
  rw [decode_eq] at h
  split at h
  · cases h; assumption
  · cases h

/-- Everything a step can do: the engine completes the command OP names, or raises IllegalCommand, or the host moves. -/
theorem step_cases {s t : State} (h : step s = .next t) :
    (s.engineTurn = true ∧ ∃ i, decode s.op = .ok i ∧ exec i s = .next t) ∨
    (s.engineTurn = true ∧ decode? s.op = none ∧ t = raiseIllegal s) ∨
    (s.engineTurn = false ∧ t = hostTurn s) := by
  unfold step at h
  split at h
  · rename_i he
    unfold engineStep at h
    split at h
    · exact .inl ⟨he, _, ‹_›, h⟩
    · rename_i hd
      refine .inr (.inl ⟨he, ?_, by simpa using h.symm⟩)
      rw [decode_eq] at hd
      split at hd
      · cases hd
      · assumption
  · rename_i he
    exact .inr (.inr ⟨by simpa using he, by simpa using h.symm⟩)

/-- Everything the host's turn can do. -/
theorem hostTurn_cases (s : State) :
    (s.script = [] ∧ hostTurn s = s) ∨
    ∃ m rest, s.script = m :: rest ∧
      hostTurn s = performMove m { s with script := rest, delay := s.delay - 1 } := by
  unfold hostTurn
  split
  · exact .inl ⟨‹_›, rfl⟩
  · exact .inr ⟨_, _, ‹_›, rfl⟩

/-- A run of k + 1 steps whose first step answers a next state goes on from there. -/
theorem run_succ {s t : State} (h : step s = .next t) (k : Nat) :
    Host.Core.run Sys2Proof.core (k + 1) s = Host.Core.run Sys2Proof.core k t := by
  have hs : Sys2Proof.core.step s = .next t := h
  have hr := Host.Core.run.eq_2 Sys2Proof.core s k
  rw [hs] at hr
  exact hr

end Sys2Proof.Machine
end

