-- ==== Sys2Proof/Tests/Slice0.lean ====
section
/-! SUPPORT. Tests of single steps, with expected values from 95_test_vectors.md (ids V-.. in the docstrings) or worked out from
the rule a docstring names; ill-formed terms the checks refuse; and, for every statement with hypotheses, a witness that meets
them. -/

namespace Sys2Proof.Machine

/-! ### Helpers -/

/-- The reset state with a text in IBUF and its length in IN_LEN. -/
def Test.loaded (t : Text) : State :=
  { State.reset with ibuf := Memory.ofText t, inLen := BitVec.ofNat 16 t.length }

/-- The same with a key in KEYBUF. -/
def Test.keyed (k t : Text) : State := { Test.loaded t with keybuf := Memory.ofText k }

/-- The key matrix of V-P1, keyword MONARCHY. -/
def Test.monarchy : Text :=
  [0x4D, 0x4F, 0x4E, 0x41, 0x52, 0x43, 0x48, 0x59, 0x42, 0x44, 0x45, 0x46, 0x47, 0x4A, 0x4B, 0x4C, 0x50, 0x51, 0x53, 0x54,
   0x55, 0x56, 0x57, 0x58, 0x5A]

/-- A text in IBUF and the matrix MONARCHY in KM. -/
def Test.withMatrix (t : Text) : State := { Test.loaded t with km := Memory.ofText Test.monarchy }

/-- Schedule S1 of the vectors: bytes 1 to 32. -/
def Test.s1 : Text := (List.range 32).map (fun i => BitVec.ofNat 8 (i + 1))

/-- A text in IBUF and a source that has been told its next bytes. -/
def Test.sourced (bytes t : Text) : State := { Test.loaded t with rbs := State.reset.rbs.name bytes }

/-- A text in IBUF and a source with only `n` bytes left. -/
def Test.dry (n : Nat) (t : Text) : State := { Test.loaded t with rbs := State.reset.rbs.cutShort n }

/-- A text in IBUF and a schedule in RKS. -/
def Test.scheduled (k t : Text) : State := { Test.loaded t with rks := Memory.ofText k }

/-- The reset state with a length in IN_LEN; IBUF is all zeros. -/
def Test.long (n : Nat) : State := { State.reset with inLen := BitVec.ofNat 16 n }

/-- Whether an outcome is a next state that passes a check. -/
def Test.next (r : Result) (p : State → Bool) : Bool :=
  match r with
  | .next t => p t
  | _ => false

/-- Whether an outcome is a completion (STATUS 0x02) with this output text. -/
def Test.gives (t : Text) (r : Result) : Bool :=
  Test.next r fun s => decide (s.outText = t) && decide (s.outLen.toNat = t.length) && decide (s.status = 0x02)

/-- Whether an outcome is the error of this STATUS and EINFO. -/
def Test.fails (status : Byte) (info : Half16) (r : Result) : Bool :=
  Test.next r fun s => decide (s.status = status) && decide (s.einfo = info)

/-- The next state of an outcome that has one. -/
def Test.after (r : Result) : State :=
  match r with
  | .next t => t
  | _ => State.reset

theorem Test.after_eq {r : Result} (h : Test.next r (fun _ => true) = true) : r = .next (Test.after r) := by
  unfold Test.next at h
  unfold Test.after
  split at h
  · rfl
  · cases h

/-- The host's moves, made one after the other without the engine. -/
def Test.moves (ms : List HostMove) (s : State) : State := ms.foldl (fun s m => performMove m s) s

/-- The state after `mov`: the output text in IBUF, its length in IN_LEN (R104). -/
def Test.moved (t : State) : State := { t with ibuf := Memory.ofText t.outText, inLen := t.outLen }

theorem Test.movedBack_moved (t : State) : movedBack t (Test.moved t) := by
  refine ⟨rfl, fun i hi => ?_, rfl⟩
  have h : (Test.moved t).peek .ibuf i = t.outText.getD i 0 := Memory.read_ofText _ _
  rw [h]
  exact State.getD_slice t .obuf hi

/-! ### Decoding, one word of every family written out as UNIT and FUNC (R90 to R94) -/

theorem test_decode_caesar : decode 0b0001_0000 = .ok .caesarEnc ∧ decode 0b0001_0001 = .ok .caesarDec := ⟨rfl, rfl⟩

theorem test_decode_affine :
    decode 0b0010_0000 = .ok .affineEnc ∧ decode 0b0010_0001 = .ok .affineDec ∧ decode 0b0010_0011 = .ok .affInv :=
  ⟨rfl, rfl, rfl⟩

theorem test_decode_otp :
    decode 0b0011_0000 = .ok .otpEnc ∧ decode 0b0011_0001 = .ok .otpDec ∧ decode 0b0011_0010 = .ok .otpPrep ∧
      decode 0b0011_0011 = .ok .otpKeygen := ⟨rfl, rfl, rfl, rfl⟩

theorem test_decode_playfair :
    decode 0b0100_0000 = .ok .pfEnc ∧ decode 0b0100_0001 = .ok .pfDec ∧ decode 0b0100_0010 = .ok .pfPrep ∧
      decode 0b0100_0011 = .ok .pfKeymx := ⟨rfl, rfl, rfl, rfl⟩

theorem test_decode_feistel :
    decode 0b0101_0000 = .ok .feistelEnc ∧ decode 0b0101_0001 = .ok .feistelDec ∧ decode 0b0101_0010 = .ok .feistelPad :=
  ⟨rfl, rfl, rfl⟩

/-- R96: an absent unit, an absent function, and the four missing pairs. -/
theorem test_decode_illegal :
    decode 0x00 = .error .noSuchUnit ∧ decode 0x60 = .error .noSuchUnit ∧ decode 0xFF = .error .noSuchUnit ∧
      decode 0x14 = .error .noSuchFunction ∧ decode 0x5F = .error .noSuchFunction ∧
      decode 0x12 = .error .functionMissingInUnit ∧ decode 0x13 = .error .functionMissingInUnit ∧
      decode 0x22 = .error .functionMissingInUnit ∧ decode 0x53 = .error .functionMissingInUnit :=
  ⟨rfl, rfl, rfl, rfl, rfl, rfl, rfl, rfl, rfl⟩

/-- The opcode map has no byte and no command twice (R92). -/
theorem test_opcodeMap_unambiguous : (opcodeMap.map Prod.fst).Nodup ∧ (opcodeMap.map Prod.snd).Nodup := by decide

/-- R96, R97: exactly the bytes of the opcode map are legal by the rules about UNIT and FUNC. -/
theorem test_legalByte_is_opcodeMap : ∀ b : Byte, legalByte b = (decode? b).isSome := by decide

theorem test_decodeTableWord : decodeTableWord 8 0x23 = some .affInv ∧ decodeTableWord 8 0x54 = none := by decide

/-! ### Ill-formed terms are refused -/

theorem test_unitExists_refuses : unitExists 0 = false ∧ unitExists 6 = false ∧ unitExists 15 = false := by decide

theorem test_funcExists_refuses : funcExists 4 = false ∧ funcExists 15 = false := by decide

theorem test_pairMissing_finds :
    pairMissing 1 2 = true ∧ pairMissing 1 3 = true ∧ pairMissing 2 2 = true ∧ pairMissing 5 3 = true ∧
      pairMissing 2 3 = false := by decide

theorem test_legalByte_refuses : legalByte 0x00 = false ∧ legalByte 0x14 = false ∧ legalByte 0x53 = false := by decide

theorem test_capOk_refuses : capOk 0 = false ∧ capOk 12 = false ∧ capOk 65536 = false ∧ capOk 8 = true ∧
    capOk 65528 = true := by decide

theorem test_affineOk_refuses : affineOk 13 = false ∧ affineOk 2 = false ∧ affineOk 11 = true := by decide

/-! ### Placing and running an instruction -/

/-- The placed command is the one the next step completes (R71). -/
theorem test_withFetchWord_runs :
    Test.next (step (State.reset.withFetchWord 8 0x23)) (fun s => decide (s.inv = 19) && decide (s.status = 0x02)) = true := by
  decide

/-- V-E2, the completion step of the byte 0x00. -/
theorem test_illegal_byte : Test.fails 0x14 0x0000 (step (State.reset.withFetchWord 8 0x00)) = true := by decide

/-- V-E4, a missing pair. -/
theorem test_missing_pair : Test.fails 0x14 0x0053 (step (State.reset.withFetchWord 8 0x53)) = true := by decide

/-! ### Caesar -/

/-- V-C8: the three class boundaries. -/
theorem test_caesarEnc_boundaries :
    Test.gives [0x30, 0x41, 0x61] (exec .caesarEnc { Test.loaded [0x7A, 0x39, 0x5A] with shift := 1 }) = true := by
  decide

/-- V-C11: SHIFT = -2147483648. -/
theorem test_caesarEnc_lowest_shift :
    Test.gives [0x59, 0x5A, 0x61] (exec .caesarEnc { Test.loaded [0x61, 0x62, 0x63] with shift := 0x80000000 }) = true := by
  decide

/-- V-C2. -/
theorem test_caesarDec_def :
    Test.gives [0x61, 0x62, 0x63] (exec .caesarDec { Test.loaded [0x64, 0x65, 0x66] with shift := 3 }) = true := by
  decide

/-- The other direction of V-C11: the shift is negated in the integers, where 2147483648 exists (R113). -/
theorem test_caesarDec_lowest_shift :
    Test.gives [0x61, 0x62, 0x63] (exec .caesarDec { Test.loaded [0x59, 0x5A, 0x61] with shift := 0x80000000 }) = true := by
  decide

/-- V-C15: IN_LEN = CAP + 1. -/
theorem test_caesarEnc_too_long : Test.fails 0x24 257 (exec .caesarEnc (Test.long 257)) = true := by decide

/-! ### Affine -/

/-- V-A7: AZ az 09. -/
theorem test_affineEnc_ends :
    Test.gives [0x54, 0x49, 0x20, 0x61, 0x7A, 0x20, 0x30, 0x39]
      (exec .affineEnc (Test.loaded [0x41, 0x5A, 0x20, 0x61, 0x7A, 0x20, 0x30, 0x39])) = true := by decide

/-- V-A8: the neighbours of the letters, and 0 and 255. -/
theorem test_affineEnc_neighbours :
    Test.gives [0x40, 0x5B, 0x00, 0xFF] (exec .affineEnc (Test.loaded [0x40, 0x5B, 0x00, 0xFF])) = true := by decide

/-- V-A3: SLKKR decrypts to HELLO. -/
theorem test_affineDec_hello :
    Test.gives [0x48, 0x45, 0x4C, 0x4C, 0x4F] (exec .affineDec (Test.loaded [0x53, 0x4C, 0x4B, 0x4B, 0x52])) = true := by
  decide

/-- V-A9: INV is written even for an empty text. -/
theorem test_affineDec_empty :
    Test.next (exec .affineDec State.reset) (fun s => decide (s.inv = 19) && decide (s.outLen = 0)) = true := by
  decide

/-- V-A1: AFF_INV, whatever IN_LEN is (R134). -/
theorem test_affInv_any_length :
    Test.next (exec .affInv (Test.long 0xFFFF)) (fun s => decide (s.inv = 19) && decide (s.status = 0x02)) = true := by
  decide

/-- The table of inverses of V-A section 2.2: 3 has 9, 25 has itself, 13 and 26 have none. -/
theorem test_modInv26_table :
    modInv26 3 = some 9 ∧ modInv26 25 = some 25 ∧ modInv26 5 = some 21 ∧ modInv26 13 = none ∧ modInv26 26 = none := by
  decide

/-! ### One-time pad -/

/-- V-O1: comma and exclamation mark go, the space stays. -/
theorem test_otpPrep_bob :
    Test.gives [0x48, 0x69, 0x20, 0x42, 0x6F, 0x62, 0, 0]
      (exec .otpPrep (Test.loaded [0x48, 0x69, 0x2C, 0x20, 0x42, 0x6F, 0x62, 0x21])) = true := by decide

/-- V-O2e: a zero byte inside the text does not end it. -/
theorem test_otpPrep_inner_zero :
    Test.gives [0x41, 0x20, 0x62, 0x63, 0x00] (exec .otpPrep (Test.loaded [0x41, 0x20, 0x62, 0x00, 0x63])) = true := by
  decide

/-- V-O3: the tail shows the key. -/
theorem test_otpEnc_bob :
    Test.gives [0x12, 0xCC, 0xDF, 0x42, 0x7C, 0x55, 0xC0, 0xDE]
      (exec .otpEnc (Test.keyed [0x5A, 0xA5, 0xFF, 0x00, 0x13, 0x37, 0xC0, 0xDE]
        [0x48, 0x69, 0x2C, 0x20, 0x42, 0x6F, 0x62, 0x21])) = true := by decide

/-- V-O7: the key of the reset state. -/
theorem test_otpEnc_no_key :
    Test.gives [0x61, 0x62, 0x63] (exec .otpEnc (Test.loaded [0x61, 0x62, 0x63])) = true := by decide

/-- V-O6: no filter. -/
theorem test_otpDec_no_filter :
    Test.gives [0x61, 0x62, 0x63, 0, 0] (exec .otpDec (Test.keyed [1, 2, 3, 4, 5] [0x60, 0x60, 0x60, 4, 5])) = true := by
  decide

/-- V-O8: the source's bytes in order. -/
theorem test_otpKeygen_named :
    Test.next (exec .otpKeygen (Test.sourced [0x5A, 0xA5, 0xFF, 0x00, 0x13, 0x37, 0xC0, 0xDE] (zeros 8)))
      (fun s => decide (s.otpKey = [0x5A, 0xA5, 0xFF, 0x00, 0x13, 0x37, 0xC0, 0xDE]) && decide (s.status = 0x02)) = true := by
  decide

/-- V-O10. -/
theorem test_otpKeygen_short : Test.fails 0x44 5 (exec .otpKeygen (Test.dry 5 (zeros 8))) = true := by decide

/-! ### Playfair -/

set_option maxRecDepth 8000 in
/-- V-P1. -/
theorem test_pfKeymx_monarchy :
    Test.next (exec .pfKeymx (Test.loaded [0x4D, 0x4F, 0x4E, 0x41, 0x52, 0x43, 0x48, 0x59]))
      (fun s => decide (s.matrix = Test.monarchy) && decide (s.status = 0x02)) = true := by decide

set_option maxRecDepth 8000 in
/-- V-P3: KILO, the letter I places nothing. -/
theorem test_pfKeymx_kilo :
    buildKM [0x4B, 0x49, 0x4C, 0x4F] =
      [0x4B, 0x4C, 0x4F, 0x41, 0x42, 0x43, 0x44, 0x45, 0x46, 0x47, 0x48, 0x4A, 0x4D, 0x4E, 0x50, 0x51, 0x52, 0x53, 0x54, 0x55,
       0x56, 0x57, 0x58, 0x59, 0x5A] := by decide

/-- V-P12: BALLOON becomes BALXOXNX. -/
theorem test_pfPrep_balloon :
    Test.gives [0x42, 0x41, 0x4C, 0x58, 0x4F, 0x58, 0x4E, 0x58]
      (exec .pfPrep (Test.loaded [0x42, 0x41, 0x4C, 0x4C, 0x4F, 0x4F, 0x4E])) = true := by decide

/-- V-P17b: equality is tested after I has become J. -/
theorem test_pfPrep_ij : Test.gives [0x4A, 0x58] (exec .pfPrep (Test.loaded [0x49, 0x4A])) = true := by decide

/-- V-P10: INSTRUMENTS, all three rules and the pad. -/
theorem test_pfEnc_instruments :
    Test.gives [0x47, 0x41, 0x54, 0x4C, 0x4D, 0x5A, 0x43, 0x4C, 0x52, 0x51, 0x58, 0x41]
      (exec .pfEnc (Test.withMatrix [0x49, 0x4E, 0x53, 0x54, 0x52, 0x55, 0x4D, 0x45, 0x4E, 0x54, 0x53])) = true := by
  decide

/-- V-P33: no matrix. -/
theorem test_pfEnc_no_matrix : Test.fails 0x34 0 (exec .pfEnc (Test.loaded [0x41, 0x42])) = true := by decide

/-- V-P17 backwards: SA decrypts to JX, with a wrap of the row index. -/
theorem test_pfDec_wrap : Test.gives [0x4A, 0x58] (exec .pfDec (Test.withMatrix [0x53, 0x41])) = true := by decide

/-- V-P31: GAt1. -/
theorem test_pfDec_symbol : Test.fails 0x34 2 (exec .pfDec (Test.withMatrix [0x47, 0x41, 0x74, 0x31])) = true := by
  decide

/-- V-P15, V-P16: the text XX is in preprocessed form and its ciphertext ZZ is not (its PfPrep is ZX). This is why the
statement CiphertextIsDecryptable does not follow the first sentence of R186 for texts with a digraph XX. -/
theorem test_doubled_x_leaves_the_form :
    Test.gives [0x5A, 0x5A] (exec .pfEnc (Test.withMatrix [0x58, 0x58])) = true ∧ pfPrep [0x5A, 0x5A] = [0x5A, 0x58] := by
  decide

/-! ### Feistel -/

/-- V-F1: an unaligned and an aligned text. -/
theorem test_feistelPad :
    Test.gives [0x48, 0x45, 0x4C, 0x4C, 0x4F, 0, 0, 0] (exec .feistelPad (Test.loaded [0x48, 0x45, 0x4C, 0x4C, 0x4F])) = true ∧
      Test.gives [0x41, 0x42, 0x43, 0x44, 0x45, 0x46, 0x47, 0x48]
        (exec .feistelPad (Test.loaded [0x41, 0x42, 0x43, 0x44, 0x45, 0x46, 0x47, 0x48])) = true := by decide

/-- V-F9: two blocks under S1, which RKS holds afterwards. -/
theorem test_feistelEnc_two_blocks :
    Test.gives [0xFC, 0x42, 0x5E, 0x44, 0xBD, 0xC6, 0x59, 0xC8, 0x1D, 0, 0, 0, 0xD9, 0, 0, 0]
      (exec .feistelEnc (Test.sourced Test.s1 [0x41, 0x42, 0x43, 0x44, 0x45, 0x46, 0x47, 0x48, 0x49])) = true := by
  decide

/-- V-F15: the source goes dry inside the third key. -/
theorem test_feistelEnc_short :
    Test.fails 0x44 10 (exec .feistelEnc (Test.dry 10 [0x41, 0x42, 0x43, 0x44, 0x45, 0x46, 0x47, 0x48])) = true := by
  decide

/-- V-F4. -/
theorem test_feistelDec_hello :
    Test.gives [0x48, 0x45, 0x4C, 0x4C, 0x4F, 0, 0, 0]
      (exec .feistelDec (Test.scheduled Test.s1 [0x7B, 0xF5, 0xBC, 0x4C, 0xB4, 0x10, 0x04, 0x00])) = true := by decide

/-- V-F14. -/
theorem test_feistelDec_unaligned : Test.fails 0x24 7 (exec .feistelDec (Test.long 7)) = true := by decide

/-- V-F2, after round 0: the round and its inverse. -/
theorem test_feistel_round :
    encRound ⟨1, 2, 3, 4⟩ ⟨⟨0x41, 0x42, 0x43, 0x44⟩, ⟨0x45, 0x46, 0x47, 0x48⟩⟩ =
        ⟨⟨0x45, 0x46, 0x47, 0x48⟩, ⟨0x04, 0xCE, 0x96, 0x64⟩⟩ ∧
      decRound ⟨1, 2, 3, 4⟩ ⟨⟨0x45, 0x46, 0x47, 0x48⟩, ⟨0x04, 0xCE, 0x96, 0x64⟩⟩ =
        ⟨⟨0x41, 0x42, 0x43, 0x44⟩, ⟨0x45, 0x46, 0x47, 0x48⟩⟩ := by decide

/-! ### The host's accesses -/

/-- V-E5: a write of 0x123 to CMD latches 0x23. -/
theorem test_write_cmd_truncates : (hostWriteReg 0x00 0x123 State.reset).op = 0x23 ∧
    (hostWriteReg 0x00 0x123 State.reset).busy = true := by decide

/-- V-E6: in the fault state a write to CMD is ignored. -/
theorem test_write_cmd_in_fault_state :
    hostWriteReg 0x00 0x23 (raiseIllegal (State.reset.latch 0x00)) = raiseIllegal (State.reset.latch 0x00) := by decide

/-- V-E10: writes to read-only registers and memories are ignored. -/
theorem test_ignored_writes :
    Test.moves [.wr 0x04 5, .wr 0x06 5, .wr 0x01 0xFF, .wb .obuf 0 1, .wb .km 0 0x41] State.reset = State.reset := by decide

/-- V-E11, V-E12: IN_LEN is cut to 16 bits, CTRL to bit 0. -/
theorem test_register_widths :
    (hostWriteReg 0x03 0x12345 State.reset).readReg 0x03 = 0x2345 ∧
      (hostWriteReg 0x02 0xFF State.reset).readReg 0x02 = 0x01 := by decide

/-- V-E9. -/
theorem test_constants :
    State.reset.readReg 0x07 = 11 ∧ State.reset.readReg 0x08 = 19 ∧ State.reset.readReg 0x0A = 256 ∧
      State.reset.readReg 0x0B = 0 := by decide

/-- V-E7, V-E8: irq follows IE and DONE, ERR at once. -/
theorem test_irq :
    (hostWriteReg 0x02 1 (raiseIllegal (State.reset.latch 0x12))).irq = true ∧
      (State.accept 0x23 { State.reset with ie := true, done := true }).irq = false := by decide

/-! ### Witnesses: concrete states that meet the hypotheses of the statements -/

/-- A text length of 0, of CAP, and of CAP + 1: the boundaries of the two clauses of every result statement. -/
def Test.LengthBoundaries : Prop :=
  (Test.long 0).inLen.toNat ≤ (Test.long 0).cap ∧ (Test.long 256).inLen.toNat ≤ (Test.long 256).cap ∧
    (Test.long 257).cap < (Test.long 257).inLen.toNat ∧ (Test.long 0xFFFF).cap < (Test.long 0xFFFF).inLen.toNat

theorem Test.lengthBoundaries : Test.LengthBoundaries := by unfold Test.LengthBoundaries; decide

theorem Test.admissible_long (n : Nat) : (Test.long n).admissible := by
  change capOk (Test.long 0).cap = true
  decide

/-- A command in progress whose completion step is next; and one with host moves before it; and one without a host. -/
def Test.waiting : State := { State.reset.latch 0x10 with delay := 1, script := [.rd 0x01, .wait] }

theorem witness_StepRunsDecodedCommand :
    ((State.reset.latch 0x10).busy = true ∧ (State.reset.latch 0x10).delay = 0 ∧
      decode (State.reset.latch 0x10).op = .ok .caesarEnc) ∧
    (Test.waiting.busy = true ∧ Test.waiting.delay ≠ 0 ∧ Test.waiting.script = .rd 0x01 :: [.wait]) ∧
    (State.reset.busy = false ∧ State.reset.script = []) := by
  refine ⟨⟨rfl, rfl, rfl⟩, ⟨rfl, ?_, rfl⟩, rfl, rfl⟩
  decide

theorem witness_IllegalByteOnlyRaises :
    (State.reset.latch 0x12).busy = true ∧ (State.reset.latch 0x12).delay = 0 ∧
      ∀ i, decode (State.reset.latch 0x12).op ≠ .ok i := by
  refine ⟨rfl, rfl, fun i h => ?_⟩
  have h' : decode (State.reset.latch 0x12).op = .error .functionMissingInUnit := rfl
  rw [h'] at h
  cases h

/-- The lowest and the highest admissible CAP and the reference one. -/
theorem witness_EveryStepGoesOn :
    State.admissible { State.reset with capr := 8 } ∧ State.admissible { State.reset with capr := 65528 } ∧
      State.reset.admissible := by
  unfold State.admissible; decide

theorem witness_BusyEnds :
    Test.waiting.admissible ∧ Test.waiting.busy = true ∧ (State.reset.latch 0x23).admissible ∧
      (State.reset.latch 0x23).busy = true := by
  unfold State.admissible; decide

/-- Both ends of each of the three ranges, and the bytes next to them. -/
theorem witness_CaesarAlphabetIsInverse :
    ord62 0x30 = some 0 ∧ ord62 0x39 = some 9 ∧ ord62 0x41 = some 10 ∧ ord62 0x5A = some 35 ∧ ord62 0x61 = some 36 ∧
      ord62 0x7A = some 61 ∧ ord62 0x2F = none ∧ ord62 0x3A = none ∧ ord62 0x40 = none ∧ ord62 0x5B = none ∧
      ord62 0x60 = none ∧ ord62 0x7B = none ∧ chr62 9 = 0x39 ∧ chr62 10 = 0x41 ∧ chr62 35 = 0x5A ∧ chr62 36 = 0x61 := by
  decide

theorem witness_CaesarEncResult : Test.LengthBoundaries := Test.lengthBoundaries

theorem witness_CaesarDecResult : Test.LengthBoundaries := Test.lengthBoundaries

/-- The text abc with SHIFT = 3. -/
def Test.abc3 : State := { Test.loaded [0x61, 0x62, 0x63] with shift := 3 }

theorem witness_CaesarRoundTrip :
    (∃ s t u : State, s.inLen.toNat ≤ s.cap ∧ movedBack t u ∧ u.shift = s.shift ∧ exec .caesarEnc s = .next t) ∧
    (∃ s t u : State, s.inLen.toNat ≤ s.cap ∧ movedBack t u ∧ u.shift = s.shift ∧ exec .caesarDec s = .next t) := by


  exact ⟨⟨Test.abc3, _, Test.moved _, by decide, Test.movedBack_moved _, rfl, rfl⟩,
    ⟨Test.abc3, _, Test.moved _, by decide, Test.movedBack_moved _, rfl, rfl⟩⟩

/-- An ordinary byte and a symbol; and the two shifts 2147483647 and -2147483647. -/
theorem witness_CaesarPassThroughAndPeriod :
    ord62 0x21 = none ∧ ord62 0x61 = some 36 ∧
      (0x80000001 : Word).toInt = -(State.shift { Test.abc3 with shift := 0x7FFFFFFF }).toInt ∧
      ∃ t, exec .caesarEnc { Test.abc3 with shift := 0x7FFFFFFF } = .next t :=
  ⟨by decide, by decide, by decide, _, rfl⟩

theorem witness_AffineEncResult : Test.LengthBoundaries := Test.lengthBoundaries

theorem witness_AffineDecResult : Test.LengthBoundaries := Test.lengthBoundaries

theorem witness_AffineRoundTrip :
    (∃ s t u : State, s.inLen.toNat ≤ s.cap ∧ movedBack t u ∧ exec .affineEnc s = .next t) ∧
    (∃ s t u : State, s.inLen.toNat ≤ s.cap ∧ movedBack t u ∧ exec .affineDec s = .next t) :=
  ⟨⟨Test.loaded [0x48, 0x69], _, Test.moved _, by decide, Test.movedBack_moved _, rfl⟩,
    ⟨Test.loaded [0x48, 0x69], _, Test.moved _, by decide, Test.movedBack_moved _, rfl⟩⟩

/-- The hardwired a, another a, a byte that is no letter, and the first and the last letter. -/
theorem witness_AffineAnyPairInverts :
    modInv26 11 = some 19 ∧ modInv26 3 = some 9 ∧ isUpper 0x61 = false ∧ ord26 0x61 = none ∧ ord26 0x41 = some 0 ∧
      ord26 0x5A = some 25 := by decide

theorem witness_OtpFilterForm : (0x61 : Byte) ∈ ([0x21, 0x61] : Text) ∧ inOtp 0x61 = true ∧ otpForm [0x61, 0] :=
  ⟨by decide, by decide, [0x61], 1, by decide, rfl⟩

theorem witness_OtpPrepResult : Test.LengthBoundaries := Test.lengthBoundaries

/-- Length 0; a full answer for 8 bytes and for none left over; a short read with 0 and with one byte missing; CAP + 1. -/
theorem witness_OtpKeygenResult :
    State.reset.inLen = 0 ∧
      ((Test.sourced (zeros 8) (zeros 8)).inLen ≠ 0 ∧
        (Test.sourced (zeros 8) (zeros 8)).inLen.toNat ≤ (Test.sourced (zeros 8) (zeros 8)).cap ∧
        ∃ k r, (Test.sourced (zeros 8) (zeros 8)).rbs.acquire (Test.sourced (zeros 8) (zeros 8)).inLen.toNat = .bytes k r) ∧
      (∃ r, (Test.dry 0 (zeros 8)).rbs.acquire (Test.dry 0 (zeros 8)).inLen.toNat = .short 0 r) ∧
      (∃ r, (Test.dry 7 (zeros 8)).rbs.acquire (Test.dry 7 (zeros 8)).inLen.toNat = .short 7 r) ∧
      Test.LengthBoundaries :=
  ⟨rfl, ⟨by decide, by decide, _, _, rfl⟩, ⟨_, rfl⟩, ⟨_, rfl⟩, Test.lengthBoundaries⟩

theorem witness_OtpEncResult : Test.LengthBoundaries := Test.lengthBoundaries

theorem witness_OtpDecResult : Test.LengthBoundaries := Test.lengthBoundaries

/-- The text a-b and the text ab, which is in preprocessed form. -/
theorem witness_OtpRoundTrip :
    (∃ s t u : State, s.inLen.toNat ≤ s.cap ∧ exec .otpEnc s = .next t ∧ movedBack t u ∧
      ∀ i, i < s.inLen.toNat → u.peek .keybuf i = s.peek .keybuf i) ∧
    (∃ s t u : State, s.inLen.toNat ≤ s.cap ∧ exec .otpEnc s = .next t ∧ movedBack t u ∧
      (∀ i, i < s.inLen.toNat → u.peek .keybuf i = s.peek .keybuf i) ∧ otpForm s.text) :=
  ⟨⟨Test.keyed [1, 2, 3] [0x61, 0x2D, 0x62], _, Test.moved _, by decide, rfl, Test.movedBack_moved _, fun _ _ => rfl⟩,
    ⟨Test.keyed [1, 2] [0x61, 0x62], _, Test.moved _, by decide, rfl, Test.movedBack_moved _, fun _ _ => rfl,
      [0x61, 0x62], 0, by decide, by decide⟩⟩

theorem witness_PfKeymxResult : Test.LengthBoundaries := Test.lengthBoundaries

theorem Test.pfForm_mo : pfForm [0x4D, 0x4F] := by
  refine ⟨by decide, by decide, fun k hk he => ?_⟩
  have : k = 0 := by simp only [List.length_cons, List.length_nil] at hk; omega
  subst this
  exact absurd he (by decide)

/-- The text AAI: a first digraph of equal letters at the lowest index, and an odd number of letters. -/
theorem witness_PfPrepForm :
    (([0x41, 0x41, 0x49] : Text).filter isUpper).map (fun c => if c = 0x49 then 0x4A else c) = ([0x41, 0x41, 0x4A] : Text) ∧
      2 * 1 < ([0x41, 0x41, 0x4A] : Text).length ∧ 2 * 0 + 1 < ([0x41, 0x41, 0x4A] : Text).length ∧
      ([0x41, 0x41, 0x4A] : Text).length % 2 = 1 ∧ pfForm [0x4D, 0x4F] :=
  ⟨by decide, by decide, by decide, by decide, Test.pfForm_mo⟩

/-- An even and an odd number of letters; a text as long as an even capacity. -/
theorem witness_PfPrepLength :
    (([0x41, 0x61, 0x42] : Text).filter isUpper).length % 2 = 0 ∧ (([0x41, 0x61] : Text).filter isUpper).length % 2 = 1 ∧
      8 % 2 = 0 ∧ (zeros 8).length ≤ 8 := by decide

theorem witness_PfPrepResult : (Test.long 0).admissible ∧ (Test.long 256).admissible ∧ (Test.long 257).admissible ∧
    Test.LengthBoundaries :=
  ⟨Test.admissible_long 0, Test.admissible_long 256, Test.admissible_long 257, Test.lengthBoundaries⟩

set_option maxRecDepth 20000 in
theorem Test.monarchy_built : builtMatrix Test.monarchy := ⟨by decide, by decide, by decide⟩

set_option maxRecDepth 20000 in
theorem Test.withMatrix_matrix : (Test.withMatrix [0x4D, 0x4F]).matrix = Test.monarchy := by decide

/-- A built matrix; the substitution of a text; no matrix and a text with a letter; CAP + 1. -/
theorem witness_PfEncResult :
    (Test.withMatrix [0x4D, 0x4F]).admissible ∧
      (Test.withMatrix [0x4D, 0x4F]).inLen.toNat ≤ (Test.withMatrix [0x4D, 0x4F]).cap ∧
      builtMatrix (Test.withMatrix [0x4D, 0x4F]).matrix ∧
      pfSubst Test.monarchy 1 0 (pfPrep [0x4D, 0x4F]) = .ok [0x4F, 0x4E] ∧
      (Test.loaded [0x41]).admissible ∧ (Test.loaded [0x41]).inLen.toNat ≤ (Test.loaded [0x41]).cap ∧
      (Test.loaded [0x41]).matrix = zeros 25 ∧ pfPrep (Test.loaded [0x41]).text ≠ [] ∧ Test.LengthBoundaries := by
  refine ⟨Test.admissible_long 0, by decide, ?_, by decide, Test.admissible_long 0, by decide, by decide, by decide,
    Test.lengthBoundaries⟩
  rw [Test.withMatrix_matrix]
  exact Test.monarchy_built

/-- All bytes located, at length 2 and at length CAP (zero bytes without a matrix); the first byte not located at index 0, and
at index 2; an odd length; a length beyond CAP. -/
theorem witness_PfDecResult :
    ((Test.withMatrix [0x4D, 0x4F]).inLen.toNat % 2 = 0 ∧
      ∀ i, i < (Test.withMatrix [0x4D, 0x4F]).inLen.toNat →
        locate (Test.withMatrix [0x4D, 0x4F]).matrix ((Test.withMatrix [0x4D, 0x4F]).peek .ibuf i) ≠ none) ∧
    ((Test.long 256).inLen.toNat ≤ (Test.long 256).cap ∧ (Test.long 256).inLen.toNat % 2 = 0 ∧
      ∀ i, locate (Test.long 256).matrix ((Test.long 256).peek .ibuf i) ≠ none) ∧
    locate (Test.loaded [0x41, 0x42]).matrix ((Test.loaded [0x41, 0x42]).peek .ibuf 0) = none ∧
    (locate (Test.withMatrix [0x47, 0x41, 0x74, 0x31]).matrix ((Test.withMatrix [0x47, 0x41, 0x74, 0x31]).peek .ibuf 2) = none ∧
      ∀ j, j < 2 → locate (Test.withMatrix [0x47, 0x41, 0x74, 0x31]).matrix
        ((Test.withMatrix [0x47, 0x41, 0x74, 0x31]).peek .ibuf j) ≠ none) ∧
    (Test.long 7).inLen.toNat % 2 = 1 ∧ (Test.long 258).cap < (Test.long 258).inLen.toNat := by
  refine ⟨⟨by decide, by decide⟩, ⟨by decide, by decide, fun i => ?_⟩, by decide, ⟨by decide, by decide⟩, by decide, by decide⟩
  have h : (Test.long 256).peek .ibuf i = 0 := rfl
  rw [h]
  decide

/-- A built matrix and the two corners of the grid; equal rows, equal columns, neither. -/
theorem witness_DigraphRules : builtMatrix Test.monarchy ∧ 0 < 5 ∧ 4 < 5 := ⟨Test.monarchy_built, by decide, by decide⟩

/-- The other clauses: the first and the last cell located; a byte in no cell; texts of even length whose substitution exists
(the last digraph at 2k + 1 = 3), fails at its first byte, and fails at its last byte. -/
theorem witness_DigraphRules_texts :
    locate Test.monarchy 0x4D = some (0, 0) ∧ locate Test.monarchy 0x5A = some (4, 4) ∧ (0x49 : Byte) ∉ Test.monarchy ∧
      (0x4D : Byte) ∈ Test.monarchy ∧ ([0x4D, 0x4F, 0x52, 0x4D] : Text).length % 2 = 0 ∧
      pfSubst Test.monarchy 1 0 [0x4D, 0x4F, 0x52, 0x4D] = .ok [0x4F, 0x4E, 0x4D, 0x4F] ∧
      2 * 1 + 1 < ([0x4D, 0x4F, 0x52, 0x4D] : Text).length ∧
      pfSubst Test.monarchy 1 0 [0x49, 0x4F, 0x52, 0x4D] = .error 0 ∧
      pfSubst Test.monarchy 1 0 [0x4D, 0x4F, 0x52, 0x49] = .error 3 := by decide

/-- No matrix and zero bytes, of length 0 and of length 4. -/
theorem witness_NoMatrixLocatesNothing :
    (0x41 : Byte) ≠ 0 ∧ (Test.long 0).matrix = zeros 25 ∧ (Test.long 0).text = zeros (Test.long 0).inLen.toNat ∧
      (Test.long 4).matrix = zeros 25 ∧ (Test.long 4).inLen.toNat ≤ (Test.long 4).cap ∧ (Test.long 4).inLen.toNat % 2 = 0 ∧
      (Test.long 4).text = zeros (Test.long 4).inLen.toNat := by decide

theorem witness_PfRoundTrip :
    (builtMatrix Test.monarchy ∧ pfForm [0x4D, 0x4F] ∧ pfSubst Test.monarchy 1 0 [0x4D, 0x4F] = .ok [0x4F, 0x4E]) ∧
    (∃ s t u : State, s.admissible ∧ s.inLen.toNat ≤ s.cap ∧ builtMatrix s.matrix ∧ exec .pfEnc s = .next t ∧
      movedBack t u ∧ ∀ a, u.peek .km a = s.peek .km a) := by
  refine ⟨⟨Test.monarchy_built, Test.pfForm_mo, by decide⟩, Test.withMatrix [0x4D, 0x4F], _, Test.moved _,
    Test.admissible_long 0, by decide, ?_, rfl, Test.movedBack_moved _, fun _ => rfl⟩
  rw [Test.withMatrix_matrix]
  exact Test.monarchy_built

/-- A located digraph in both directions, one of equal letters, and a text without equal letters. -/
theorem witness_CiphertextIsDecryptable :
    builtMatrix Test.monarchy ∧ pfDigraph Test.monarchy 1 0 0x4D 0x4F = .ok (0x4F, 0x4E) ∧
      pfDigraph Test.monarchy (-1) 0 0x4F 0x4E = .ok (0x4D, 0x4F) ∧ pfDigraph Test.monarchy 1 0 0x58 0x58 = .ok (0x5A, 0x5A) ∧
      pfForm [0x4D, 0x4F] ∧ pfSubst Test.monarchy 1 0 [0x4D, 0x4F] = .ok [0x4F, 0x4E] ∧
      ∀ k, 2 * k + 1 < 2 → ([0x4D, 0x4F] : Text).getD (2 * k) 0 ≠ ([0x4D, 0x4F] : Text).getD (2 * k + 1) 0 := by
  refine ⟨Test.monarchy_built, by decide, by decide, by decide, Test.pfForm_mo, by decide, fun k hk => ?_⟩
  have : k = 0 := by omega
  subst this
  decide

/-- Lengths 0 and 8; a text of length CAP and one of length CAP - 1. -/
theorem witness_FeistelPadIsLeast :
    ([] : Text).length % 8 = 0 ∧ (zeros 8).length % 8 = 0 ∧ 16 % 8 = 0 ∧ (zeros 16).length ≤ 16 ∧ (zeros 15).length ≤ 16 := by
  decide

theorem witness_FeistelPadResult : (Test.long 256).admissible ∧ Test.LengthBoundaries :=
  ⟨Test.admissible_long 256, Test.lengthBoundaries⟩

/-- All keys drawn; the source dry at once, and one byte before the end; CAP + 1. -/
theorem witness_FeistelEncResult :
    (Test.sourced Test.s1 []).admissible ∧ (∃ k r, (Test.sourced Test.s1 []).rbs.drawKeys 8 = .bytes k r) ∧
      (∃ r, (Test.dry 0 []).rbs.drawKeys 8 = .short 0 r) ∧ (∃ r, (Test.dry 31 []).rbs.drawKeys 8 = .short 31 r) ∧
      Test.LengthBoundaries :=
  ⟨Test.admissible_long 0, ⟨_, _, rfl⟩, ⟨_, rfl⟩, ⟨_, rfl⟩, Test.lengthBoundaries⟩

/-- Exactly 32 named bytes; limits 0 and 31. -/
theorem witness_KeysDrawnInOrder :
    (State.reset.rbs.name Test.s1).limit = none ∧ 32 ≤ (State.reset.rbs.name Test.s1).named.length ∧
      (State.reset.rbs.cutShort 0).limit = some 0 ∧ (State.reset.rbs.cutShort 31).limit = some 31 := by decide

/-- Lengths 0, 8 and CAP run; 7, 9 and CAP + 1 do not. -/
theorem witness_FeistelDecResult :
    (Test.long 0).inLen.toNat % 8 = 0 ∧ (Test.long 8).inLen.toNat ≤ (Test.long 8).cap ∧ (Test.long 8).inLen.toNat % 8 = 0 ∧
      (Test.long 256).inLen.toNat % 8 = 0 ∧ (Test.long 7).inLen.toNat % 8 ≠ 0 ∧ (Test.long 9).inLen.toNat % 8 ≠ 0 ∧
      Test.LengthBoundaries := by
  refine ⟨by decide, by decide, by decide, by decide, by decide, by decide, Test.lengthBoundaries⟩

theorem witness_FeistelRoundTrip :
    (zeros 8).length % 8 = 0 ∧
    ∃ s t u : State, s.admissible ∧ s.inLen.toNat ≤ s.cap ∧ exec .feistelEnc s = .next t ∧ t.done = true ∧ movedBack t u ∧
      ∀ a, u.peek .rks a = t.peek .rks a :=
  ⟨by decide, Test.sourced Test.s1 [0x41], _, Test.moved _, Test.admissible_long 0, by decide, rfl, rfl,
    Test.movedBack_moved _, fun _ => rfl⟩

theorem witness_SpecialSchedules : ([] : Text).length % 8 = 0 ∧ (zeros 16).length % 8 = 0 := by decide

/-- Two blocks and schedule S1, laid out as the vectors give them. -/
theorem witness_SpecialSchedules_layout :
    ofBlocks [⟨⟨0x41, 0x42, 0x43, 0x44⟩, ⟨0x45, 0x46, 0x47, 0x48⟩⟩, ⟨⟨0x49, 0, 0, 0⟩, ⟨0, 0, 0, 0⟩⟩] =
        [0x41, 0x42, 0x43, 0x44, 0x45, 0x46, 0x47, 0x48, 0x49, 0, 0, 0, 0, 0, 0, 0] ∧
      ([⟨1, 2, 3, 4⟩, ⟨5, 6, 7, 8⟩, ⟨9, 10, 11, 12⟩, ⟨13, 14, 15, 16⟩, ⟨17, 18, 19, 20⟩, ⟨21, 22, 23, 24⟩,
        ⟨25, 26, 27, 28⟩, ⟨29, 30, 31, 32⟩] : List Half).flatMap (fun k => [k.b0, k.b1, k.b2, k.b3]) = Test.s1 := by decide

theorem witness_LengthErrorIsPrecise :
    Instr.pfDec ≠ .affInv ∧ (Test.long 257).cap < (Test.long 257).inLen.toNat := by decide

/-- A Length error of each of its three reasons, a Symbol error and an RbsShort error, from states without error. -/
theorem witness_ErrorsPerCommand :
    Test.next (exec .caesarEnc (Test.long 257)) (fun t => t.err && decide (t.ecode = 2)) = true ∧
      Test.next (exec .pfDec (Test.long 1)) (fun t => t.err && decide (t.ecode = 2)) = true ∧
      Test.next (exec .feistelDec (Test.long 4)) (fun t => t.err && decide (t.ecode = 2)) = true ∧
      Test.next (exec .pfEnc (Test.loaded [0x41])) (fun t => t.err && decide (t.ecode = 3)) = true ∧
      Test.next (exec .feistelEnc (Test.dry 0 [])) (fun t => t.err && decide (t.ecode = 4)) = true ∧
      (Test.long 257).err = false ∧ (Test.loaded [0x41]).err = false ∧ (Test.dry 0 []).err = false := by decide

/-- A next state of AFF_INV, of PF_KEYMX, and of OTP_KEYGEN with DONE = 1. -/
theorem witness_EngineWritesOnlyItsRow :
    (∃ t, exec .affInv State.reset = .next t) ∧ (∃ t, exec .pfKeymx State.reset = .next t) ∧
      ∃ t, exec .otpKeygen (Test.sourced (zeros 8) (zeros 8)) = .next t ∧ t.done = true :=
  ⟨⟨_, rfl⟩, ⟨_, rfl⟩, _, rfl, rfl⟩

/-- The text ab, once followed by zeros and once by the byte c. -/
theorem witness_InputBeyondLengthIgnored :
    (∀ a, a < (Test.loaded [0x61, 0x62]).inLen.toNat →
      Memory.read (Memory.ofText [0x61, 0x62, 0x63]) a = (Test.loaded [0x61, 0x62]).ibuf.read a) ∧
    ∃ t, exec .caesarEnc (Test.loaded [0x61, 0x62]) = .next t :=
  ⟨by decide, _, rfl⟩

/-- The fault state of an illegal byte, with a write to CMD coming. -/
def Test.faulted : State := { raiseIllegal (State.reset.latch 0x00) with script := [.wr 0x00 0x23] }

theorem witness_CmdWriteAccepts :
    (State.reset.busy = false ∧ State.reset.err = false) ∧ (State.reset.latch 0x10).busy = true ∧ Test.faulted.err = true := by
  decide

theorem witness_RegisterWritesTruncate :
    State.reset.busy = false ∧ (1 : Nat) ≠ 0 ∧ (1 : Nat) ≠ 2 ∧ (1 : Nat) ≠ 3 ∧ (1 : Nat) ≠ 5 := by decide

theorem witness_ConstantsReadAsWired : 11 ≤ 11 ∧ 11 ≤ 0xFFFF := by decide

/-- The last index of a buffer of CAP bytes, of RKS, and the first index beyond each. -/
theorem witness_BufferAccesses :
    State.reset.busy = false ∧ 255 < State.reset.size .ibuf ∧ 31 < State.reset.size .rks ∧ 24 < State.reset.size .km ∧
      State.reset.size .ibuf ≤ 256 ∧ State.reset.size .rks ≤ 32 := by decide

theorem witness_ReadsHaveNoSideEffect :
    (∃ t : State, t = hostReadReg 0x04 (State.reset.latch 0x10) ∨ t = hostReadBuf .obuf 0 (State.reset.latch 0x10)) ∧
      State.reset.busy = false :=
  ⟨⟨_, .inl rfl⟩, rfl⟩

theorem witness_WritesWhileBusyIgnored : (State.reset.latch 0x10).busy = true ∧ (3 : Nat) ≠ 2 := by decide

/-- A command that writes none of the four memories, and an illegal byte. -/
theorem witness_BusyReadsOfStoredValues :
    (State.reset.latch 0x10).busy = true ∧ (State.reset.latch 0x10).op ≠ 0x33 ∧ (State.reset.latch 0x10).op ≠ 0x50 ∧
      (State.reset.latch 0x10).op ≠ 0x43 ∧ 255 < (State.reset.latch 0x10).cap ∧ (State.reset.latch 0xFF).busy = true := by
  decide

theorem witness_FaultStateIsSticky :
    Test.faulted.err = true ∧ Test.faulted.busy = false ∧ (∀ rest, Test.faulted.script ≠ HostMove.rst :: rest) ∧
      ∃ t, step Test.faulted = .next t :=
  ⟨rfl, rfl, fun rest h => by simp [Test.faulted] at h, _, rfl⟩

theorem witness_InterruptOutput : (State.reset.latch 0x10).flagsOk ∧ (State.reset.latch 0x10).busy = true := by
  unfold State.flagsOk; decide

/-- `mov` of an empty and of a full OBUF. -/
theorem witness_MovCopiesOutputToInput :
    (State.busy { State.reset with script := [.mov] } = false ∧
      State.outLen { State.reset with script := [.mov] } = 0) ∧
    (State.outLen { State.reset with script := [.mov], outLen := 256 }).toNat ≤
      State.cap { State.reset with script := [.mov], outLen := 256 } := by decide

/-- A state of the invariant with PF_KEYMX in progress, and its next state. -/
theorem witness_StepKeepsInvariant : (State.reset.latch 0x43).Inv ∧ ∃ t, step (State.reset.latch 0x43) = .next t := by
  refine ⟨⟨Test.admissible_long 0, ?_, ?_, ?_, ?_⟩, _, rfl⟩
  · simp [State.memOk, State.latch, State.reset, Memory.wf, Memory.below]
  · unfold State.flagsOk; decide
  · exact .inl (by decide)
  · exact fun _ => by decide

/-- A completion other than PF_KEYMX's, and a host move other than rst. -/
theorem witness_MatrixWrittenOnlyByKeymx :
    (¬((State.reset.latch 0x23).engineTurn = true ∧ (State.reset.latch 0x23).op = 0x43) ∧
      (∀ rest, (State.reset.latch 0x23).script ≠ HostMove.rst :: rest) ∧ ∃ t, step (State.reset.latch 0x23) = .next t) ∧
    (¬(Test.faulted.engineTurn = true ∧ Test.faulted.op = 0x43) ∧ ∃ t, step Test.faulted = .next t) :=
  ⟨⟨by decide, fun rest h => by simp [State.latch, State.reset] at h, _, rfl⟩, by decide, _, rfl⟩

end Sys2Proof.Machine
end

section
/-! PROOFS. The alphabets and the affine arithmetic (00_scope.md R7, R9, R13 to R16). -/

namespace Sys2Proof.Machine

/-! ### The ranges of the alphabets -/

theorem inRange_iff (lo hi c : Byte) : inRange lo hi c = true ↔ lo.toNat ≤ c.toNat ∧ c.toNat ≤ hi.toNat := by
  simp only [inRange, Bool.and_eq_true, decide_eq_true_eq]

theorem isDigit_iff (c : Byte) : isDigit c = true ↔ 0x30 ≤ c.toNat ∧ c.toNat ≤ 0x39 := inRange_iff 0x30 0x39 c

theorem isUpper_iff (c : Byte) : isUpper c = true ↔ 0x41 ≤ c.toNat ∧ c.toNat ≤ 0x5A := inRange_iff 0x41 0x5A c

theorem isLower_iff (c : Byte) : isLower c = true ↔ 0x61 ≤ c.toNat ∧ c.toNat ≤ 0x7A := inRange_iff 0x61 0x7A c

/-! ### The 62 symbols -/

theorem ord62_of_digit {c : Byte} (h : 0x30 ≤ c.toNat ∧ c.toNat ≤ 0x39) : ord62 c = some (c.toNat - 0x30) := by
  rw [ord62, if_pos ((isDigit_iff c).2 h)]

theorem ord62_of_upper {c : Byte} (h : 0x41 ≤ c.toNat ∧ c.toNat ≤ 0x5A) : ord62 c = some (c.toNat - 0x41 + 10) := by
  rw [ord62, if_neg (by rw [isDigit_iff]; omega), if_pos ((isUpper_iff c).2 h)]

theorem ord62_of_lower {c : Byte} (h : 0x61 ≤ c.toNat ∧ c.toNat ≤ 0x7A) : ord62 c = some (c.toNat - 0x61 + 36) := by
  rw [ord62, if_neg (by rw [isDigit_iff]; omega), if_neg (by rw [isUpper_iff]; omega), if_pos ((isLower_iff c).2 h)]

theorem ord62_eq_none {c : Byte} (h : c.toNat < 0x30 ∨ (0x39 < c.toNat ∧ c.toNat < 0x41) ∨
    (0x5A < c.toNat ∧ c.toNat < 0x61) ∨ 0x7A < c.toNat) : ord62 c = none := by
  rw [ord62, if_neg (by rw [isDigit_iff]; omega), if_neg (by rw [isUpper_iff]; omega),
    if_neg (by rw [isLower_iff]; omega)]

theorem toNat_chr62_of_le_nine {n : Nat} (h : n ≤ 9) : (chr62 n).toNat = 0x30 + n := by
  rw [chr62, if_pos h, BitVec.toNat_ofNat, Nat.mod_eq_of_lt (by omega)]

theorem toNat_chr62_of_le_35 {n : Nat} (h₁ : 10 ≤ n) (h₂ : n ≤ 35) : (chr62 n).toNat = 0x41 + (n - 10) := by
  rw [chr62, if_neg (by omega), if_pos h₂, BitVec.toNat_ofNat, Nat.mod_eq_of_lt (by omega)]

theorem toNat_chr62_of_ge_36 {n : Nat} (h₁ : 36 ≤ n) (h₂ : n ≤ 61) : (chr62 n).toNat = 0x61 + (n - 36) := by
  rw [chr62, if_neg (by omega), if_neg (by omega), BitVec.toNat_ofNat, Nat.mod_eq_of_lt (by omega)]

theorem ord62_chr62 {n : Nat} (h : n ≤ 61) : ord62 (chr62 n) = some n := by
  rcases Nat.lt_or_ge n 10 with h₁ | h₁
  · have hc := toNat_chr62_of_le_nine (n := n) (by omega)
    rw [ord62_of_digit (by omega), hc, Nat.add_sub_cancel_left]
  rcases Nat.lt_or_ge n 36 with h₂ | h₂
  · have hc := toNat_chr62_of_le_35 h₁ (by omega)
    rw [ord62_of_upper (by omega), hc, Nat.add_sub_cancel_left, Nat.sub_add_cancel h₁]
  · have hc := toNat_chr62_of_ge_36 h₂ h
    rw [ord62_of_lower (by omega), hc, Nat.add_sub_cancel_left, Nat.sub_add_cancel h₂]

/-- The ordinals are 0 to 61, and each belongs to its symbol only (00_scope.md R13). -/
theorem ord62_eq_some_iff (c : Byte) (k : Nat) : ord62 c = some k ↔ k ≤ 61 ∧ c = chr62 k := by
  constructor
  · intro h
    unfold ord62 at h
    split at h
    · rename_i hd
      rw [isDigit_iff] at hd
      cases h
      exact ⟨by omega, BitVec.eq_of_toNat_eq (by rw [toNat_chr62_of_le_nine (by omega)]; omega)⟩
    split at h
    · rename_i hu
      rw [isUpper_iff] at hu
      cases h
      exact ⟨by omega, BitVec.eq_of_toNat_eq (by rw [toNat_chr62_of_le_35 (by omega) (by omega)]; omega)⟩
    split at h
    · rename_i hl
      rw [isLower_iff] at hl
      cases h
      exact ⟨by omega, BitVec.eq_of_toNat_eq (by rw [toNat_chr62_of_ge_36 (by omega) (by omega)]; omega)⟩
    · cases h
  · rintro ⟨hk, rfl⟩
    exact ord62_chr62 hk

/-- Settles O7: range by range, and the inverse from `ord62_eq_some_iff`. -/
theorem caesarAlphabetIsInverse : Obligations.CaesarAlphabetIsInverse := by
  refine ⟨fun c => ⟨ord62_of_digit, ord62_of_upper, ord62_of_lower, ord62_eq_none⟩, fun n hn => ⟨?_, ?_, ?_⟩, ?_, ?_⟩
  · exact toNat_chr62_of_le_nine
  · exact fun h => toNat_chr62_of_le_35 h.1 h.2
  · exact fun h => toNat_chr62_of_ge_36 h hn
  · exact fun c k h => ((ord62_eq_some_iff c k).1 h).2.symm
  · exact fun n hn => ord62_chr62 hn

/-! ### The search for the inverse modulo 26 -/

/-- A successful search answers a solution among its candidates (00_scope.md R16). -/
theorem modInvSearch_some {a fuel i j : Nat} (h : modInvSearch a fuel i = some j) :
    j < i + fuel ∧ a * j % 26 = 1 := by
  induction fuel generalizing i with
  | zero => cases h
  | succ fuel ih =>
    rw [modInvSearch] at h
    split at h
    · cases h
      exact ⟨by omega, ‹_›⟩
    · obtain ⟨hj, hs⟩ := ih h
      exact ⟨by omega, hs⟩

/-- A failed search means that no candidate is a solution (00_scope.md R16). -/
theorem modInvSearch_none {a fuel i j : Nat} (h : modInvSearch a fuel i = none) (h₁ : i ≤ j) (h₂ : j < i + fuel) :
    a * j % 26 ≠ 1 := by
  induction fuel generalizing i with
  | zero => omega
  | succ fuel ih =>
    rw [modInvSearch] at h
    split at h
    · cases h
    · rcases Nat.eq_or_lt_of_le h₁ with rfl | hlt
      · assumption
      · exact ih h (by omega) (by omega)

theorem coprime_of_mul_mod_26 {a i : Nat} (h : a * i % 26 = 1) : Nat.gcd a 26 = 1 :=
  Nat.coprime_of_mul_modEq_one i (n := 26) h

/-- Two inverses of the same number modulo 26 are equal below 26. -/
theorem inverse26_unique {a i j : Nat} (hi : i < 26) (hj : j < 26) (hai : a * i % 26 = 1) (haj : a * j % 26 = 1) :
    i = j := by
  have hco : Nat.gcd 26 a = 1 := by rw [Nat.gcd_comm]; exact coprime_of_mul_mod_26 hai
  have hmod : i ≡ j [MOD 26] := Nat.ModEq.cancel_left_of_coprime hco (hai.trans haj.symm)
  exact Nat.ModEq.eq_of_lt_of_lt hmod hi hj

theorem modInv26_eq_some_iff (a i : Nat) : modInv26 a = some i ↔ i < 26 ∧ a * i % 26 = 1 := by
  constructor
  · intro h
    simpa using modInvSearch_some h
  · rintro ⟨hi, hai⟩
    cases h : modInv26 a with
    | none => exact absurd hai (modInvSearch_none h (Nat.zero_le i) (by omega))
    | some j =>
      obtain ⟨hj, haj⟩ := modInvSearch_some h
      rw [inverse26_unique (by omega) hi haj hai]

theorem modInv26_eq_none_iff (a : Nat) : modInv26 a = none ↔ Nat.gcd a 26 ≠ 1 := by
  constructor
  · intro h hco
    obtain ⟨m, hm, ham⟩ := Nat.exists_mul_mod_eq_one_of_coprime hco (by decide)
    exact modInvSearch_none h (Nat.zero_le m) (by omega) ham
  · intro hco
    cases h : modInv26 a with
    | none => rfl
    | some i => exact absurd (coprime_of_mul_mod_26 ((modInv26_eq_some_iff a i).1 h).2) hco

/-- Settles O12: a hit is the only inverse, and a coprime number has one below 26. -/
theorem inverseSearchFindsInverse : Obligations.InverseSearchFindsInverse :=
  fun a => ⟨modInv26_eq_some_iff a, modInv26_eq_none_iff a⟩

/-! ### The affine byte functions -/

theorem ord26_eq_some_iff (c : Byte) (k : Nat) : ord26 c = some k ↔ k < 26 ∧ c.toNat = 0x41 + k := by
  unfold ord26
  split
  · rename_i h
    rw [isUpper_iff] at h
    rw [Option.some.injEq]
    omega
  · rename_i h
    rw [isUpper_iff] at h
    simp only [reduceCtorEq, false_iff]
    omega

theorem ord26_eq_none_iff (c : Byte) : ord26 c = none ↔ isUpper c = false := by
  simp [ord26]

theorem ord26_chr26 {k : Nat} (h : k < 26) : ord26 (chr26 k) = some k := by
  rw [ord26_eq_some_iff, chr26, BitVec.toNat_ofNat, Nat.mod_eq_of_lt (by omega)]
  exact ⟨h, rfl⟩

theorem chr26_of_ord26 {c : Byte} {k : Nat} (h : ord26 c = some k) : chr26 k = c := by
  obtain ⟨hk, hc⟩ := (ord26_eq_some_iff c k).1 h
  exact BitVec.eq_of_toNat_eq (by rw [chr26, BitVec.toNat_ofNat, hc, Nat.mod_eq_of_lt (by omega)])

theorem affEncByte_of_ord26 (a b : Nat) {c : Byte} {k : Nat} (h : ord26 c = some k) :
    affEncByte a b c = chr26 (floorMod ((a : Int) * k + b) 26) := by
  simp only [affEncByte, h]

theorem affDecByte_of_ord26 (i b : Nat) {c : Byte} {k : Nat} (h : ord26 c = some k) :
    affDecByte i b c = chr26 (floorMod ((i : Int) * ((k : Int) - b)) 26) := by
  simp only [affDecByte, h]

theorem affEncByte_of_none (a b : Nat) {c : Byte} (h : ord26 c = none) : affEncByte a b c = c := by
  simp only [affEncByte, h]

theorem affDecByte_of_none (i b : Nat) {c : Byte} (h : ord26 c = none) : affDecByte i b c = c := by
  simp only [affDecByte, h]

/-- An ordinal congruent to a number is its floored modulus. -/
theorem floorMod_eq_of_modEq {x : Int} {k : Nat} (hk : k < 26) (h : x ≡ k [ZMOD 26]) : floorMod x 26 = k := by
  have hx : x % 26 = (k : Int) % 26 := h
  rw [floorMod]
  omega

/-- A floored modulus is congruent to its number. -/
theorem floorMod_modEq (x : Int) : (floorMod x 26 : Int) ≡ x [ZMOD 26] := by
  rw [floorMod_cast x (by decide)]
  exact Int.mod_modEq x 26

/-- An inverse modulo 26, over the integers (00_scope.md R16). -/
theorem modInv26_mul_modEq {a i : Nat} (h : modInv26 a = some i) : (a : Int) * i ≡ 1 [ZMOD 26] := by
  have hai := ((modInv26_eq_some_iff a i).1 h).2
  exact (Int.natCast_modEq_iff (n := 26)).2 hai

/-- Decryption undoes encryption for an invertible multiplier (41_affine_modinv.md R138). -/
theorem affDecByte_affEncByte {a i : Nat} (h : modInv26 a = some i) (b : Nat) (c : Byte) :
    affDecByte i b (affEncByte a b c) = c := by
  cases hc : ord26 c with
  | none => rw [affEncByte_of_none a b hc, affDecByte_of_none i b hc]
  | some k =>
    rw [affEncByte_of_ord26 a b hc, affDecByte_of_ord26 i b (ord26_chr26 (floorMod_lt _ (by decide)))]
    suffices hk : (i : Int) * ((floorMod ((a : Int) * k + b) 26 : Int) - b) ≡ k [ZMOD 26] by
      rw [floorMod_eq_of_modEq ((ord26_eq_some_iff c k).1 hc).1 hk, chr26_of_ord26 hc]
    calc (i : Int) * ((floorMod ((a : Int) * k + b) 26 : Int) - b)
        ≡ i * ((a * k + b) - b) [ZMOD 26] := ((floorMod_modEq _).sub_right _).mul_left _
      _ = (a * i) * k := by ring
      _ ≡ 1 * k [ZMOD 26] := (modInv26_mul_modEq h).mul_right _
      _ = k := one_mul _

/-- Encryption undoes decryption for an invertible multiplier (41_affine_modinv.md R138). -/
theorem affEncByte_affDecByte {a i : Nat} (h : modInv26 a = some i) (b : Nat) (c : Byte) :
    affEncByte a b (affDecByte i b c) = c := by
  cases hc : ord26 c with
  | none => rw [affDecByte_of_none i b hc, affEncByte_of_none a b hc]
  | some k =>
    rw [affDecByte_of_ord26 i b hc, affEncByte_of_ord26 a b (ord26_chr26 (floorMod_lt _ (by decide)))]
    suffices hk : (a : Int) * (floorMod ((i : Int) * ((k : Int) - b)) 26 : Int) + b ≡ k [ZMOD 26] by
      rw [floorMod_eq_of_modEq ((ord26_eq_some_iff c k).1 hc).1 hk, chr26_of_ord26 hc]
    calc (a : Int) * (floorMod ((i : Int) * ((k : Int) - b)) 26 : Int) + b
        ≡ a * (i * (k - b)) + b [ZMOD 26] := ((floorMod_modEq _).mul_left _).add_right _
      _ = (a * i) * (k - b) + b := by ring
      _ ≡ 1 * (k - b) + b [ZMOD 26] := ((modInv26_mul_modEq h).mul_right _).add_right _
      _ = k := by ring

theorem ord26_affEncByte (a b : Nat) {c : Byte} {k : Nat} (h : ord26 c = some k) :
    ord26 (affEncByte a b c) = some ((a * k + b) % 26) := by
  rw [affEncByte_of_ord26 a b h, ord26_chr26 (floorMod_lt _ (by decide)), floorMod]
  norm_cast

theorem ord26_affDecByte (i b : Nat) {c : Byte} {k : Nat} (h : ord26 c = some k) :
    ord26 (affDecByte i b c) = some (((i : Int) * ((k : Int) - (b : Int))) % 26).toNat := by
  rw [affDecByte_of_ord26 i b h, ord26_chr26 (floorMod_lt _ (by decide))]
  rfl

/-- Settles O17: the formulas by ordinals, and the inversion by congruence modulo 26. -/
theorem affineAnyPairInverts : Obligations.AffineAnyPairInverts := by
  refine ⟨ord26_eq_some_iff, ?_, ?_, ?_⟩
  · exact fun a b i c k h => ⟨ord26_affEncByte a b h, ord26_affDecByte i b h⟩
  · exact fun a b i c h => ⟨affEncByte_of_none a b h, affDecByte_of_none i b h⟩
  · intro a b i hi c
    refine ⟨affDecByte_affEncByte hi b c, affEncByte_affDecByte hi b c, fun hc => ?_⟩
    have hn := (ord26_eq_none_iff c).2 hc
    exact ⟨affEncByte_of_none a b hn, affDecByte_of_none i b hn⟩

end Sys2Proof.Machine
end

section
/-! PROOFS. The text functions: the one-time-pad filter (42_otp.md R151, R152), the Playfair preprocessor (43_playfair.md R174
to R176) and the Feistel padding (44_feistel.md R201). -/

namespace Sys2Proof.Machine

/-! ### The one-time-pad filter -/

theorem inOtp_iff (c : Byte) : inOtp c = true ↔ ((0x30 ≤ c.toNat ∧ c.toNat ≤ 0x39) ∨ (0x41 ≤ c.toNat ∧ c.toNat ≤ 0x5A) ∨
    (0x61 ≤ c.toNat ∧ c.toNat ≤ 0x7A) ∨ c.toNat = 0x20) := by
  have hspace : c = 0x20 ↔ c.toNat = 0x20 := BitVec.toNat_inj.symm
  simp only [inOtp, Bool.or_eq_true, decide_eq_true_eq, isDigit_iff, isLower_iff, isUpper_iff, hspace]
  omega

/-- The zero byte is not in the alphabet, so zeros do not survive a filter. -/
@[simp] theorem filter_inOtp_zeros (n : Nat) : (zeros n).filter inOtp = [] :=
  List.filter_replicate_of_neg (by decide)

@[simp] theorem filter_inOtp_otpFilter (t : Text) : (otpFilter t).filter inOtp = t.filter inOtp := by
  simp [otpFilter]

theorem otpForm_otpFilter (t : Text) : otpForm (otpFilter t) :=
  ⟨t.filter inOtp, _, fun _ hc => (List.mem_filter.1 hc).2, rfl⟩

/-- The filter leaves a text in preprocessed form alone (42_otp.md R152). -/
theorem otpFilter_of_otpForm {t : Text} (h : otpForm t) : otpFilter t = t := by
  obtain ⟨p, n, hp, rfl⟩ := h
  have hf : (p ++ zeros n).filter inOtp = p := by
    rw [List.filter_append, filter_inOtp_zeros, List.append_nil, List.filter_eq_self.2 hp]
  rw [otpFilter, hf, List.length_append, length_zeros, Nat.add_sub_cancel_left]

/-- Settles O18: the filtered text is the alphabet bytes followed by zeros, and such a text is its own filtered text. -/
theorem otpFilterForm : Obligations.OtpFilterForm := by
  refine ⟨inOtp_iff, fun t => ⟨length_otpFilter t, otpForm_otpFilter t, ?_, ?_, ?_, filter_inOtp_otpFilter t⟩⟩
  · exact otpFilter_of_otpForm (otpForm_otpFilter t)
  · exact ⟨fun h => h ▸ otpForm_otpFilter t, otpFilter_of_otpForm⟩
  · exact fun c hc ho => List.mem_append_left _ (List.mem_filter.2 ⟨hc, ho⟩)

/-! ### The Playfair preprocessor: stripping -/

theorem pfStrip_letters {t : Text} {c : Byte} (h : c ∈ pfStrip t) : isUpper c = true ∧ c ≠ letterI := by
  obtain ⟨d, hd, rfl⟩ := List.mem_map.1 h
  split
  · exact ⟨by decide, by decide⟩
  · exact ⟨(List.mem_filter.1 hd).2, ‹_›⟩

theorem pfStrip_of_letters {t : Text} (h : ∀ c ∈ t, isUpper c = true ∧ c ≠ letterI) : pfStrip t = t := by
  rw [pfStrip, List.filter_eq_self.2 fun c hc => (h c hc).1]
  exact (List.map_congr_left fun c hc => if_neg (h c hc).2).trans (List.map_id t)

/-! ### The Playfair preprocessor: separating equal letters -/

theorem pfSeparate_letters {t : Text} {c : Byte} (h : c ∈ pfSeparate t) : c ∈ t ∨ c = letterX := by
  induction t using pfSeparate.induct with
  | case1 a b t ih =>
    simp only [pfSeparate, List.mem_cons] at h ⊢
    rcases h with h | h | h
    · exact .inl (.inl h)
    · split at h
      · exact .inr h
      · exact .inl (.inr (.inl h))
    · rcases ih h with h | h
      · exact .inl (.inr (.inr h))
      · exact .inr h
  | case2 t hn => rw [pfSeparate] at h; exacts [.inl h, hn]

theorem pfSeparate_getD_even (t : Text) (k : Nat) : (pfSeparate t).getD (2 * k) 0 = t.getD (2 * k) 0 := by
  induction t using pfSeparate.induct generalizing k with
  | case1 a b t ih =>
    cases k with
    | zero => rfl
    | succ k => exact ih k
  | case2 t hn => rw [pfSeparate]; exact hn

theorem pfSeparate_getD_odd {t : Text} {k : Nat} (h : 2 * k + 1 < t.length) :
    (pfSeparate t).getD (2 * k + 1) 0 =
      if t.getD (2 * k) 0 = t.getD (2 * k + 1) 0 then letterX else t.getD (2 * k + 1) 0 := by
  induction t using pfSeparate.induct generalizing k with
  | case1 a b t ih =>
    cases k with
    | zero => rfl
    | succ k => exact ih (by simp only [List.length_cons] at h; omega)
  | case2 t hn =>
    match t, hn with
    | [], _ | [_], _ => simp at h
    | a :: b :: t, hn => exact absurd rfl (hn a b t)

/-- The pass changes nothing when no digraph has equal letters other than "XX". -/
theorem pfSeparate_of_separated {t : Text}
    (h : ∀ k, 2 * k + 1 < t.length → t.getD (2 * k) 0 = t.getD (2 * k + 1) 0 → t.getD (2 * k) 0 = letterX) :
    pfSeparate t = t := by
  induction t using pfSeparate.induct with
  | case1 a b t ih =>
    have hab : a = b → a = letterX := h 0 (by simp)
    have hsnd : (if a = b then letterX else b) = b := by
      split
      · rename_i heq
        rw [← heq, hab heq]
      · rfl
    have htail : pfSeparate t = t := ih fun k hk => h (k + 1) (by simp only [List.length_cons]; omega)
    rw [pfSeparate, hsnd, htail]
  | case2 t hn => rw [pfSeparate]; exact hn

/-! ### The Playfair preprocessor: padding -/

theorem pfPad_of_even {s : Text} (h : s.length % 2 = 0) : pfPad s = s := if_neg (by omega)

theorem pfPad_of_odd {s : Text} (h : s.length % 2 = 1) : pfPad s = s ++ [letterX] := if_pos h

theorem length_pfPad (s : Text) : (pfPad s).length = s.length + s.length % 2 := by
  rcases Nat.mod_two_eq_zero_or_one s.length with h | h
  · rw [pfPad_of_even h, h, Nat.add_zero]
  · rw [pfPad_of_odd h, h, List.length_append, List.length_singleton]

theorem pfPad_getD_of_lt {s : Text} {i : Nat} (h : i < s.length) : (pfPad s).getD i 0 = s.getD i 0 := by
  rcases Nat.mod_two_eq_zero_or_one s.length with hs | hs
  · rw [pfPad_of_even hs]
  · rw [pfPad_of_odd hs, List.getD_append _ _ _ _ h]

theorem pfPad_getD_length {s : Text} (h : s.length % 2 = 1) : (pfPad s).getD s.length 0 = letterX := by
  rw [pfPad_of_odd h, List.getD_append_right _ _ _ _ (Nat.le_refl _), Nat.sub_self]
  rfl

theorem pfPad_letters {s : Text} {c : Byte} (h : c ∈ pfPad s) : c ∈ s ∨ c = letterX := by
  unfold pfPad at h
  split at h
  · simpa using h
  · exact .inl h

/-! ### The Playfair preprocessor -/

theorem length_pfPrep (t : Text) : (pfPrep t).length = (pfStrip t).length + (pfStrip t).length % 2 := by
  rw [pfPrep, length_pfPad, length_pfSeparate]

theorem length_pfPrep_even (t : Text) : (pfPrep t).length % 2 = 0 := by
  rw [length_pfPrep]
  omega

theorem pfPrep_letters {t : Text} {c : Byte} (h : c ∈ pfPrep t) : isUpper c = true ∧ c ≠ letterI := by
  have hX : isUpper letterX = true ∧ letterX ≠ letterI := ⟨by decide, by decide⟩
  rcases pfPad_letters h with h | rfl
  · rcases pfSeparate_letters h with h | rfl
    · exact pfStrip_letters h
    · exact hX
  · exact hX

theorem pfPrep_getD_even {t : Text} {k : Nat} (h : 2 * k < (pfStrip t).length) :
    (pfPrep t).getD (2 * k) 0 = (pfStrip t).getD (2 * k) 0 := by
  rw [pfPrep, pfPad_getD_of_lt (by rwa [length_pfSeparate]), pfSeparate_getD_even]

theorem pfPrep_getD_odd {t : Text} {k : Nat} (h : 2 * k + 1 < (pfStrip t).length) :
    (pfPrep t).getD (2 * k + 1) 0 =
      if (pfStrip t).getD (2 * k) 0 = (pfStrip t).getD (2 * k + 1) 0 then letterX else (pfStrip t).getD (2 * k + 1) 0 := by
  rw [pfPrep, pfPad_getD_of_lt (by rwa [length_pfSeparate]), pfSeparate_getD_odd h]

theorem pfPrep_getD_pad {t : Text} (h : (pfStrip t).length % 2 = 1) : (pfPrep t).getD (pfStrip t).length 0 = letterX := by
  rw [pfPrep, ← length_pfSeparate (pfStrip t), pfPad_getD_length (by rwa [length_pfSeparate])]

/-- A digraph of equal letters in a preprocessed text is "XX" (43_playfair.md R175 (d)). -/
theorem pfPrep_separated {t : Text} {k : Nat} (h : 2 * k + 1 < (pfPrep t).length)
    (heq : (pfPrep t).getD (2 * k) 0 = (pfPrep t).getD (2 * k + 1) 0) : (pfPrep t).getD (2 * k) 0 = letterX := by
  rw [length_pfPrep] at h
  rcases Nat.lt_or_ge (2 * k + 1) (pfStrip t).length with hlt | hge
  · rw [pfPrep_getD_odd hlt] at heq
    split at heq
    · exact heq
    · rename_i hne
      rw [pfPrep_getD_even (by omega)] at heq
      exact absurd heq hne
  · have hlen : 2 * k + 1 = (pfStrip t).length := by omega
    rw [heq, hlen, pfPrep_getD_pad (by omega)]

theorem pfForm_pfPrep (t : Text) : pfForm (pfPrep t) :=
  ⟨fun _ => pfPrep_letters, length_pfPrep_even t, fun _ => pfPrep_separated⟩

/-- The preprocessor leaves a text in preprocessed form alone (43_playfair.md R175). -/
theorem pfPrep_of_pfForm {t : Text} (h : pfForm t) : pfPrep t = t := by
  obtain ⟨hletters, heven, hsep⟩ := h
  rw [pfPrep, pfStrip_of_letters hletters, pfSeparate_of_separated hsep, pfPad_of_even heven]

/-- Settles O26: the index rules of the separating pass and of the pad give the form, and a text of that form is its own
preprocessed text. -/
theorem pfPrepForm : Obligations.PfPrepForm := by
  refine ⟨isUpper_iff, fun t => ⟨pfForm_pfPrep t, pfPrep_of_pfForm (pfForm_pfPrep t), ?_, ?_⟩⟩
  · exact ⟨fun h => h ▸ pfForm_pfPrep t, pfPrep_of_pfForm⟩
  · intro s hs
    obtain rfl : s = pfStrip t := hs
    exact ⟨fun _ => pfPrep_getD_even, fun _ => pfPrep_getD_odd, pfPrep_getD_pad⟩

/-- A preprocessed text fits wherever its text fits an even capacity (43_playfair.md R176). -/
theorem length_pfPrep_le {t : Text} {n : Nat} (hn : n % 2 = 0) (h : t.length ≤ n) : (pfPrep t).length ≤ n := by
  have := length_pfStrip_le t
  rw [length_pfPrep]
  omega

/-! ### The Feistel padding -/

theorem length_feistelPad (t : Text) : (feistelPad t).length = t.length + (8 - t.length % 8) % 8 := by
  rw [feistelPad, List.length_append, length_zeros]

theorem length_feistelPad_mod (t : Text) : (feistelPad t).length % 8 = 0 := by
  rw [length_feistelPad]
  omega

/-- A padded text fits wherever its text fits a capacity of whole blocks (44_feistel.md R201). -/
theorem length_feistelPad_le {t : Text} {n : Nat} (hn : n % 8 = 0) (h : t.length ≤ n) : (feistelPad t).length ≤ n := by
  rw [length_feistelPad]
  omega

end Sys2Proof.Machine
end

section
/-! PROOFS. No step stops while CAP is admissible (00_scope.md R6, 20_memory.md R71). -/

namespace Sys2Proof.Machine

/-! ### The guards go on -/

theorem guardLength_goesOn {s : State} {k : Result} (h : s.inLen.toNat ≤ s.cap → ∃ t, k = .next t) :
    ∃ t, guardLength s k = .next t := by
  rcases Nat.lt_or_ge s.cap s.inLen.toNat with hlt | hge
  · exact ⟨_, guardLength_of_lt hlt k⟩
  · rw [guardLength_of_le hge]
    exact h hge

/-- A command that checks IN_LEN and then gives an output text goes on when the text fits OBUF. -/
theorem guardLength_emit_goesOn {s : State} {u : Text} (h : s.inLen.toNat ≤ s.cap → u.length ≤ s.cap) :
    ∃ t, guardLength s (emit u s) = .next t :=
  guardLength_goesOn fun hl => ⟨_, emit_of_le (h hl)⟩

/-- A completion with the result of a substitution goes on: the text has the length of the substituted one. -/
theorem emitSubst_goesOn {km u : Text} {d : Int} {s : State} (heven : u.length % 2 = 0) (hle : u.length ≤ s.cap) :
    ∃ t, emitSubst (pfSubst km d 0 u) s = .next t := by
  cases h : pfSubst km d 0 u with
  | error j => exact ⟨_, rfl⟩
  | ok e => exact ⟨_, emit_of_le (by rwa [length_pfSubst h heven])⟩

/-! ### The commands go on -/

/-- A command whose output text has the length of its input text goes on. -/
theorem guardLength_map_goesOn (f : Byte → Byte) (s : State) : ∃ t, guardLength s (emit (s.text.map f) s) = .next t :=
  guardLength_emit_goesOn fun hl => by rwa [List.length_map, State.length_text]

theorem execAffInv_goesOn (s : State) : ∃ t, execAffInv s = .next t := by
  simp only [execAffInv, modInv26_affineA]
  exact ⟨_, rfl⟩

theorem execAffineDec_goesOn (s : State) : ∃ t, execAffineDec s = .next t := by
  simp only [execAffineDec, modInv26_affineA]
  exact guardLength_goesOn fun hl => ⟨_, emit_of_le (by simpa using hl)⟩

theorem execPfEnc_goesOn {s : State} (hcap : s.cap % 2 = 0) : ∃ t, execPfEnc s = .next t :=
  guardLength_goesOn fun hl =>
    emitSubst_goesOn (length_pfPrep_even _) (length_pfPrep_le hcap (by rwa [State.length_text]))

theorem execPfDec_goesOn (s : State) : ∃ t, execPfDec s = .next t := by
  refine guardLength_goesOn fun hl => ?_
  split
  · exact ⟨_, rfl⟩
  · exact emitSubst_goesOn (by rw [State.length_text]; omega) (by rwa [State.length_text])

theorem execFeistelEnc_goesOn {s : State} (hcap : s.cap % 8 = 0) : ∃ t, execFeistelEnc s = .next t :=
  guardLength_goesOn fun hl => ⟨_, guardOutput_of_le (length_feistelPad_le hcap (by rwa [State.length_text])) _⟩

theorem execFeistelDec_goesOn (s : State) : ∃ t, execFeistelDec s = .next t := by
  refine guardLength_goesOn fun hl => ?_
  split
  · exact ⟨_, rfl⟩
  · exact ⟨_, emit_of_le (by rwa [length_decRounds (by rw [State.length_text]; omega), State.length_text])⟩

/-- Every command goes on when CAP is a whole number of blocks; only the Playfair preprocessor and the Feistel padding
need that (43_playfair.md R176, 44_feistel.md R201). -/
theorem exec_goesOn {s : State} (hcap : s.cap % 8 = 0) (i : Instr) : ∃ t, exec i s = .next t := by
  cases i with
  | caesarEnc => exact guardLength_map_goesOn _ s
  | caesarDec => exact guardLength_map_goesOn _ s
  | affineEnc => exact guardLength_map_goesOn _ s
  | affineDec => exact execAffineDec_goesOn s
  | affInv => exact execAffInv_goesOn s
  | otpEnc => exact guardLength_emit_goesOn fun hl => by simpa using hl
  | otpDec => exact guardLength_emit_goesOn fun hl => by simpa using hl
  | otpPrep => exact guardLength_emit_goesOn fun hl => by simpa using hl
  | otpKeygen => exact guardLength_goesOn fun _ => ⟨_, rfl⟩
  | pfEnc => exact execPfEnc_goesOn (by omega)
  | pfDec => exact execPfDec_goesOn s
  | pfPrep => exact guardLength_emit_goesOn fun hl => length_pfPrep_le (by omega) (by rwa [State.length_text])
  | pfKeymx => exact guardLength_goesOn fun _ => ⟨_, rfl⟩
  | feistelEnc => exact execFeistelEnc_goesOn hcap
  | feistelDec => exact execFeistelDec_goesOn s
  | feistelPad => exact guardLength_emit_goesOn fun hl => length_feistelPad_le hcap (by rwa [State.length_text])

theorem engineStep_goesOn {s : State} (hcap : s.cap % 8 = 0) : ∃ t, engineStep s = .next t := by
  unfold engineStep
  split
  · exact exec_goesOn hcap _
  · exact ⟨_, rfl⟩

/-- Settles O5: a host move always answers, and no completion step overruns OBUF. -/
theorem everyStepGoesOn : Obligations.EveryStepGoesOn := by
  intro s hs
  obtain ⟨hcap, -, -⟩ := s.admissible_iff.1 hs
  unfold step
  split
  · exact engineStep_goesOn hcap
  · exact ⟨_, rfl⟩

end Sys2Proof.Machine
end

section
/-! PROOFS. The key-matrix builder (43_playfair.md R171, R172): whatever the keyword, it gives a built matrix. -/

namespace Sys2Proof.Machine

/-- A letter the builder may place: 'A' to 'Z' without 'I' (43_playfair.md R171). -/
def matrixLetter (c : Byte) : Prop := isUpper c = true ∧ c ≠ letterI

/-- A matrix under construction: matrix letters, each at most once. -/
def partialMatrix (g : Text) : Prop := g.Nodup ∧ ∀ c ∈ g, matrixLetter c

/-- The 25 matrix letters in alphabetical order, what `buildKM` makes of the empty keyword. -/
def matrixLetters : Text := alphabet.filter (fun c => c ≠ letterI)

theorem mem_alphabet_iff (c : Byte) : c ∈ alphabet ↔ isUpper c = true := by
  simp only [alphabet, List.mem_map, List.mem_range]
  constructor
  · rintro ⟨k, hk, rfl⟩
    have hord := ord26_chr26 hk
    by_contra hup
    rw [(ord26_eq_none_iff _).2 (by simpa using hup)] at hord
    cases hord
  · intro hup
    obtain ⟨k, hk⟩ : ∃ k, ord26 c = some k := ⟨_, if_pos hup⟩
    exact ⟨k, ((ord26_eq_some_iff c k).1 hk).1, chr26_of_ord26 hk⟩

theorem mem_matrixLetters_iff (c : Byte) : c ∈ matrixLetters ↔ matrixLetter c := by
  simp [matrixLetters, matrixLetter, mem_alphabet_iff]

theorem matrixLetters_nodup : matrixLetters.Nodup := by decide

theorem length_matrixLetters : matrixLetters.length = 25 := by decide

theorem partialMatrix_nil : partialMatrix [] := ⟨List.nodup_nil, by simp⟩

/-- A matrix under construction that lacks a letter has room for it: only 25 letters exist. -/
theorem partialMatrix.length_lt {g : Text} (h : partialMatrix g) {c : Byte} (hc : matrixLetter c) (hg : c ∉ g) :
    g.length < 25 := by
  obtain ⟨hnodup, hletters⟩ := h
  have hcons : (c :: g).Nodup := List.nodup_cons.2 ⟨hg, hnodup⟩
  have hsub : c :: g ⊆ matrixLetters := by
    intro x hx
    rw [mem_matrixLetters_iff]
    rcases List.mem_cons.1 hx with rfl | hx
    · exact hc
    · exact hletters x hx
  have hle := (hcons.subperm hsub).length_le
  rw [length_matrixLetters, List.length_cons] at hle
  omega

/-- One turn of the builder appends an unused matrix letter and skips every other byte; the length test of `placeLetter`
decides nothing. -/
theorem placeLetter_cases {g : Text} (h : partialMatrix g) (c : Byte) :
    (matrixLetter c ∧ c ∉ g ∧ placeLetter g c = g ++ [c]) ∨ (¬(matrixLetter c ∧ c ∉ g) ∧ placeLetter g c = g) := by
  by_cases hc : matrixLetter c ∧ c ∉ g
  · obtain ⟨hletter, hg⟩ := hc
    exact .inl ⟨hletter, hg, if_pos ⟨hletter.1, hletter.2, hg, h.length_lt hletter hg⟩⟩
  · exact .inr ⟨hc, if_neg fun ⟨hup, hI, hg, _⟩ => hc ⟨⟨hup, hI⟩, hg⟩⟩

theorem partialMatrix.placeLetter {g : Text} (h : partialMatrix g) (c : Byte) : partialMatrix (placeLetter g c) := by
  rcases placeLetter_cases h c with ⟨hc, hg, heq⟩ | ⟨-, heq⟩ <;> rw [heq]
  · refine ⟨List.nodup_append_comm.1 (List.nodup_cons.2 ⟨hg, h.1⟩), fun x hx => ?_⟩
    rcases List.mem_append.1 hx with hx | hx
    · exact h.2 x hx
    · exact List.mem_singleton.1 hx ▸ hc
  · exact h

theorem mem_placeLetter_iff {g : Text} (h : partialMatrix g) (c x : Byte) :
    x ∈ placeLetter g c ↔ x ∈ g ∨ (x = c ∧ matrixLetter x) := by
  rcases placeLetter_cases h c with ⟨hc, -, heq⟩ | ⟨hc, heq⟩ <;> rw [heq]
  · rw [List.mem_append, List.mem_singleton, and_iff_left_of_imp (fun hx => hx ▸ hc)]
  · refine ⟨.inl, fun hx => ?_⟩
    rcases hx with hx | ⟨rfl, hx⟩
    · exact hx
    · by_contra hg
      exact hc ⟨hx, hg⟩

/-- Either loop of the builder keeps a matrix under construction. -/
theorem partialMatrix.foldl {g : Text} (h : partialMatrix g) (w : Text) : partialMatrix (w.foldl Machine.placeLetter g) := by
  induction w generalizing g with
  | nil => exact h
  | cons c w ih => exact ih (h.placeLetter c)

/-- Either loop of the builder adds the matrix letters of its text. -/
theorem mem_foldl_placeLetter_iff {g : Text} (h : partialMatrix g) (w : Text) (x : Byte) :
    x ∈ w.foldl placeLetter g ↔ x ∈ g ∨ (x ∈ w ∧ matrixLetter x) := by
  induction w generalizing g with
  | nil => simp
  | cons c w ih =>
    rw [List.foldl_cons, ih (h.placeLetter c), mem_placeLetter_iff h, List.mem_cons]
    tauto

/-- The builder places exactly the matrix letters: the second loop goes through the whole alphabet. -/
theorem mem_buildKM_iff (w : Text) (x : Byte) : x ∈ buildKM w ↔ matrixLetter x := by
  have hkey := partialMatrix_nil.foldl w
  rw [buildKM, mem_foldl_placeLetter_iff hkey, mem_foldl_placeLetter_iff partialMatrix_nil, mem_alphabet_iff, matrixLetter]
  simp only [List.not_mem_nil, false_or]
  tauto

theorem buildKM_nodup (w : Text) : (buildKM w).Nodup := ((partialMatrix_nil.foldl w).foldl alphabet).1

/-- The result of the builder is a permutation of the 25 matrix letters (43_playfair.md R172). -/
theorem buildKM_perm (w : Text) : (buildKM w).Perm matrixLetters :=
  (List.perm_ext_iff_of_nodup (buildKM_nodup w) matrixLetters_nodup).2 fun x => by
    rw [mem_buildKM_iff, mem_matrixLetters_iff]

theorem length_buildKM (w : Text) : (buildKM w).length = 25 := (buildKM_perm w).length_eq.trans length_matrixLetters

theorem builtMatrix_buildKM (w : Text) : builtMatrix (buildKM w) := ⟨length_buildKM w, buildKM_nodup w, mem_buildKM_iff w⟩

end Sys2Proof.Machine
end

section
/-! PROOFS. The invariant of the reachable states (10_state.md R23, R28, R39, 00_scope.md R6): one lemma per named update,
then one for the commands, one for the host's moves, and the step. An update of fields the invariant does not speak of keeps
it by definition. -/

namespace Sys2Proof.Machine

/-! ### The named updates -/

/-- Any admissible block right after rst meets the invariant (70_reset_and_hazards.md R270). -/
theorem State.admissible.inv_rst {s : State} (h : s.admissible) : s.rst.Inv := by
  have hempty : ∀ n, Memory.wf [] ∧ Memory.below n [] := fun n => ⟨Memory.wf_nil, by simp⟩
  have hmem : s.rst.memOk := ⟨hempty _, hempty _, hempty _, hempty _, hempty _, by simp⟩
  have hflags : s.rst.flagsOk := ⟨by simp, by simp, by simp, by simp, by simp⟩
  exact ⟨h, hmem, hflags, .inl rfl, fun _ => Nat.zero_le _⟩

theorem State.Inv.setInv {s : State} (h : s.Inv) (i : Nat) : (s.setInv i).Inv := h

theorem State.Inv.setRbs {s : State} (h : s.Inv) (r : Rbs) : (s.setRbs r).Inv := h

theorem State.Inv.answer {s : State} (h : s.Inv) (v : Word) : (s.answer v).Inv := h

theorem State.Inv.enqueue {s : State} (h : s.Inv) (ms : List HostMove) : (s.enqueue ms).Inv := h

/-- While BUSY the fault state is excluded (10_state.md R23). -/
theorem State.Inv.err_of_busy {s : State} (h : s.Inv) (hb : s.busy = true) : s.err = false := by
  obtain ⟨-, -, ⟨-, hbe, -⟩, -⟩ := h
  exact Bool.not_eq_true _ ▸ fun he => hbe ⟨hb, he⟩

theorem State.Inv.setOutput {s : State} (h : s.Inv) {t : Text} (ht : t.length ≤ s.cap) : (s.setOutput t).Inv := by
  obtain ⟨hcap, ⟨hi, -, hk, hr, hm, -⟩, hf, hkm, -⟩ := h
  refine ⟨hcap, ⟨hi, ⟨Memory.wf_ofText t, Memory.below_ofText ht⟩, hk, hr, hm, ?_⟩, hf, hkm, fun _ => ?_⟩
  · rintro j ⟨⟩
    exact Memory.below_ofText (Nat.le_refl _)
  · exact (State.toNat_length ht).trans_le ht

theorem State.Inv.setMatrix {s : State} (h : s.Inv) {g : Text} (hg : builtMatrix g) : (s.setMatrix g).Inv := by
  obtain ⟨hcap, ⟨hi, ho, hk, hr, -, hj⟩, hf, -, hol⟩ := h
  refine ⟨hcap, ⟨hi, ho, hk, hr, ⟨Memory.wf_ofText g, Memory.below_ofText hg.1.le⟩, hj⟩, hf, .inr ?_, hol⟩
  rwa [State.matrix_setMatrix hg.1]

theorem State.Inv.setKey {s : State} (h : s.Inv) {k : Text} (hk : k.length ≤ s.cap) : (s.setKey k).Inv := by
  obtain ⟨hcap, ⟨hi, ho, ⟨hwf, hbelow⟩, hr, hm, hj⟩, hf, hkm, hol⟩ := h
  have hkey : (s.keybuf.writeText 0 k).below s.cap := Memory.below_writeText hbelow (by omega)
  exact ⟨hcap, ⟨hi, ho, ⟨Memory.wf_writeText hwf 0 k, hkey⟩, hr, hm, hj⟩, hf, hkm, hol⟩

theorem State.Inv.setSchedule {s : State} (h : s.Inv) {k : Text} (hk : k.length = 32) : (s.setSchedule k).Inv := by
  obtain ⟨hcap, ⟨hi, ho, hkey, -, hm, hj⟩, hf, hkm, hol⟩ := h
  exact ⟨hcap, ⟨hi, ho, hkey, ⟨Memory.wf_ofText k, Memory.below_ofText hk.le⟩, hm, hj⟩, hf, hkm, hol⟩

@[simp] theorem length_freeText (d n : Nat) : (freeText d n).length = n := by simp [freeText]

theorem State.Inv.loseKey {s : State} (h : s.Inv) {n : Nat} (hn : n ≤ s.cap) : (s.loseKey n).Inv :=
  h.setKey (k := freeText s.tick n) (by rwa [length_freeText])

theorem State.Inv.loseSchedule {s : State} (h : s.Inv) : s.loseSchedule.Inv :=
  h.setSchedule (k := freeText s.tick Config.rksSize) (length_freeText _ _)

/-- Completion keeps the invariant outside the fault state: DONE takes the place of BUSY. -/
theorem State.Inv.complete {s : State} (h : s.Inv) (he : s.err = false) : s.complete.Inv := by
  obtain ⟨hcap, hmem, ⟨-, -, -, hzero, hcode⟩, hkm, hol⟩ := h
  exact ⟨hcap, hmem, ⟨by simp, by simp, by simp [he], hzero, hcode⟩, hkm, hol⟩

theorem Err.code_range (e : Err) : 1 ≤ e.code.toNat ∧ e.code.toNat ≤ 4 := by cases e <;> simp [Err.code]

/-- The error step keeps the invariant: its code is in range, and what it leaves unspecified of OBUF is listed nowhere. -/
theorem State.Inv.raise {s : State} (h : s.Inv) (e : Err) : (s.raise e).Inv := by
  obtain ⟨hcap, ⟨hi, ho, hk, hr, hm, hj⟩, -, hkm, -⟩ := h
  have hflags : (s.raise e).flagsOk := ⟨by simp, by simp, by simp, by simp, fun _ => e.code_range⟩
  refine ⟨hcap, ?_, hflags, hkm, by simp [State.outLenOk]⟩
  cases hp : e.precise with
  | true =>
    rw [State.memOk, State.raise_obuf, State.raise_obufJunk, if_pos hp, if_pos hp]
    exact ⟨hi, ho, hk, hr, hm, hj⟩
  | false =>
    rw [State.memOk, State.raise_obuf, State.raise_obufJunk, hp]
    exact ⟨hi, ⟨Memory.wf_nil, by simp⟩, hk, hr, hm, by simp⟩

/-- Acceptance keeps the invariant where the block accepts: BUSY takes the place of DONE (10_state.md R22, R24). -/
theorem State.Inv.accept {s : State} (h : s.Inv) (he : s.err = false) (b : Byte) : (s.accept b).Inv := by
  obtain ⟨hcap, hmem, ⟨-, -, -, hzero, hcode⟩, hkm, hol⟩ := h
  exact ⟨hcap, hmem, ⟨by simp, by simp [he], by simp, hzero, hcode⟩, hkm, hol⟩

/-! ### Completion steps -/

theorem State.Inv.keygenState {s : State} (h : s.Inv) (he : s.err = false) (hl : s.inLen.toNat ≤ s.cap) :
    (keygenState s).Inv := by
  rcases keygenState_cases s with ⟨-, heq⟩ | ⟨k, r, hk, -, heq⟩ | ⟨k, r, -, -, heq⟩ <;> rw [heq]
  · exact h.complete he
  · exact ((h.setRbs r).setKey (hk.trans_le hl)).complete he
  · exact ((h.setRbs r).loseKey hl).raise _

theorem State.Inv.feistelEncState {s : State} (h : s.Inv) (he : s.err = false) {w : Text} (hw : w.length % 8 = 0)
    (hle : w.length ≤ s.cap) : (feistelEncState w s).Inv := by
  rcases feistelEncState_cases w s with ⟨k, r, hk, -, heq⟩ | ⟨k, r, -, -, heq⟩ <;> rw [heq]
  · exact (((h.setRbs r).setSchedule hk).setOutput ((length_encRounds hw k).trans_le hle)).complete he
  · exact (h.setRbs r).loseSchedule.raise _

/-- Every command keeps the invariant outside the fault state. -/
theorem State.Inv.exec {s t : State} (h : s.Inv) (he : s.err = false) {i : Instr} (hx : exec i s = .next t) : t.Inv := by
  rcases exec_cases hx with ⟨rfl, -⟩ | ⟨j, rfl, -⟩ | ⟨u, rfl, hu, -⟩ | ⟨u, rfl, hu, -⟩ | ⟨rfl, -⟩ | ⟨rfl, -⟩ | ⟨rfl, hl, -⟩ |
    ⟨rfl, hl, -⟩
  · exact h.raise _
  · exact h.raise _
  · exact (h.setOutput hu).complete he
  · exact ((h.setInv 19).setOutput hu).complete he
  · exact (h.setInv 19).complete he
  · exact (h.setMatrix (builtMatrix_buildKM s.text)).complete ((State.setMatrix_err _ s).trans he)
  · exact h.keygenState he hl
  · exact h.feistelEncState he (length_feistelPad_mod _) hl

/-! ### Host moves -/

theorem State.Inv.hostWriteReg {s : State} (h : s.Inv) (n : Nat) (v : Word) : (hostWriteReg n v s).Inv := by
  rcases hostWriteReg_cases n v s with heq | ⟨-, -, he, heq⟩ | ⟨-, heq⟩ | ⟨-, -, heq⟩ | ⟨-, -, heq⟩ <;> rw [heq]
  · exact h
  · exact h.accept he _
  · exact h
  · exact h
  · exact h

/-- A write inside a memory keeps its canonical form and its range. -/
theorem Memory.inSpace_write {m : Memory} {n i : Nat} (h : m.wf ∧ m.below n) (hi : i < n) (v : Byte) :
    (m.write i v).wf ∧ (m.write i v).below n :=
  ⟨Memory.wf_write h.1 i v, Memory.below_write h.2 hi v⟩

theorem State.Inv.hostWriteBuf {s : State} (h : s.Inv) (sp : Space) (i : Nat) (v : Word) : (hostWriteBuf sp i v s).Inv := by
  rcases hostWriteBuf_cases sp i v s with heq | ⟨-, hsize, hwrite⟩
  · rwa [heq]
  obtain ⟨hcap, ⟨hi, ho, hk, hr, hm, hj⟩, hf, hkm, hol⟩ := h
  rcases hwrite with ⟨rfl, heq⟩ | ⟨rfl, heq⟩ | ⟨rfl, heq⟩ <;> rw [heq]
  · exact ⟨hcap, ⟨Memory.inSpace_write hi hsize _, ho, hk, hr, hm, hj⟩, hf, hkm, hol⟩
  · exact ⟨hcap, ⟨hi, ho, Memory.inSpace_write hk hsize _, hr, hm, hj⟩, hf, hkm, hol⟩
  · exact ⟨hcap, ⟨hi, ho, hk, Memory.inSpace_write hr hsize _, hm, hj⟩, hf, hkm, hol⟩

theorem State.Inv.performMove {s : State} (h : s.Inv) (m : HostMove) : (performMove m s).Inv := by
  cases m with
  | wr n v => exact h.hostWriteReg n v
  | wb sp i v => exact h.hostWriteBuf sp i v
  | rd _ | rb _ _ => exact h.answer _
  | wait =>
    simp only [Machine.performMove]
    split
    · exact (h.answer _).enqueue _
    · exact h.answer _
  | mov => exact (h.answer _).enqueue _
  | wbLast sp i => exact h.hostWriteBuf sp i _
  | rst => exact h.1.inv_rst
  | rbs _ | rbsShort _ => exact h

theorem State.Inv.hostTurn {s : State} (h : s.Inv) : (hostTurn s).Inv := by
  rcases hostTurn_cases s with ⟨-, heq⟩ | ⟨m, rest, -, heq⟩ <;> rw [heq]
  · exact h
  · exact State.Inv.performMove (s := { s with script := rest, delay := s.delay - 1 }) h m

/-! ### The obligations -/

/-- Settles O58: the reset state is what rst makes of itself. -/
theorem resetMeetsInvariant : Obligations.ResetMeetsInvariant :=
  State.admissible.inv_rst (s := State.reset) (by unfold State.admissible; decide)

/-- Settles O59: a completion step starts with BUSY, so outside the fault state; a host move starts anywhere. -/
theorem stepKeepsInvariant : Obligations.StepKeepsInvariant := by
  intro s t h hstep
  rcases step_cases hstep with ⟨hturn, i, -, hx⟩ | ⟨-, -, rfl⟩ | ⟨-, rfl⟩
  · exact h.exec (h.err_of_busy (s.engineTurn_iff.1 hturn).1) hx
  · exact h.raise _
  · exact h.hostTurn

end Sys2Proof.Machine
end

section
/-! PROOFS. The registers as the host sees them: the wired constants (10_state.md R29), CMD (R22) and the reset values (R44). -/

namespace Sys2Proof.Machine

/-- Only OUT_LEN and INV can be in flux: no command writes another register (20_memory.md R66, R75). -/
theorem State.regInFlux_eq_false (s : State) {r : Reg} (hout : r ≠ .outLen) (hinv : r ≠ .inv) : s.regInFlux r = false := by
  have hw : ∀ i, writesReg i r = false := by cases r <;> simp_all [writesReg]
  unfold State.regInFlux
  split <;> simp [hw]

/-- In every state, busy or not, a register other than OUT_LEN and INV reads as its stored value (20_memory.md R63, R75). -/
theorem State.readReg_stored (s : State) {n : Nat} {r : Reg} (hn : Reg.ofNumber n = some r) (hout : r ≠ .outLen)
    (hinv : r ≠ .inv) : s.readReg n = s.regValue r := by
  simp [State.readReg, hn, s.regInFlux_eq_false hout hinv]

theorem Reg.ofNumber_eq_none {n : Nat} (h : 11 ≤ n) : Reg.ofNumber n = none := by
  obtain ⟨k, rfl⟩ := Nat.exists_eq_add_of_le' h
  rfl

/-- Settles O48: the three registers are never in flux and no write reaches them. -/
theorem constantsReadAsWired : Obligations.ConstantsReadAsWired := by
  refine fun s => ⟨?_, ?_, ?_, fun v => ⟨rfl, rfl, rfl⟩, fun n hn => ?_⟩
  · exact s.readReg_stored (r := .affA) rfl (by decide) (by decide)
  · exact s.readReg_stored (r := .affB) rfl (by decide) (by decide)
  · exact s.readReg_stored (r := .capr) rfl (by decide) (by decide)
  · simp [State.readReg, Reg.ofNumber_eq_none hn]

theorem State.readReg_cmd (s : State) : s.readReg 0 = s.op.setWidth 32 :=
  s.readReg_stored (r := .cmd) rfl (by decide) (by decide)

theorem hostWriteReg_cmd (v : Word) (s : State) : hostWriteReg 0 v s = writeCmd v s := rfl

/-- Acceptance changes no register but CMD and STATUS. -/
theorem keepsRegs_accept (b : Byte) (s : State) :
    keepsRegs [.ctrl, .inLen, .outLen, .shift, .inv, .affA, .affB, .einfo, .capr] s (s.accept b) := by
  intro r hr
  fin_cases hr <;> rfl

/-- Settles O46: the two cases of a write to CMD, and the frame of an acceptance. -/
theorem cmdWriteAccepts : Obligations.CmdWriteAccepts := by
  refine ⟨State.reset.readReg_cmd, fun s v => ⟨s.readReg_cmd, fun hb he => ?_, fun hor => ?_⟩⟩
  · have haccept : hostWriteReg 0 v s = s.accept (v.setWidth 8) := by simp [hostWriteReg_cmd, writeCmd, hb, he]
    rw [haccept]
    exact ⟨rfl, rfl, rfl, he, rfl, State.readReg_cmd _, keepsRegs_accept _ s, fun sp _ a => State.peek_accept _ s sp a⟩
  · simp [hostWriteReg_cmd, writeCmd, hor]

theorem State.peek_reset (sp : Space) (i : Nat) : State.reset.peek sp i = 0 := by cases sp <;> rfl

/-- Settles O55: the reset state is idle, so every read answers the stored value. -/
theorem resetValues : Obligations.ResetValues := by
  have hread := State.readReg_of_idle (s := State.reset) rfl
  refine ⟨hread 0, hread 1, hread 2, hread 3, hread 4, hread 5, hread 6, hread 7, hread 8, hread 9, hread 10, rfl, ?_⟩
  intro sp i hi
  rw [State.readBuf_of_idle rfl hi, State.peek_reset]

end Sys2Proof.Machine
end

section
/-! PROOFS. IBUF beyond IN_LEN has no influence on a command (10_state.md R33). -/

namespace Sys2Proof.Machine

/-- The same block with other contents of IBUF. -/
def State.withInput (m : Memory) (s : State) : State := { s with ibuf := m }

/-- The second answer is the first with the other contents of IBUF, whenever the first is a next state. -/
def sameButInput (m : Memory) (r r' : Result) : Prop := ∀ t, r = .next t → r' = .next (t.withInput m)

/-! ### The text and the updates -/

@[simp] theorem State.withInput_inLen (m : Memory) (s : State) : (s.withInput m).inLen = s.inLen := rfl
@[simp] theorem State.withInput_rbs (m : Memory) (s : State) : (s.withInput m).rbs = s.rbs := rfl

/-- Contents of IBUF that agree below IN_LEN hold the same input text. -/
theorem State.text_withInput {m : Memory} {s : State} (h : ∀ a, a < s.inLen.toNat → m.read a = s.ibuf.read a) :
    (s.withInput m).text = s.text :=
  State.slice_congr h

theorem State.complete_setMatrix_withInput (g : Text) (m : Memory) (s : State) :
    ((s.withInput m).setMatrix g).complete = (s.setMatrix g).complete.withInput m := rfl

theorem keygenState_withInput (m : Memory) (s : State) : keygenState (s.withInput m) = (keygenState s).withInput m := by
  unfold keygenState
  rw [State.withInput_inLen, State.withInput_rbs]
  split
  · rfl
  · cases s.rbs.acquire s.inLen.toNat <;> rfl

theorem feistelEncState_withInput (w : Text) (m : Memory) (s : State) :
    feistelEncState w (s.withInput m) = (feistelEncState w s).withInput m := by
  unfold feistelEncState
  rw [State.withInput_rbs]
  cases s.rbs.drawKeys 8 <;> rfl

/-! ### The guards and the outputs -/

section
variable (m : Memory) (s : State)

theorem sameButInput_next (t : State) : sameButInput m (.next t) (.next (t.withInput m)) := by
  rintro u ⟨⟩
  rfl

theorem sameButInput_raise (e : Err) : sameButInput m (.next (s.raise e)) (.next ((s.withInput m).raise e)) :=
  sameButInput_next m (s.raise e)

variable {m s}

/-- The length check looks at IN_LEN and CAP only. -/
theorem sameButInput_guardLength {k k' : Result} (h : sameButInput m k k') :
    sameButInput m (guardLength s k) (guardLength (s.withInput m) k') := by
  rcases Nat.lt_or_ge s.cap s.inLen.toNat with hl | hl
  · rw [guardLength_of_lt hl, guardLength_of_lt (s := s.withInput m) hl]
    exact sameButInput_raise m s _
  · rwa [guardLength_of_le hl, guardLength_of_le (s := s.withInput m) hl]

variable (m s)

theorem sameButInput_guardOutput (n : Nat) (k : State) :
    sameButInput m (guardOutput n s k) (guardOutput n (s.withInput m) (k.withInput m)) := by
  intro t h
  obtain ⟨hn, rfl⟩ := guardOutput_cases h
  exact guardOutput_of_le hn _

theorem sameButInput_emit (t : Text) : sameButInput m (emit t s) (emit t (s.withInput m)) :=
  sameButInput_guardOutput m s t.length (s.setOutput t).complete

theorem sameButInput_emitSubst (r : Except Nat Text) : sameButInput m (emitSubst r s) (emitSubst r (s.withInput m)) := by
  cases r with
  | error i => exact sameButInput_raise m s _
  | ok t => exact sameButInput_emit m s t

end

/-! ### The commands -/

section
variable {m : Memory} {s : State} (h : (s.withInput m).text = s.text)
include h

/-- A command that gives an output text made of the input text. -/
theorem sameButInput_guardLength_emit (f : Text → Text) :
    sameButInput m (guardLength s (emit (f s.text) s))
      (guardLength (s.withInput m) (emit (f (s.withInput m).text) (s.withInput m))) := by
  rw [h]
  exact sameButInput_guardLength (sameButInput_emit m s _)

theorem sameButInput_execAffineDec : sameButInput m (execAffineDec s) (execAffineDec (s.withInput m)) := by
  simp only [execAffineDec, modInv26_affineA, h]
  exact sameButInput_guardLength (sameButInput_emit m (s.setInv 19) _)

theorem sameButInput_execPfEnc : sameButInput m (execPfEnc s) (execPfEnc (s.withInput m)) := by
  simp only [execPfEnc, h]
  exact sameButInput_guardLength (sameButInput_emitSubst m s _)

theorem sameButInput_execPfDec : sameButInput m (execPfDec s) (execPfDec (s.withInput m)) := by
  simp only [execPfDec, h, State.withInput_inLen]
  refine sameButInput_guardLength ?_
  split
  · exact sameButInput_raise m s _
  · exact sameButInput_emitSubst m s _

theorem sameButInput_execPfKeymx : sameButInput m (execPfKeymx s) (execPfKeymx (s.withInput m)) := by
  simp only [execPfKeymx, h, State.complete_setMatrix_withInput]
  exact sameButInput_guardLength (sameButInput_next m _)

theorem sameButInput_execFeistelEnc : sameButInput m (execFeistelEnc s) (execFeistelEnc (s.withInput m)) := by
  simp only [execFeistelEnc, h, feistelEncState_withInput]
  exact sameButInput_guardLength (sameButInput_guardOutput m s _ _)

theorem sameButInput_execFeistelDec : sameButInput m (execFeistelDec s) (execFeistelDec (s.withInput m)) := by
  simp only [execFeistelDec, h, State.withInput_inLen]
  refine sameButInput_guardLength ?_
  split
  · exact sameButInput_raise m s _
  · exact sameButInput_emit m s _

/-- Every command reads IBUF through the input text only. -/
theorem sameButInput_exec (i : Instr) : sameButInput m (exec i s) (exec i (s.withInput m)) := by
  cases i with
  | caesarEnc => exact sameButInput_guardLength_emit h (List.map (caesarByte s.shiftN))
  | caesarDec => exact sameButInput_guardLength_emit h (List.map (caesarByte (-s.shiftN)))
  | affineEnc => exact sameButInput_guardLength_emit h (List.map (affEncByte Config.affineA Config.affineB))
  | affineDec => exact sameButInput_execAffineDec h
  | affInv =>
    simp only [exec, execAffInv, modInv26_affineA]
    exact sameButInput_next m (s.setInv 19).complete
  | otpEnc => exact sameButInput_guardLength_emit h (fun t => xorText (otpFilter t) s.otpKey)
  | otpDec => exact sameButInput_guardLength_emit h (fun t => xorText t s.otpKey)
  | otpPrep => exact sameButInput_guardLength_emit h otpFilter
  | otpKeygen =>
    simp only [exec, execOtpKeygen, keygenState_withInput]
    exact sameButInput_guardLength (sameButInput_next m _)
  | pfEnc => exact sameButInput_execPfEnc h
  | pfDec => exact sameButInput_execPfDec h
  | pfPrep => exact sameButInput_guardLength_emit h pfPrep
  | pfKeymx => exact sameButInput_execPfKeymx h
  | feistelEnc => exact sameButInput_execFeistelEnc h
  | feistelDec => exact sameButInput_execFeistelDec h
  | feistelPad => exact sameButInput_guardLength_emit h feistelPad

end

/-- Settles O45: contents of IBUF that agree below IN_LEN hold the same text, and no command looks at more. -/
theorem inputBeyondLengthIgnored : Obligations.InputBeyondLengthIgnored :=
  fun i _ t _ h hx => sameButInput_exec (State.text_withInput h) i t hx

end Sys2Proof.Machine
end

section
/-! PROOFS. Who writes CAPR and KM (10_state.md R29, R38, R39). -/

namespace Sys2Proof.Machine

/-! ### The byte of PF_KEYMX -/

theorem mem_of_lookupByte {b : Byte} {i : Instr} {rows : List (Byte × Instr)} (h : lookupByte b rows = some i) :
    (b, i) ∈ rows := by
  induction rows with
  | nil => cases h
  | cons row rows ih =>
    obtain ⟨k, j⟩ := row
    rw [lookupByte] at h
    split at h
    · rename_i hk
      cases h
      exact hk ▸ List.mem_cons_self
    · exact List.mem_cons_of_mem _ (ih h)

theorem eq_of_decode_pfKeymx {b : Byte} (h : decode b = .ok .pfKeymx) : b = 0x43 := by
  have hrow := mem_of_lookupByte (decode?_of_decode h)
  simpa [opcodeMap] using hrow

/-! ### Frames of CAPR and KM -/

theorem keygenState_matrixFrame (s : State) : (keygenState s).capr = s.capr ∧ (keygenState s).km = s.km := by
  rcases keygenState_cases s with ⟨-, heq⟩ | ⟨k, r, -, -, heq⟩ | ⟨k, r, -, -, heq⟩ <;> rw [heq] <;> exact ⟨rfl, rfl⟩

theorem feistelEncState_matrixFrame (w : Text) (s : State) :
    (feistelEncState w s).capr = s.capr ∧ (feistelEncState w s).km = s.km := by
  rcases feistelEncState_cases w s with ⟨k, r, -, -, heq⟩ | ⟨k, r, -, -, heq⟩ <;> rw [heq] <;> exact ⟨rfl, rfl⟩

/-- Every command keeps CAPR, and all but PF_KEYMX keep KM. -/
theorem exec_matrixFrame {i : Instr} {s t : State} (h : exec i s = .next t) :
    t.capr = s.capr ∧ (i ≠ .pfKeymx → t.km = s.km) := by
  rcases exec_cases h with ⟨rfl, -⟩ | ⟨j, rfl, -⟩ | ⟨u, rfl, -⟩ | ⟨u, rfl, -⟩ | ⟨rfl, -⟩ | ⟨rfl, hi⟩ | ⟨rfl, -⟩ | ⟨rfl, -⟩
  · exact ⟨rfl, fun _ => rfl⟩
  · exact ⟨rfl, fun _ => rfl⟩
  · exact ⟨rfl, fun _ => rfl⟩
  · exact ⟨rfl, fun _ => rfl⟩
  · exact ⟨rfl, fun _ => rfl⟩
  · exact ⟨by simp, fun hne => absurd hi hne⟩
  · exact (keygenState_matrixFrame s).imp_right fun hkm _ => hkm
  · exact (feistelEncState_matrixFrame _ s).imp_right fun hkm _ => hkm

theorem hostWriteReg_matrixFrame (n : Nat) (v : Word) (s : State) :
    (hostWriteReg n v s).capr = s.capr ∧ (hostWriteReg n v s).km = s.km := by
  rcases hostWriteReg_cases n v s with heq | ⟨-, -, -, heq⟩ | ⟨-, heq⟩ | ⟨-, -, heq⟩ | ⟨-, -, heq⟩ <;> rw [heq] <;>
    exact ⟨rfl, rfl⟩

theorem hostWriteBuf_matrixFrame (sp : Space) (i : Nat) (v : Word) (s : State) :
    (hostWriteBuf sp i v s).capr = s.capr ∧ (hostWriteBuf sp i v s).km = s.km := by
  rcases hostWriteBuf_cases sp i v s with heq | ⟨-, -, ⟨-, heq⟩ | ⟨-, heq⟩ | ⟨-, heq⟩⟩ <;> rw [heq] <;> exact ⟨rfl, rfl⟩

/-- Every host move keeps CAPR, and all but rst keep KM. -/
theorem performMove_matrixFrame (m : HostMove) (s : State) :
    (performMove m s).capr = s.capr ∧ (m ≠ .rst → (performMove m s).km = s.km) := by
  cases m with
  | wr n v => exact (hostWriteReg_matrixFrame n v s).imp_right fun hkm _ => hkm
  | wb sp i v => exact (hostWriteBuf_matrixFrame sp i v s).imp_right fun hkm _ => hkm
  | wbLast sp i => exact (hostWriteBuf_matrixFrame sp i _ s).imp_right fun hkm _ => hkm
  | wait =>
    simp only [performMove]
    split <;> exact ⟨rfl, fun _ => rfl⟩
  | rst => exact ⟨rfl, fun hne => absurd rfl hne⟩
  | rd _ | rb _ _ | mov | rbs _ | rbsShort _ => exact ⟨rfl, fun _ => rfl⟩

theorem hostTurn_matrixFrame (s : State) :
    (hostTurn s).capr = s.capr ∧ ((∀ rest, s.script ≠ HostMove.rst :: rest) → (hostTurn s).km = s.km) := by
  rcases hostTurn_cases s with ⟨-, heq⟩ | ⟨m, rest, hscript, heq⟩ <;> rw [heq]
  · exact ⟨rfl, fun _ => rfl⟩
  · obtain ⟨hcapr, hkm⟩ := performMove_matrixFrame m { s with script := rest, delay := s.delay - 1 }
    exact ⟨hcapr, fun hrst => hkm fun hm => hrst rest (hm ▸ hscript)⟩

/-- Equal memories KM have equal bytes. -/
theorem keepsBytes_km {s t : State} (h : t.km = s.km) : keepsBytes [.km] s t := by
  intro sp hsp a
  obtain rfl := List.mem_singleton.1 hsp
  exact congrArg (Memory.read · a) h

/-- Settles O60: KM is written by the commands' frame only under the byte 0x43, and by the host's only through rst. -/
theorem matrixWrittenOnlyByKeymx : Obligations.MatrixWrittenOnlyByKeymx := by
  intro s t hstep
  rcases step_cases hstep with ⟨hturn, i, hdec, hx⟩ | ⟨-, -, rfl⟩ | ⟨-, rfl⟩
  · obtain ⟨hcapr, hkm⟩ := exec_matrixFrame hx
    refine ⟨hcapr, fun hnot _ => keepsBytes_km (hkm fun hi => hnot ⟨hturn, ?_⟩)⟩
    exact eq_of_decode_pfKeymx (hi ▸ hdec)
  · exact ⟨rfl, fun _ _ => keepsBytes_km rfl⟩
  · obtain ⟨hcapr, hkm⟩ := hostTurn_matrixFrame s
    exact ⟨hcapr, fun _ hrst => keepsBytes_km (hkm hrst)⟩

end Sys2Proof.Machine
end

section
/-! PROOFS. The host's accesses (20_memory.md R63 to R65, R75, R76): what a register and a byte memory read as, busy or
not, and what a write changes and leaves. -/

namespace Sys2Proof.Machine

/-! ### The words STATUS and CTRL -/

/-- The word STATUS is the sum of its fields at their places (10_state.md R23). -/
theorem State.toNat_status (s : State) :
    s.status.toNat = 16 * s.ecode.toNat + 4 * s.err.toNat + 2 * s.done.toNat + s.busy.toNat := by
  have hfields : ∀ (c : BitVec 4) (e d b : Bool),
      (c ++ (0#1 ++ (BitVec.ofBool e ++ (BitVec.ofBool d ++ BitVec.ofBool b)))).toNat =
        16 * c.toNat + 4 * e.toNat + 2 * d.toNat + b.toNat := by decide
  exact hfields s.ecode s.err s.done s.busy

/-- A flag, extended with zeros, is the low bit of the word it has been written with (10_state.md R26). -/
theorem setWidth_append_ofBool_getLsbD (v : Word) : (0#7 ++ BitVec.ofBool (v.getLsbD 0)).setWidth 32 = v &&& 1 := by
  have hflag : ∀ b : Bool, (0#7 ++ BitVec.ofBool b).setWidth 32 = (BitVec.ofBool b).setWidth 32 := by decide
  exact (hflag _).trans (BitVec.and_one_eq_setWidth_ofBool_getLsbD).symm

/-! ### Registers as they read -/

theorem State.readReg_status (s : State) : s.readReg 1 = s.status.setWidth 32 :=
  s.readReg_stored (r := .status) rfl (by decide) (by decide)

/-- A read of STATUS answers BUSY in bit 0, in every state. -/
theorem State.getLsbD_readReg_status (s : State) : (s.readReg 1).getLsbD 0 = s.busy := by
  have hodd : s.status.toNat % 2 = s.busy.toNat := by
    have := s.toNat_status
    have := s.busy.toNat_lt
    omega
  rw [s.readReg_status, BitVec.getLsbD_setWidth, ← BitVec.testBit_toNat, Nat.testBit_zero, hodd]
  cases s.busy <;> rfl

theorem State.readReg_ctrl (s : State) : s.readReg 2 = s.ctrl.setWidth 32 :=
  s.readReg_stored (r := .ctrl) rfl (by decide) (by decide)

theorem State.readReg_inLen (s : State) : s.readReg 3 = s.inLen.setWidth 32 :=
  s.readReg_stored (r := .inLen) rfl (by decide) (by decide)

theorem State.readReg_shift (s : State) : s.readReg 5 = s.shift :=
  s.readReg_stored (r := .shift) rfl (by decide) (by decide)

/-! ### Memories as they read -/

/-- Below the size, a memory the command in progress does not write reads as stored (20_memory.md R65, R75). -/
theorem State.readBuf_stored {s : State} {sp : Space} (hflux : s.spaceInFlux sp = false) {i : Nat} (hi : i < s.size sp) :
    s.readBuf sp i = s.peek sp i := by
  simp [State.readBuf, hflux, hi]

/-- Every byte that names a command is that command's byte (30_encoding.md R92). -/
theorem eq_encode_of_decode? {b : Byte} {i : Instr} (h : decode? b = some i) : b = encode i := by
  have hrows : ∀ row ∈ opcodeMap, row.1 = encode row.2 := by decide
  exact hrows (b, i) (mem_of_lookupByte h)

/-- A memory that one command alone writes is in flux only while OP is that command's byte. -/
theorem State.spaceInFlux_eq_false {s : State} {sp : Space} {i : Instr} (hw : ∀ j, writesSpace j sp = true → j = i)
    (hop : s.op ≠ encode i) : s.spaceInFlux sp = false := by
  unfold State.spaceInFlux
  split
  · rename_i j hj
    have hno : writesSpace j sp = false := by
      rw [Bool.eq_false_iff]
      exact fun hj' => hop (hw j hj' ▸ eq_encode_of_decode? hj)
    rw [hno, Bool.and_false]
  · exact Bool.and_false _

/-- No command writes IBUF (20_memory.md R66). -/
theorem State.spaceInFlux_ibuf (s : State) : s.spaceInFlux .ibuf = false := by
  unfold State.spaceInFlux
  split <;> exact Bool.and_false _

/-! ### What a write does -/

theorem hostWriteReg_ctrl (v : Word) (s : State) : hostWriteReg 2 v s = { s with ie := v.getLsbD 0 } := rfl

theorem hostWriteReg_inLen (v : Word) {s : State} (h : s.busy = false) :
    hostWriteReg 3 v s = { s with inLen := v.setWidth 16 } := by
  simp [hostWriteReg, Reg.ofNumber, State.writeReg, h]

theorem hostWriteReg_shift (v : Word) {s : State} (h : s.busy = false) : hostWriteReg 5 v s = { s with shift := v } := by
  simp [hostWriteReg, Reg.ofNumber, State.writeReg, h]

/-- Numbers other than those of CMD, CTRL, IN_LEN and SHIFT ignore a write (20_memory.md R64). -/
theorem hostWriteReg_of_readOnly {n : Nat} (h0 : n ≠ 0) (h2 : n ≠ 2) (h3 : n ≠ 3) (h5 : n ≠ 5) (v : Word) (s : State) :
    hostWriteReg n v s = s := by
  rcases hostWriteReg_cases n v s with heq | ⟨hn, -⟩ | ⟨hn, -⟩ | ⟨hn, -⟩ | ⟨hn, -⟩
  · exact heq
  · exact absurd hn h0
  · exact absurd hn h2
  · exact absurd hn h3
  · exact absurd hn h5

/-- While BUSY every register but CTRL ignores a write (20_memory.md R76). -/
theorem hostWriteReg_of_busy {s : State} (hb : s.busy = true) {n : Nat} (hn : n ≠ 2) (v : Word) :
    hostWriteReg n v s = s := by
  have hidle : s.busy ≠ false := by simp [hb]
  rcases hostWriteReg_cases n v s with heq | ⟨-, h, -⟩ | ⟨h, -⟩ | ⟨-, h, -⟩ | ⟨-, h, -⟩
  · exact heq
  · exact absurd h hidle
  · exact absurd h hn
  · exact absurd h hidle
  · exact absurd h hidle

theorem hostWriteBuf_of_busy {s : State} (hb : s.busy = true) (sp : Space) (i : Nat) (v : Word) :
    hostWriteBuf sp i v s = s := by
  simp [hostWriteBuf, hb]

theorem hostWriteBuf_of_size_le {s : State} {sp : Space} {i : Nat} (hi : s.size sp ≤ i) (v : Word) :
    hostWriteBuf sp i v s = s := by
  simp [hostWriteBuf, hi]

/-- An idle block stores the low byte of a write inside a memory (20_memory.md R65). -/
theorem hostWriteBuf_of_idle {s : State} (hb : s.busy = false) {sp : Space} {i : Nat} (hi : i < s.size sp) (v : Word) :
    hostWriteBuf sp i v s = s.poke i (v.setWidth 8) sp := by
  simp [hostWriteBuf, hb, hi]

/-- OBUF and KM ignore a write (20_memory.md R65). -/
theorem hostWriteBuf_of_engineOnly {sp : Space} (h : sp = .obuf ∨ sp = .km) (i : Nat) (v : Word) (s : State) :
    hostWriteBuf sp i v s = s := by
  rcases h with rfl | rfl <;> exact ite_self s

/-! ### What a write leaves -/

/-- A write to a register changes no byte of memory, an acceptance included. -/
theorem keepsBytes_hostWriteReg (sps : List Space) (n : Nat) (v : Word) (s : State) :
    keepsBytes sps s (hostWriteReg n v s) := by
  intro sp _ a
  rcases hostWriteReg_cases n v s with heq | ⟨-, -, -, heq⟩ | ⟨-, heq⟩ | ⟨-, -, heq⟩ | ⟨-, -, heq⟩ <;> rw [heq] <;>
    cases sp <;> rfl

/-- A write to one memory leaves every other. -/
theorem State.peek_poke_of_ne {sp sq : Space} (h : sq ≠ sp) (s : State) (i : Nat) (v : Byte) (a : Nat) :
    (s.poke i v sp).peek sq a = s.peek sq a := by
  cases sp <;> cases sq <;> simp_all [State.poke, State.peek, State.obufByte]

/-- A byte the host stores is read back at its index, and the other bytes of the memory stay. -/
theorem State.peek_poke_self {sp : Space} (h : sp = .ibuf ∨ sp = .keybuf ∨ sp = .rks) (s : State) (i : Nat) (v : Byte)
    (a : Nat) : (s.poke i v sp).peek sp a = if a = i then v else s.peek sp a := by
  rcases h with rfl | rfl | rfl <;> exact Memory.read_write _ i v a

theorem State.regValue_poke (s : State) (i : Nat) (v : Byte) (sp : Space) (r : Reg) :
    (s.poke i v sp).regValue r = s.regValue r := by
  cases sp <;> cases r <;> rfl

/-! ### The obligations -/

/-- Settles O47: the three writable registers by their equations, every other number by the list of what a write can do. -/
theorem registerWritesTruncate : Obligations.RegisterWritesTruncate := by
  refine fun s v => ⟨⟨?_, fun r hr => ?_, keepsBytes_hostWriteReg _ 2 v s⟩, fun hb => ?_,
    fun n h0 h2 h3 h5 => hostWriteReg_of_readOnly h0 h2 h3 h5 v s⟩
  · rw [State.readReg_ctrl]
    exact setWidth_append_ofBool_getLsbD v
  · fin_cases hr <;> rfl
  · refine ⟨?_, fun r hr => ?_, keepsBytes_hostWriteReg _ 3 v s, ?_, fun r hr => ?_, keepsBytes_hostWriteReg _ 5 v s⟩
    · rw [hostWriteReg_inLen v hb, State.readReg_inLen]
    · rw [hostWriteReg_inLen v hb]
      fin_cases hr <;> rfl
    · rw [hostWriteReg_shift v hb, State.readReg_shift]
    · rw [hostWriteReg_shift v hb]
      fin_cases hr <;> rfl

/-- Settles O49: inside a memory the host may write, a write is `poke`; anywhere else it is ignored. -/
theorem bufferAccesses : Obligations.BufferAccesses := by
  refine fun s sp i v hb => ⟨State.readBuf_of_idle hb, fun hsp hi => ?_, fun hignored => ?_⟩
  · rw [hostWriteBuf_of_idle hb hi]
    refine ⟨?_, fun sq a hne => ?_, fun r _ => State.regValue_poke s i _ sp r⟩
    · rw [State.peek_poke_self hsp, if_pos rfl]
    · by_cases hsq : sq = sp
      · subst hsq
        rw [State.peek_poke_self hsp, if_neg (hne.resolve_left fun h => h rfl)]
      · exact State.peek_poke_of_ne hsq s i _ a
  · rcases hignored with h | h | h
    · exact hostWriteBuf_of_engineOnly (.inl h) i v s
    · exact hostWriteBuf_of_engineOnly (.inr h) i v s
    · exact hostWriteBuf_of_size_le h v

/-- Settles O50: a read only records its answer, and an idle block has no register in flux. -/
theorem readsHaveNoSideEffect : Obligations.ReadsHaveNoSideEffect := by
  refine ⟨?_, fun s hb => ?_, State.toNat_status⟩
  · rintro s t n sp i (rfl | rfl) <;> exact ⟨keepsAll_answer _ s, rfl, rfl, rfl, rfl, rfl, rfl, rfl⟩
  · have hread := State.readReg_of_idle hb
    exact ⟨hread 0, hread 1, hread 2, hread 3, hread 4, hread 5, hread 6, hread 9⟩

/-- Settles O51: the two kinds of write of a busy block. -/
theorem writesWhileBusyIgnored : Obligations.WritesWhileBusyIgnored :=
  fun _ hb => ⟨fun _ v hn => hostWriteReg_of_busy hb hn v, fun sp i v => hostWriteBuf_of_busy hb sp i v⟩

/-- Settles O52: none of the registers is ever in flux, and a memory is in flux only under the one command that writes it. -/
theorem busyReadsOfStoredValues : Obligations.BusyReadsOfStoredValues := by
  intro s hb
  obtain ⟨haffA, haffB, hcapr, -⟩ := constantsReadAsWired s
  refine ⟨⟨s.readReg_cmd, s.readReg_status, s.getLsbD_readReg_status.trans hb, s.readReg_ctrl, s.readReg_inLen,
    s.readReg_shift, haffA, haffB, hcapr⟩, ?_, fun hop => ?_, fun hop => ?_, fun hop => ?_⟩
  · exact fun i hi => State.readBuf_stored s.spaceInFlux_ibuf hi
  · exact fun i hi => State.readBuf_stored (State.spaceInFlux_eq_false (i := .otpKeygen) (by simp [writesSpace]) hop) hi
  · exact fun i hi => State.readBuf_stored (State.spaceInFlux_eq_false (i := .feistelEnc) (by simp [writesSpace]) hop) hi
  · exact fun i hi => State.readBuf_stored (State.spaceInFlux_eq_false (i := .pfKeymx) (by simp [writesSpace]) hop) hi

end Sys2Proof.Machine
end

section
/-! PROOFS. Whose turn a step is (20_memory.md R70, R71), and that the host's turns put off a completion only as often as
the delay allows (R72). -/

namespace Sys2Proof.Machine

/-! ### The two kinds of step -/

theorem step_of_engineTurn {s : State} (h : s.engineTurn = true) : step s = engineStep s := if_pos h

theorem step_of_hostTurn {s : State} (h : s.engineTurn = false) : step s = .next (hostTurn s) :=
  if_neg (Bool.eq_false_iff.1 h)

theorem engineStep_of_decode {s : State} {i : Instr} (h : decode s.op = .ok i) : engineStep s = exec i s := by
  simp [engineStep, h]

/-- The host is next when nothing is in progress, or when it has a move that still fits (20_memory.md R72). -/
theorem State.engineTurn_eq_false_iff (s : State) :
    s.engineTurn = false ↔ s.busy = false ∨ s.delay ≠ 0 ∧ s.script ≠ [] := by
  rw [Bool.eq_false_iff, ne_eq, s.engineTurn_iff]
  cases s.busy <;> simp

theorem hostTurn_of_script {s : State} {m : HostMove} {rest : List HostMove} (h : s.script = m :: rest) :
    hostTurn s = performMove m { s with script := rest, delay := s.delay - 1 } := by
  simp [hostTurn, h]

theorem hostTurn_of_nil {s : State} (h : s.script = []) : hostTurn s = s := by simp [hostTurn, h]

/-- `wait` reads STATUS, and comes again while it has read BUSY = 1 (30_encoding.md R101). -/
theorem performMove_wait (s : State) :
    performMove .wait s = if s.busy then (hostReadReg 1 s).enqueue [.wait] else hostReadReg 1 s := by
  rw [performMove, s.getLsbD_readReg_status]

/-- Settles O3: whose turn it is decides between the two kinds of step, and each move is its access by definition. -/
theorem stepRunsDecodedCommand : Obligations.StepRunsDecodedCommand := by
  refine ⟨fun s i hb hnext hdec => ?_, fun s m rest hturn hscript => ?_, fun s hb hscript => ?_, fun s => ?_, fun s => ?_⟩
  · rw [step_of_engineTurn (s.engineTurn_iff.2 ⟨hb, hnext⟩), engineStep_of_decode hdec]
  · have hhost : s.engineTurn = false :=
      s.engineTurn_eq_false_iff.2 (hturn.imp_right fun hd => ⟨hd, by simp [hscript]⟩)
    rw [step_of_hostTurn hhost, hostTurn_of_script hscript]
  · rw [step_of_hostTurn (s.engineTurn_eq_false_iff.2 (.inl hb)), hostTurn_of_nil hscript]
  · refine ⟨fun _ _ => rfl, fun _ => rfl, fun _ _ _ => rfl, fun _ _ => rfl, rfl, fun _ _ => rfl, fun hb => ?_, fun hb => ?_,
      fun _ => rfl, fun _ => rfl⟩
    · rw [performMove_wait, if_pos hb]
      rfl
    · rw [performMove_wait, if_neg (by simp [hb])]
  · exact ⟨fun _ => rfl, fun _ _ => rfl⟩

/-! ### Every completion step ends BUSY -/

theorem keygenState_busy (s : State) : (keygenState s).busy = false := by
  rcases keygenState_cases s with ⟨-, heq⟩ | ⟨k, r, -, -, heq⟩ | ⟨k, r, -, -, heq⟩ <;> rw [heq] <;> rfl

theorem feistelEncState_busy (w : Text) (s : State) : (feistelEncState w s).busy = false := by
  rcases feistelEncState_cases w s with ⟨k, r, -, -, heq⟩ | ⟨k, r, -, -, heq⟩ <;> rw [heq] <;> rfl

/-- Every command ends with BUSY = 0, with or without error (20_memory.md R71, 60_exceptions.md R240). -/
theorem exec_busy {i : Instr} {s t : State} (h : exec i s = .next t) : t.busy = false := by
  rcases exec_cases h with ⟨rfl, -⟩ | ⟨j, rfl, -⟩ | ⟨u, rfl, -⟩ | ⟨u, rfl, -⟩ | ⟨rfl, -⟩ | ⟨rfl, -⟩ | ⟨rfl, -⟩ | ⟨rfl, -⟩
  · rfl
  · rfl
  · rfl
  · rfl
  · rfl
  · rfl
  · exact keygenState_busy s
  · exact feistelEncState_busy _ s

theorem step_busy_of_engineTurn {s t : State} (hturn : s.engineTurn = true) (h : step s = .next t) : t.busy = false := by
  rcases step_cases h with ⟨-, i, -, hx⟩ | ⟨-, -, rfl⟩ | ⟨hno, -⟩
  · exact exec_busy hx
  · rfl
  · exact absurd hturn (Bool.eq_false_iff.1 hno)

/-! ### The host's turns while BUSY -/

theorem hostWriteReg_delay_of_busy {s : State} (hb : s.busy = true) (n : Nat) (v : Word) :
    (hostWriteReg n v s).delay = s.delay := by
  by_cases hn : n = 2
  · rw [hn, hostWriteReg_ctrl]
  · rw [hostWriteReg_of_busy hb hn]

/-- A move made while BUSY leaves the count of the moves that fit; only rst ends the command (70_reset_and_hazards.md R270). -/
theorem performMove_delay_of_busy {s : State} (hb : s.busy = true) (m : HostMove) :
    (performMove m s).busy = false ∨ (performMove m s).delay = s.delay := by
  cases m with
  | wr n v => exact .inr (hostWriteReg_delay_of_busy hb n v)
  | wb sp i v => exact .inr (congrArg State.delay (hostWriteBuf_of_busy hb sp i v))
  | wbLast sp i => exact .inr (congrArg State.delay (hostWriteBuf_of_busy hb sp i _))
  | wait =>
    rw [performMove_wait, if_pos hb]
    exact .inr rfl
  | rst => exact .inl rfl
  | rd _ | rb _ _ | mov | rbs _ | rbsShort _ => exact .inr rfl

/-- A turn the host takes while BUSY uses up one of the moves that fit, or ends the command. -/
theorem hostTurn_delay_of_busy {s : State} (hb : s.busy = true) (hscript : s.script ≠ []) :
    (hostTurn s).busy = false ∨ (hostTurn s).delay = s.delay - 1 := by
  obtain ⟨m, rest, hcons⟩ := List.exists_cons_of_ne_nil hscript
  rw [hostTurn_of_script hcons]
  exact performMove_delay_of_busy (s := { s with script := rest, delay := s.delay - 1 }) hb m

/-- A step taken while BUSY ends the command or uses up one of the moves that fit. -/
theorem step_delay_of_busy {s t : State} (hb : s.busy = true) (h : step s = .next t) :
    t.busy = false ∨ t.delay < s.delay := by
  cases hturn : s.engineTurn with
  | true => exact .inl (step_busy_of_engineTurn hturn h)
  | false =>
    obtain ⟨hdelay, hscript⟩ := (s.engineTurn_eq_false_iff.1 hturn).resolve_left (by simp [hb])
    obtain rfl : hostTurn s = t := by simpa [step_of_hostTurn hturn] using h
    exact (hostTurn_delay_of_busy hb hscript).imp_right fun heq => by omega

/-- CAP stays admissible over every step (00_scope.md R6). -/
theorem State.admissible.step {s t : State} (hadm : s.admissible) (h : step s = .next t) : t.admissible := by
  rw [State.admissible, State.cap, (matrixWrittenOnlyByKeymx s t h).1]
  exact hadm

/-- Settles O6, by strong induction on the number of moves that fit. -/
theorem busyEnds : Obligations.BusyEnds := by
  intro s hadm hb
  induction hn : s.delay using Nat.strong_induction_on generalizing s with
  | _ n ih =>
    obtain ⟨t, ht⟩ := everyStepGoesOn s hadm
    cases hbt : t.busy with
    | false => exact ⟨1, t, by omega, run_succ ht 0, hbt⟩
    | true =>
      have hless : t.delay < n := hn ▸ (step_delay_of_busy hb ht).resolve_left (by simp [hbt])
      obtain ⟨k, u, hk, hrun, hu⟩ := ih t.delay hless t (hadm.step ht) hbt rfl
      exact ⟨k + 1, u, by omega, (run_succ ht k).trans hrun, hu⟩

end Sys2Proof.Machine
end

section
/-! PROOFS. What a completion step leaves unchanged (20_memory.md R66), by the model's own tables of what a command writes. The
frame is proved once per named update and composed along each command. -/

namespace Sys2Proof.Machine

/-! ### The row of a command -/

/-- What a command leaves however it ends: its inputs, and INV, the memories besides OBUF and the source unless its row of
20_memory.md R66 names them. OBUF and OUT_LEN, which an error may leave unspecified, have `keepsOutput`. -/
structure keepsRow (i : Instr) (s t : State) : Prop where
  inputs : keepsInputs s t
  inv : writesReg i .inv = false → t.inv = s.inv
  bytes : ∀ sp, sp ≠ .obuf → writesSpace i sp = false → ∀ a, t.peek sp a = s.peek sp a
  source : i ≠ .otpKeygen → i ≠ .feistelEnc → t.rbs = s.rbs

section
variable {i : Instr} {s t u : State}

theorem keepsRow.refl (i : Instr) (s : State) : keepsRow i s s :=
  ⟨keepsInputs_of rfl rfl rfl rfl rfl rfl rfl rfl, fun _ => rfl, fun _ _ _ _ => rfl, fun _ _ => rfl⟩

theorem keepsRow.trans (h : keepsRow i s t) (k : keepsRow i t u) : keepsRow i s u where
  inputs := keepsInputs_trans h.inputs k.inputs
  inv hi := (k.inv hi).trans (h.inv hi)
  bytes sp hsp hi a := (k.bytes sp hsp hi a).trans (h.bytes sp hsp hi a)
  source hk hf := (k.source hk hf).trans (h.source hk hf)

/-! ### The named updates -/

theorem keepsRow.complete (h : keepsRow i s t) : keepsRow i s t.complete :=
  h.trans ⟨keepsInputs_complete t, fun _ => rfl, fun sp _ _ a => State.peek_complete t sp a, fun _ _ => rfl⟩

theorem keepsRow.raise (h : keepsRow i s t) (e : Err) : keepsRow i s (t.raise e) :=
  h.trans ⟨keepsInputs_raise e t, fun _ => rfl, fun _ hsp _ a => State.peek_raise hsp e t a, fun _ _ => rfl⟩

theorem keepsRow.setOutput (h : keepsRow i s t) (w : Text) : keepsRow i s (t.setOutput w) :=
  h.trans ⟨keepsInputs_setOutput w t, fun _ => rfl, fun _ hsp _ a => State.peek_setOutput hsp w t a, fun _ _ => rfl⟩

theorem keepsRow.setInv (h : keepsRow i s t) (hi : writesReg i .inv = true) (n : Nat) : keepsRow i s (t.setInv n) := by
  refine h.trans ⟨keepsInputs_of rfl rfl rfl rfl rfl rfl rfl rfl, fun hno => ?_, fun sp _ _ _ => ?_, fun _ _ => rfl⟩
  · simp [hi] at hno
  · cases sp <;> rfl

theorem keepsRow.setRbs (h : keepsRow i s t) (hi : i = .otpKeygen ∨ i = .feistelEnc) (r : Rbs) :
    keepsRow i s (t.setRbs r) := by
  refine h.trans ⟨keepsInputs_of rfl rfl rfl rfl rfl rfl rfl rfl, fun _ => rfl, fun sp _ _ _ => ?_, fun hk hf => ?_⟩
  · cases sp <;> rfl
  · exact (hi.elim hk hf).elim

theorem keepsRow.setKey (h : keepsRow i s t) (hi : writesSpace i .keybuf = true) (k : Text) : keepsRow i s (t.setKey k) := by
  refine h.trans ⟨keepsInputs_of rfl rfl rfl rfl rfl rfl rfl rfl, fun _ => rfl, fun sp _ hno _ => ?_, fun _ _ => rfl⟩
  cases sp with
  | keybuf => simp [hi] at hno
  | _ => rfl

theorem keepsRow.setSchedule (h : keepsRow i s t) (hi : writesSpace i .rks = true) (k : Text) :
    keepsRow i s (t.setSchedule k) := by
  refine h.trans ⟨keepsInputs_of rfl rfl rfl rfl rfl rfl rfl rfl, fun _ => rfl, fun sp _ hno _ => ?_, fun _ _ => rfl⟩
  cases sp with
  | rks => simp [hi] at hno
  | _ => rfl

theorem keepsRow.setMatrix (h : keepsRow i s t) (hi : writesSpace i .km = true) (g : Text) :
    keepsRow i s (t.setMatrix g) := by
  refine h.trans ⟨keepsInputs_of rfl rfl rfl rfl rfl rfl rfl rfl, fun _ => rfl, fun sp _ hno _ => ?_, fun _ _ => rfl⟩
  cases sp with
  | km => simp [hi] at hno
  | _ => rfl

/-- No clause of a row speaks of the number of the next draw. -/
theorem keepsRow.withTick (h : keepsRow i s t) (n : Nat) : keepsRow i s { t with tick := n } :=
  ⟨h.inputs, h.inv, h.bytes, h.source⟩

theorem keepsRow.loseKey (h : keepsRow i s t) (hi : writesSpace i .keybuf = true) (n : Nat) : keepsRow i s (t.loseKey n) :=
  (h.setKey hi _).withTick _

theorem keepsRow.loseSchedule (h : keepsRow i s t) (hi : writesSpace i .rks = true) : keepsRow i s t.loseSchedule :=
  (h.setSchedule hi _).withTick _

end

/-! ### The commands -/

theorem keepsRow_keygenState (s : State) : keepsRow .otpKeygen s (keygenState s) := by
  have hsource := fun r => (keepsRow.refl .otpKeygen s).setRbs (.inl rfl) r
  rcases keygenState_cases s with ⟨-, heq⟩ | ⟨k, r, -, -, heq⟩ | ⟨k, r, -, -, heq⟩ <;> rw [heq]
  · exact (keepsRow.refl _ s).complete
  · exact ((hsource r).setKey rfl k).complete
  · exact ((hsource r).loseKey rfl _).raise _

theorem keepsRow_feistelEncState (w : Text) (s : State) : keepsRow .feistelEnc s (feistelEncState w s) := by
  have hsource := fun r => (keepsRow.refl .feistelEnc s).setRbs (.inr rfl) r
  rcases feistelEncState_cases w s with ⟨k, r, -, -, heq⟩ | ⟨k, r, -, -, heq⟩ <;> rw [heq]
  · exact (((hsource r).setSchedule rfl k).setOutput _).complete
  · exact ((hsource r).loseSchedule rfl).raise _

/-- Every command keeps what is outside its row, however it ends (20_memory.md R66). -/
theorem exec_keepsRow {i : Instr} {s t : State} (h : exec i s = .next t) : keepsRow i s t := by
  have hrefl := keepsRow.refl i s
  rcases exec_cases h with ⟨rfl, -⟩ | ⟨j, rfl, -⟩ | ⟨u, rfl, -⟩ | ⟨u, rfl, -, rfl⟩ | ⟨rfl, rfl⟩ | ⟨rfl, rfl⟩ | ⟨rfl, -, rfl⟩ |
    ⟨rfl, -, rfl⟩
  · exact hrefl.raise _
  · exact hrefl.raise _
  · exact (hrefl.setOutput u).complete
  · exact ((hrefl.setInv rfl 19).setOutput u).complete
  · exact (hrefl.setInv rfl 19).complete
  · exact (hrefl.setMatrix rfl _).complete
  · exact keepsRow_keygenState s
  · exact keepsRow_feistelEncState _ s

/-! ### OBUF and OUT_LEN -/

/-- OUT_LEN, OBUF and which part of OBUF is unspecified are as before. -/
def keepsOutput (s t : State) : Prop := t.outLen = s.outLen ∧ t.obuf = s.obuf ∧ t.obufJunk = s.obufJunk

theorem keepsOutput.frame {s t : State} (h : keepsOutput s t) : keepsRegs [.outLen] s t ∧ keepsBytes [.obuf] s t := by
  obtain ⟨hlen, hobuf, hjunk⟩ := h
  refine ⟨fun r hr => ?_, fun sp hsp a => ?_⟩
  · obtain rfl := List.mem_singleton.1 hr
    simp [State.regValue, hlen]
  · obtain rfl := List.mem_singleton.1 hsp
    simp [State.peek, State.obufByte, hobuf, hjunk]

theorem keepsOutput_setMatrix (g : Text) (s : State) : keepsOutput s (s.setMatrix g).complete := ⟨rfl, rfl, rfl⟩

/-- OTP_KEYGEN keeps the output when it completes; its short read does not complete (60_exceptions.md R242). -/
theorem keepsOutput_keygenState {s : State} (hdone : (keygenState s).done = true) : keepsOutput s (keygenState s) := by
  rcases keygenState_cases s with ⟨-, heq⟩ | ⟨k, r, -, -, heq⟩ | ⟨k, r, -, -, heq⟩ <;> rw [heq] at hdone ⊢
  · exact ⟨rfl, rfl, rfl⟩
  · exact ⟨rfl, rfl, rfl⟩
  · simp at hdone

/-- A command that gives no text keeps the output, but for the short read of OTP_KEYGEN (10_state.md R28). -/
theorem exec_keepsOutput {i : Instr} {s t : State} (h : exec i s = .next t) (hi : textProducing i = false)
    (hdone : i = .otpKeygen → t.done = true) : keepsOutput s t := by
  rcases exec_cases h with ⟨rfl, -⟩ | ⟨j, -, rfl | rfl⟩ | ⟨u, -, -, htext, -⟩ | ⟨u, -, -, rfl⟩ | ⟨rfl, -⟩ | ⟨rfl, -⟩ |
    ⟨rfl, -, hkey⟩ | ⟨-, -, rfl⟩
  · exact ⟨rfl, rfl, rfl⟩
  · cases hi
  · cases hi
  · simp [hi] at htext
  · cases hi
  · exact ⟨rfl, rfl, rfl⟩
  · exact keepsOutput_setMatrix _ s
  · exact keepsOutput_keygenState (hdone hkey)
  · cases hi

/-! ### The obligation -/

/-- Settles O44: the clauses of the row, read off the tables of what the command writes. -/
theorem engineWritesOnlyItsRow : Obligations.EngineWritesOnlyItsRow := by
  intro i s t h
  obtain ⟨hinputs, hinv, hbytes, hsource⟩ := exec_keepsRow h
  have hspace : ∀ sp, sp ≠ .obuf → writesSpace i sp = false → keepsBytes [sp] s t := by
    intro sp hsp hi sq hsq a
    obtain rfl := List.mem_singleton.1 hsq
    exact hbytes sq hsp hi a
  refine ⟨hinputs, fun hne hne' r hr => ?_, fun hi => ?_, fun hi hdone => ?_, fun hne => ?_, fun hne => ?_, fun hne => ?_,
    hsource⟩
  · obtain rfl := List.mem_singleton.1 hr
    exact congrArg (BitVec.setWidth 32) (hinv (by simp [writesReg, hne, hne']))
  · refine (exec_keepsOutput h ?_ ?_).frame <;> rcases hi with rfl | rfl <;> simp [textProducing]
  · exact (exec_keepsOutput h (hi ▸ rfl) fun _ => hdone).frame
  · exact hspace .keybuf (by decide) (by simp [writesSpace, hne])
  · exact hspace .rks (by decide) (by simp [writesSpace, hne])
  · exact hspace .km (by decide) (by simp [writesSpace, hne])

end Sys2Proof.Machine
end

section
/-! PROOFS. The command bytes: the opcode map read in both directions (30_encoding.md R90 to R98). -/

namespace Sys2Proof.Machine

theorem decode_of_decode? {b : Byte} {i : Instr} (h : decode? b = some i) : decode b = .ok i := by
  rw [decode_eq, h]

/-- A map that has no byte twice answers the command of every row. -/
theorem lookupByte_of_mem {b : Byte} {i : Instr} {rows : List (Byte × Instr)} (hnodup : (rows.map Prod.fst).Nodup)
    (h : (b, i) ∈ rows) : lookupByte b rows = some i := by
  induction rows with
  | nil => cases h
  | cons row rows ih =>
    obtain ⟨hnew, hrest⟩ := List.nodup_cons.1 hnodup
    rcases List.mem_cons.1 h with rfl | hmem
    · exact if_pos rfl
    · have hne : row.1 ≠ b := fun heq => hnew (heq ▸ List.mem_map_of_mem hmem)
      exact (if_neg hne).trans (ih hrest hmem)

/-- The decoder is the opcode map (30_encoding.md R92, R98). -/
theorem decode_eq_ok_iff (b : Byte) (i : Instr) : decode b = .ok i ↔ (b, i) ∈ opcodeMap :=
  ⟨fun h => mem_of_lookupByte (decode?_of_decode h),
    fun h => decode_of_decode? (lookupByte_of_mem test_opcodeMap_unambiguous.1 h)⟩

/-- Settles O1: a row found is a row of the map, and the map has no byte twice. -/
theorem decoderFollowsOpcodeMap : Obligations.DecoderFollowsOpcodeMap := decode_eq_ok_iff

/-- The byte put together from UNIT and FUNC stands in the command's row (30_encoding.md R92 to R94). -/
theorem encode_mem_opcodeMap (i : Instr) : (encode i, i) ∈ opcodeMap := by
  cases i <;> decide

/-- UNIT is the high and FUNC the low half of the byte (30_encoding.md R90). -/
theorem toNat_encode (i : Instr) : (encode i).toNat = i.unit.toNat * 16 + i.func.toNat := by
  rw [encode, BitVec.toNat_append, ← Nat.shiftLeft_add_eq_or_of_lt i.func.isLt, Nat.shiftLeft_eq]

/-- Settles O2: each command's byte stands in its row, and its two halves are the fields. -/
theorem decodeEncodeAgree : Obligations.DecodeEncodeAgree :=
  fun i => ⟨(decode_eq_ok_iff _ i).2 (encode_mem_opcodeMap i), toNat_encode i⟩

end Sys2Proof.Machine
end

section
/-! PROOFS. The pseudo-operation `mov` (30_encoding.md R104): its expansion, move by move, on a block that is not
busy. -/

namespace Sys2Proof.Machine

/-! ### The states of the expansion -/

/-- The two accesses of each byte from index `lo` on, `n` bytes in all (30_encoding.md R104). -/
def copyMoves (lo n : Nat) : List HostMove := (List.range' lo n).flatMap fun i => [.rb .obuf i, .wbLast .ibuf i]

theorem copyMoves_succ (lo n : Nat) :
    copyMoves lo (n + 1) = .rb .obuf lo :: .wbLast .ibuf lo :: copyMoves (lo + 1) n := rfl

theorem movRest_eq (n : Word) : movRest n = copyMoves 0 n.toNat ++ [.wr 0x03 n] := by
  rw [movRest, copyMoves, List.range_eq_range']

/-- `t` is the state `s` except that IBUF is `m`, the moves `ms` are waiting, and the model's own record of the host's
accesses has gone on. -/
def copying (s : State) (m : Memory) (ms : List HostMove) (t : State) : Prop :=
  ∃ answers delay tick,
    t = { s with ibuf := m, script := ms, answers := answers, delay := delay, tick := tick }

theorem step_of_idle {s : State} {m : HostMove} {rest : List HostMove} (hb : s.busy = false)
    (hscript : s.script = m :: rest) :
    step s = .next (performMove m { s with script := rest, delay := s.delay - 1 }) := by
  rw [step_of_hostTurn (s.engineTurn_eq_false_iff.2 (.inl hb)), hostTurn_of_script hscript]

section
variable {s t : State} {m : Memory} {ms : List HostMove} (hb : s.busy = false)
include hb

/-! ### One step per access -/

/-- The first access, `rd OUT_LEN`, puts the rest of the expansion on the script. -/
theorem step_mov (hscript : s.script = [.mov]) :
    ∃ t, step s = .next t ∧
      copying s s.ibuf (copyMoves 0 s.outLen.toNat ++ [.wr 0x03 (s.outLen.setWidth 32)]) t := by
  have hread : State.readReg { s with script := [], delay := s.delay - 1 } 0x04 = s.outLen.setWidth 32 :=
    State.readReg_of_idle hb 0x04
  have hlen : (s.outLen.setWidth 32).toNat = s.outLen.toNat := BitVec.toNat_setWidth_of_le (by decide)
  refine ⟨_, step_of_idle hb hscript, s.outLen.setWidth 32 :: s.answers, s.delay - 1, s.tick + 1, ?_⟩
  rw [performMove, hostReadReg, hread, movRest_eq, hlen, State.enqueue]
  simp [State.answer]

/-- `rb OBUF, i` answers the byte stored there. -/
theorem copying.step_rb {i : Nat} (h : copying s m (.rb .obuf i :: ms) t) (hi : i < s.cap) :
    ∃ u, step t = .next u ∧ copying s m ms u ∧ u.answers.headD 0 = (s.peek .obuf i).setWidth 32 := by
  obtain ⟨answers, delay, tick, rfl⟩ := h
  refine ⟨_, step_of_idle hb rfl, ⟨_, delay - 1, tick + 1, rfl⟩, ?_⟩
  refine congrArg (BitVec.setWidth 32) (State.readBuf_of_idle (sp := .obuf) ?_ ?_)
  exacts [hb, hi]

/-- `wb IBUF, i` stores the low byte of what the host has read last. -/
theorem copying.step_wbLast {i : Nat} (h : copying s m (.wbLast .ibuf i :: ms) t) (hi : i < s.cap) :
    ∃ u, step t = .next u ∧ copying s (m.write i ((t.answers.headD 0).setWidth 8)) ms u := by
  obtain ⟨answers, delay, tick, rfl⟩ := h
  refine ⟨_, step_of_idle hb rfl, answers, delay - 1, tick, ?_⟩
  refine hostWriteBuf_of_idle (sp := .ibuf) ?_ ?_ _
  exacts [hb, hi]

/-- The last access, `wr IN_LEN, n`. -/
theorem copying.step_wr {v : Word} (h : copying s m [.wr 0x03 v] t) :
    ∃ u, step t = .next u ∧ copying { s with inLen := v.setWidth 16 } m [] u := by
  obtain ⟨answers, delay, tick, rfl⟩ := h
  exact ⟨_, step_of_idle hb rfl, answers, delay - 1, tick, hostWriteReg_inLen v hb⟩

/-! ### The loop and the whole expansion -/

/-- The two accesses of byte `i` copy it from OBUF to IBUF. -/
theorem copying.run_byte {i : Nat} (h : copying s m (.rb .obuf i :: .wbLast .ibuf i :: ms) t) (hi : i < s.cap) :
    ∃ u, copying s (m.write i (s.peek .obuf i)) ms u ∧
      ∀ k, Host.Core.run Sys2Proof.core (k + 2) t = Host.Core.run Sys2Proof.core k u := by
  obtain ⟨v, hv, hcopy, hlast⟩ := h.step_rb hb hi
  obtain ⟨u, hu, hcopy'⟩ := hcopy.step_wbLast hb hi
  have hbyte : (v.answers.headD 0).setWidth 8 = s.peek .obuf i := by
    rw [hlast, BitVec.setWidth_setWidth_of_le _ (by decide), BitVec.setWidth_eq]
  rw [hbyte] at hcopy'
  exact ⟨u, hcopy', fun k => (run_succ hv _).trans (run_succ hu k)⟩

/-- The accesses of `n` bytes from index `lo` on copy OBUF[lo..lo+n) to IBUF. -/
theorem copying.run_copyMoves {n lo : Nat} (h : copying s m (copyMoves lo n ++ ms) t) (hcap : lo + n ≤ s.cap) :
    ∃ u, copying s (m.writeText lo ((List.range' lo n).map (s.peek .obuf))) ms u ∧
      ∀ k, Host.Core.run Sys2Proof.core (2 * n + k) t = Host.Core.run Sys2Proof.core k u := by
  induction n generalizing lo m t with
  | zero => exact ⟨t, h, fun k => by rw [Nat.mul_zero, Nat.zero_add]⟩
  | succ n ih =>
    rw [copyMoves_succ] at h
    obtain ⟨v, hcopy, hv⟩ := h.run_byte hb (by omega)
    obtain ⟨u, hcopy', hu⟩ := ih hcopy (by omega)
    refine ⟨u, hcopy', fun k => ?_⟩
    rw [← hu, ← hv]
    congr 1
    omega

/-- `mov` runs to its end: IBUF has taken OBUF[0..OUT_LEN), IN_LEN its length (30_encoding.md R104). -/
theorem run_mov (hscript : s.script = [.mov]) (hcap : s.outLen.toNat ≤ s.cap) :
    ∃ t, Host.Core.run Sys2Proof.core (2 * s.outLen.toNat + 2) s = .next t ∧
      copying { s with inLen := s.outLen } (s.ibuf.writeText 0 s.outText) [] t := by
  obtain ⟨t, ht, hstart⟩ := step_mov hb hscript
  obtain ⟨u, hcopied, hu⟩ := hstart.run_copyMoves hb (by omega)
  obtain ⟨v, hv, hend⟩ := hcopied.step_wr hb
  refine ⟨v, ?_, ?_⟩
  · rw [run_succ ht, hu, run_succ hv]
    rfl
  · simpa [State.outText, State.slice, List.range_eq_range'] using hend

end

/-! ### What the expansion changes and leaves -/

theorem copying.frame {s t : State} {m : Memory} {ms : List HostMove} {n : Half16}
    (h : copying { s with inLen := n } m ms t) :
    keepsRegs [.cmd, .status, .ctrl, .outLen, .shift, .inv, .affA, .affB, .einfo, .capr] s t ∧
      keepsBytes [.obuf, .keybuf, .rks, .km] s t := by
  obtain ⟨answers, delay, tick, rfl⟩ := h
  refine ⟨fun r hr => ?_, fun sp hsp a => ?_⟩
  · fin_cases hr <;> rfl
  · fin_cases hsp <;> rfl

/-- IBUF after the copy: the output text, then the old bytes (30_encoding.md R104). -/
theorem State.read_writeText_outText (s : State) (a : Nat) :
    (s.ibuf.writeText 0 s.outText).read a = if a < s.outLen.toNat then s.peek .obuf a else s.peek .ibuf a := by
  simp only [Memory.read_writeText, State.outText, State.length_slice, Nat.zero_le, true_and, Nat.zero_add,
    Nat.sub_zero]
  split
  · exact State.getD_slice s .obuf ‹_›
  · rfl

/-- Settles O57: the expansion run to its end, and what its last state holds. -/
theorem movCopiesOutputToInput : Obligations.MovCopiesOutputToInput := by
  intro s hb hscript hcap
  obtain ⟨t, hrun, hcopy⟩ := run_mov hb hscript hcap
  obtain ⟨hregs, hbytes⟩ := hcopy.frame
  obtain ⟨answers, delay, tick, rfl⟩ := hcopy
  refine ⟨_, hrun, rfl, rfl, fun a ha => ?_, fun a ha => ?_, hregs, hbytes⟩
  · exact (s.read_writeText_outText a).trans (if_pos ha)
  · exact (s.read_writeText_outText a).trans (if_neg (by omega))

end Sys2Proof.Machine
end

section
/-! PROOFS. The commands that check IN_LEN and complete with an output text: their two ends (20_memory.md R71, 60_exceptions.md
R232), and their output as the next input (30_encoding.md R104). -/

namespace Sys2Proof.Machine

/-- A text too long for the block ends any command that checks IN_LEN first. -/
theorem guardLength_lengthError {s : State} (h : s.cap < s.inLen.toNat) (k : Result) :
    ∃ t, guardLength s k = .next t ∧ lengthError s t :=
  ⟨_, guardLength_of_lt h k, lengthError_raise s⟩

/-- An output text as long as the input text completes the command, and OUT_LEN takes the value of IN_LEN. -/
theorem guardLength_emit_gives {s : State} {u : Text} (hu : u.length = s.inLen.toNat) (h : s.inLen.toNat ≤ s.cap) :
    ∃ t, guardLength s (emit u s) = .next t ∧ gaveText u s t ∧ t.outLen = s.inLen ∧ keepsInputs s t ∧
      keepsRegs [.inv] s t ∧ keepsBytes [.keybuf, .rks, .km] s t := by
  have hfit : u.length ≤ s.cap := hu.trans_le h
  obtain ⟨hgave, hlen, hframe⟩ := emit_gives hfit
  exact ⟨_, (guardLength_of_le h _).trans (emit_of_le hfit), hgave, BitVec.eq_of_toNat_eq (hlen.trans hu), hframe⟩

/-- An output moved back is the input text of the next command, and passes its length check. -/
theorem movedBack_setOutput {s u : State} {w : Text} (hw : w.length ≤ s.cap) (h : movedBack (s.setOutput w).complete u) :
    u.text = w ∧ u.inLen.toNat ≤ u.cap := by
  obtain ⟨⟨-, hout⟩, hlen, -⟩ := emit_gives hw
  refine ⟨(text_movedBack h).trans hout, ?_⟩
  obtain ⟨hin, -, hcapr⟩ := h
  rw [hin, hlen, State.cap_eq, hcapr]
  exact hw

/-- A command that maps the bytes of its text is undone by the command that maps them back. -/
theorem guardLength_map_roundTrip {f g : Byte → Byte} (hgf : Function.LeftInverse g f) {s t u : State}
    (hl : s.inLen.toNat ≤ s.cap) (hback : movedBack t u) (h : guardLength s (emit (s.text.map f) s) = .next t) :
    ∃ v, guardLength u (emit (u.text.map g) u) = .next v ∧ gaveText s.text u v := by
  rw [guardLength_of_le hl] at h
  obtain ⟨hfit, rfl⟩ := emit_cases h
  obtain ⟨htext, hlu⟩ := movedBack_setOutput hfit hback
  have hmap : u.text.map g = s.text := htext ▸ Function.LeftInverse.list_map hgf s.text
  obtain ⟨v, hv, hgave, -⟩ := guardLength_emit_gives (u := u.text.map g) (by simp) hlu
  exact ⟨v, hv, hmap ▸ hgave⟩

end Sys2Proof.Machine
end

section
/-! PROOFS. The Caesar commands (40_caesar.md): the shifts of a byte compose, and the commands map them over the text. -/

namespace Sys2Proof.Machine

/-! ### The floored modulus -/

theorem floorMod_congr {x y : Int} {m : Nat} (h : x ≡ y [ZMOD m]) : floorMod x m = floorMod y m :=
  congrArg Int.toNat h

theorem floorMod_floorMod_add (x y : Int) {m : Nat} (hm : 0 < m) :
    floorMod ((floorMod x m : Int) + y) m = floorMod (x + y) m := by
  rw [floorMod_cast x hm]
  exact floorMod_congr ((Int.mod_modEq x m).add_right y)

/-! ### The shifts of a byte -/

theorem caesarByte_of_none (n : Int) {c : Byte} (h : ord62 c = none) : caesarByte n c = c := by
  simp only [caesarByte, h]

theorem caesarByte_of_ord62 (n : Int) {c : Byte} {k : Nat} (h : ord62 c = some k) :
    caesarByte n c = chr62 (floorMod (k + n) 62) := by
  simp only [caesarByte, h]

theorem ord62_caesarByte (n : Int) {c : Byte} {k : Nat} (h : ord62 c = some k) :
    ord62 (caesarByte n c) = some (floorMod (k + n) 62) := by
  rw [caesarByte_of_ord62 n h, ord62_chr62 (Nat.le_of_lt_succ (floorMod_lt _ (by decide)))]

/-- Only the residue of the shift modulo 62 counts (40_caesar.md R116). -/
theorem caesarByte_congr {m n : Int} (h : m ≡ n [ZMOD 62]) (c : Byte) : caesarByte m c = caesarByte n c := by
  cases hc : ord62 c with
  | none => rw [caesarByte_of_none m hc, caesarByte_of_none n hc]
  | some k => rw [caesarByte_of_ord62 m hc, caesarByte_of_ord62 n hc, floorMod_congr (h.add_left k)]

theorem caesarByte_caesarByte (m n : Int) (c : Byte) : caesarByte m (caesarByte n c) = caesarByte (n + m) c := by
  cases hc : ord62 c with
  | none => rw [caesarByte_of_none n hc, caesarByte_of_none m hc, caesarByte_of_none (n + m) hc]
  | some k =>
    rw [caesarByte_of_ord62 m (ord62_caesarByte n hc), caesarByte_of_ord62 (n + m) hc,
      floorMod_floorMod_add _ _ (by decide), add_assoc]

theorem caesarByte_zero (c : Byte) : caesarByte 0 c = c := by
  cases hc : ord62 c with
  | none => exact caesarByte_of_none 0 hc
  | some k =>
    obtain ⟨hk, rfl⟩ := (ord62_eq_some_iff c k).1 hc
    have hmod : floorMod (k + 0) 62 = k := by
      rw [floorMod]
      omega
    rw [caesarByte_of_ord62 0 hc, hmod]

/-- Opposite shifts undo each other (40_caesar.md R114). -/
theorem caesarByte_leftInverse {m n : Int} (h : n + m = 0) : Function.LeftInverse (caesarByte m) (caesarByte n) := by
  intro c
  rw [caesarByte_caesarByte, h, caesarByte_zero]

/-! ### The commands -/

theorem exec_caesarEnc (s : State) :
    exec .caesarEnc s = guardLength s (emit (s.text.map (caesarByte s.shift.toInt)) s) := rfl

theorem exec_caesarDec (s : State) :
    exec .caesarDec s = guardLength s (emit (s.text.map (caesarByte (-s.shift.toInt))) s) := rfl

/-- A shift and its opposite in two blocks: CAESAR_DEC takes the same step as CAESAR_ENC (40_caesar.md R116). -/
theorem exec_caesarDec_of_toInt_eq_neg {s t : State} {w : Word} (hw : w.toInt = -s.shift.toInt)
    (h : exec .caesarEnc s = .next t) : exec .caesarDec { s with shift := w } = .next { t with shift := w } := by
  have hshift : -w.toInt = s.shift.toInt := by rw [hw, neg_neg]
  rw [exec_caesarEnc] at h
  rw [exec_caesarDec, hshift]
  rcases guardLength_cases h with ⟨hl, rfl⟩ | ⟨hl, hemit⟩
  · exact guardLength_of_lt (s := { s with shift := w }) hl _
  · obtain ⟨hfit, rfl⟩ := emit_cases hemit
    rw [guardLength_of_le (s := { s with shift := w }) hl]
    exact emit_of_le (s := { s with shift := w }) hfit

/-! ### The obligations -/

/-- Settles O8: the two ends of a command that maps the bytes of its text. -/
theorem caesarEncResult : Obligations.CaesarEncResult := by
  refine ⟨(decodeEncodeAgree .caesarEnc).1, fun s => ⟨fun hl => ?_, fun hl => ?_⟩⟩ <;> rw [exec_caesarEnc]
  · exact guardLength_emit_gives (by simp) hl
  · exact guardLength_lengthError hl _

/-- Settles O9: as O8, with the opposite shift. -/
theorem caesarDecResult : Obligations.CaesarDecResult := by
  refine ⟨(decodeEncodeAgree .caesarDec).1, fun s => ⟨fun hl => ?_, fun hl => ?_⟩⟩ <;> rw [exec_caesarDec]
  · exact guardLength_emit_gives (by simp) hl
  · exact guardLength_lengthError hl _

/-- Settles O10: with the same SHIFT the two commands shift by opposite numbers, in either order. -/
theorem caesarRoundTrip : Obligations.CaesarRoundTrip := by
  intro s t u hl hback hshift
  rw [exec_caesarEnc, exec_caesarDec, exec_caesarEnc, exec_caesarDec, hshift]
  constructor
  · exact guardLength_map_roundTrip (caesarByte_leftInverse (add_neg_cancel _)) hl hback
  · exact guardLength_map_roundTrip (caesarByte_leftInverse (neg_add_cancel _)) hl hback

/-- Settles O11: the shifted ordinal, the residue of the shift, and the opposite shift. -/
theorem caesarPassThroughAndPeriod : Obligations.CaesarPassThroughAndPeriod := by
  refine ⟨fun c n => ⟨caesarByte_of_none n, fun k => ord62_caesarByte n⟩, fun c n => ?_, fun s t w => ?_⟩
  · exact caesarByte_congr Int.add_modEq_right.symm c
  · exact exec_caesarDec_of_toInt_eq_neg

end Sys2Proof.Machine
end

section
/-! PROOFS. The Affine commands (41_affine_modinv.md): AFFINE_DEC is a text command that writes INV besides, and the two
byte functions undo each other with the inverse 19 of 11. -/

namespace Sys2Proof.Machine

/-! ### Writing INV -/

theorem State.peek_setInv (i : Nat) (s : State) (sp : Space) (a : Nat) : (s.setInv i).peek sp a = s.peek sp a := by
  cases sp <;> rfl

theorem keepsInputs_setInv (i : Nat) (s : State) : keepsInputs s (s.setInv i) :=
  keepsInputs_of rfl rfl rfl rfl rfl rfl rfl rfl

theorem keepsBytes_setInv (sps : List Space) (i : Nat) (s : State) : keepsBytes sps s (s.setInv i) :=
  fun sp _ a => State.peek_setInv i s sp a

/-- Where a command completes with a text, the same command with INV written before the text completes with that text, and
INV written is all that differs. -/
theorem guardLength_emit_setInv {w out : Text} {s t : State} (i : Nat) (h : guardLength s (emit w s) = .next t)
    (hgave : gaveText out s t) :
    guardLength s (emit w (s.setInv i)) = .next (t.setInv i) ∧ gaveText out s (t.setInv i) := by
  refine ⟨?_, hgave⟩
  rcases guardLength_cases h with ⟨-, rfl⟩ | ⟨hl, hemit⟩
  · obtain ⟨⟨-, hdone, -⟩, -⟩ := hgave
    cases hdone
  · obtain ⟨hfit, rfl⟩ := emit_cases hemit
    rw [guardLength_of_le hl]
    exact emit_of_le (s := s.setInv i) hfit

/-! ### The commands -/

theorem exec_affineEnc (s : State) : exec .affineEnc s = guardLength s (emit (s.text.map (affEncByte 11 19)) s) := rfl

theorem exec_affInv (s : State) : exec .affInv s = .next (s.setInv 19).complete := by
  simp only [exec, execAffInv, modInv26_affineA]

theorem exec_affineDec (s : State) :
    exec .affineDec s = guardLength s (emit (s.text.map (affDecByte 19 19)) (s.setInv 19)) := by
  simp only [exec, execAffineDec, modInv26_affineA, Config.affineB]

/-- AFFINE_DEC undoes AFFINE_ENC on every byte (41_affine_modinv.md R137). -/
theorem affDecByte_leftInverse : Function.LeftInverse (affDecByte 19 19) (affEncByte 11 19) :=
  affDecByte_affEncByte modInv26_affineA 19

/-- AFFINE_ENC undoes AFFINE_DEC on every byte (41_affine_modinv.md R137). -/
theorem affEncByte_leftInverse : Function.LeftInverse (affEncByte 11 19) (affDecByte 19 19) :=
  affEncByte_affDecByte modInv26_affineA 19

/-! ### The obligations -/

/-- Settles O13: the two ends of a command that maps the bytes of its text. -/
theorem affineEncResult : Obligations.AffineEncResult := by
  refine ⟨(decodeEncodeAgree .affineEnc).1, fun s => ⟨fun hl => ?_, fun hl => ?_⟩⟩ <;> rw [exec_affineEnc]
  · exact guardLength_emit_gives (by simp) hl
  · exact guardLength_lengthError hl _

/-- Settles O14: the state with INV written, whose other contents are those from before. -/
theorem affInvResult : Obligations.AffInvResult := by
  refine ⟨(decodeEncodeAgree .affInv).1, fun s => ⟨_, exec_affInv s, completed_complete (s.setInv 19), rfl, ?_, ?_, ?_⟩⟩
  · exact keepsInputs_trans (keepsInputs_setInv 19 s) (keepsInputs_complete _)
  · intro r hr
    obtain rfl := List.mem_singleton.1 hr
    rfl
  · exact keepsBytes_trans (keepsBytes_setInv _ 19 s) fun sp _ a => State.peek_complete _ sp a

/-- Settles O15: the two ends of a command that maps the bytes of its text, INV written at the good one only. -/
theorem affineDecResult : Obligations.AffineDecResult := by
  refine ⟨(decodeEncodeAgree .affineDec).1, fun s => ⟨fun hl => ?_, fun hl => ?_⟩⟩ <;> rw [exec_affineDec]
  · obtain ⟨t, ht, hgave, hlen, hinputs, -, hbytes⟩ :=
      guardLength_emit_gives (u := s.text.map (affDecByte 19 19)) (by simp) hl
    obtain ⟨hexec, hgave'⟩ := guardLength_emit_setInv 19 ht hgave
    exact ⟨t.setInv 19, hexec, hgave', hlen, rfl, keepsInputs_trans hinputs (keepsInputs_setInv 19 t),
      keepsBytes_trans hbytes (keepsBytes_setInv _ 19 t)⟩
  · exact guardLength_lengthError hl _

/-- Settles O16: the byte functions undo each other, and the INV that AFFINE_DEC writes is no part of a text. -/
theorem affineRoundTrip : Obligations.AffineRoundTrip := by
  intro s t u hl hback
  rw [exec_affineEnc, exec_affineDec, exec_affineEnc, exec_affineDec]
  constructor <;> intro h
  · obtain ⟨v, hv, hgave⟩ := guardLength_map_roundTrip affDecByte_leftInverse hl hback h
    exact ⟨v.setInv 19, guardLength_emit_setInv 19 hv hgave⟩
  · rw [guardLength_of_le hl] at h
    obtain ⟨hfit, rfl⟩ := emit_cases h
    have hback' : movedBack (s.setOutput (s.text.map (affDecByte 19 19))).complete u := hback
    exact guardLength_map_roundTrip affEncByte_leftInverse hl hback' ((guardLength_of_le hl _).trans (emit_of_le hfit))

end Sys2Proof.Machine
end

section
/-! PROOFS. The one-time-pad commands (42_otp.md): OTP_PREP, OTP_ENC and OTP_DEC give a text as long as the input text,
OTP_KEYGEN writes KEYBUF from one acquisition, and an XOR with one key undoes itself. -/

namespace Sys2Proof.Machine

/-! ### XOR with a key -/

theorem getD_xorText {p k : Text} {i : Nat} (hp : i < p.length) (hk : i < k.length) :
    (xorText p k).getD i 0 = p.getD i 0 ^^^ k.getD i 0 := by
  simp [xorText, hp, hk]

/-- The XOR with a key at least as long as the text undoes itself (42_otp.md R158). -/
theorem xorText_xorText {p k : Text} (h : p.length ≤ k.length) : xorText (xorText p k) k = p := by
  induction p generalizing k with
  | nil => rfl
  | cons x p ih =>
    cases k with
    | nil => cases h
    | cons y k =>
      have hbyte : x ^^^ y ^^^ y = x := by rw [BitVec.xor_assoc, BitVec.xor_self, BitVec.xor_zero]
      exact congrArg₂ List.cons hbyte (ih (Nat.le_of_succ_le_succ h))

/-- OBUF holds the output text byte by byte (10_state.md R28). -/
theorem gaveText.peek_obuf {w : Text} {s t : State} (h : gaveText w s t) {i : Nat} (hi : i < t.outLen.toNat) :
    t.peek .obuf i = w.getD i 0 := by
  obtain ⟨-, rfl⟩ := h
  exact (State.getD_slice t .obuf hi).symm

/-- A command that XORs a text as long as the input text with the key in KEYBUF completes with the XOR of each byte. -/
theorem guardLength_emit_xorText {s : State} {p : Text} (hp : p.length = s.inLen.toNat) (hl : s.inLen.toNat ≤ s.cap) :
    ∃ t, guardLength s (emit (xorText p s.otpKey) s) = .next t ∧ completed s t ∧ t.outLen = s.inLen ∧
      (∀ i, i < s.inLen.toNat → t.peek .obuf i = p.getD i 0 ^^^ s.peek .keybuf i) ∧
      keepsInputs s t ∧ keepsRegs [.inv] s t ∧ keepsBytes [.keybuf, .rks, .km] s t := by
  obtain ⟨t, ht, hgave, hlen, hframe⟩ :=
    guardLength_emit_gives (u := xorText p s.otpKey) (by simp [hp]) hl
  refine ⟨t, ht, hgave.1, hlen, fun i hi => ?_, hframe⟩
  have hkey : s.otpKey.getD i 0 = s.peek .keybuf i := State.getD_slice s .keybuf hi
  rw [hgave.peek_obuf (hlen ▸ hi), getD_xorText (hp ▸ hi) (by simpa using hi), hkey]

/-! ### Key generation -/

/-- A full answer of the source is the key (42_otp.md R154). -/
theorem keygenState_of_bytes {s : State} {k : Text} {r : Rbs} (hne : s.inLen ≠ 0)
    (hk : s.rbs.acquire s.inLen.toNat = .bytes k r) :
    k.length = s.inLen.toNat ∧ keygenState s = ((s.setRbs r).setKey k).complete := by
  rcases keygenState_cases s with ⟨h0, -⟩ | ⟨k', r', hlen, hk', heq⟩ | ⟨k', r', -, hk', -⟩
  · exact absurd (BitVec.eq_of_toNat_eq h0) hne
  · cases hk.symm.trans hk'
    exact ⟨hlen, heq⟩
  · cases hk.symm.trans hk'

/-- A short answer of the source is the error RbsShort, with the number of bytes that came (42_otp.md R154). -/
theorem keygenState_of_short {s : State} {k : Nat} {r : Rbs} (hne : s.inLen ≠ 0)
    (hk : s.rbs.acquire s.inLen.toNat = .short k r) :
    k < s.inLen.toNat ∧ keygenState s = ((s.setRbs r).loseKey s.inLen.toNat).raise (.rbsShort k) := by
  rcases keygenState_cases s with ⟨h0, -⟩ | ⟨k', r', -, hk', -⟩ | ⟨k', r', hlt, hk', heq⟩
  · exact absurd (BitVec.eq_of_toNat_eq h0) hne
  · cases hk.symm.trans hk'
  · cases hk.symm.trans hk'
    exact ⟨hlt, heq⟩

theorem keygenState_of_zero {s : State} (h : s.inLen = 0) : keygenState s = s.complete := by
  simp [keygenState, h]

theorem State.peek_loseKey_of_le {n a : Nat} (h : n ≤ a) (s : State) :
    (s.loseKey n).peek .keybuf a = s.peek .keybuf a := by
  have hbeyond : ¬ a < (freeText s.tick n).length := by simpa using h
  exact (State.peek_setKey (freeText s.tick n) s a).trans (if_neg hbeyond)

/-- The frame of OTP_KEYGEN however it ends (20_memory.md R66). -/
theorem keygenState_frame (s : State) : keepsInputs s (keygenState s) ∧ keepsRegs [.inv] s (keygenState s) ∧
    keepsBytes [.rks, .km] s (keygenState s) := by
  obtain ⟨hinputs, hinv, hbytes, -⟩ := keepsRow_keygenState s
  refine ⟨hinputs, fun r hr => ?_, fun sp hsp => ?_⟩
  · obtain rfl := List.mem_singleton.1 hr
    exact congrArg (BitVec.setWidth 32) (hinv rfl)
  · fin_cases hsp
    · exact hbytes .rks (by decide) rfl
    · exact hbytes .km (by decide) rfl

/-- The frame of OTP_KEYGEN when it completes: the output stays, too (42_otp.md R154). -/
theorem keygenState_frame_of_done {s : State} (h : (keygenState s).done = true) :
    keepsInputs s (keygenState s) ∧ keepsRegs [.outLen, .inv] s (keygenState s) ∧
      keepsBytes [.obuf, .rks, .km] s (keygenState s) := by
  obtain ⟨hinputs, hinv, hbytes⟩ := keygenState_frame s
  obtain ⟨hlen, hobuf⟩ := (keepsOutput_keygenState h).frame
  refine ⟨hinputs, List.forall_mem_cons.2 ⟨?_, hinv⟩, List.forall_mem_cons.2 ⟨?_, hbytes⟩⟩
  · exact hlen .outLen (List.mem_singleton.2 rfl)
  · exact hobuf .obuf (List.mem_singleton.2 rfl)

/-! ### The commands -/

theorem exec_otpPrep (s : State) : exec .otpPrep s = guardLength s (emit (otpFilter s.text) s) := rfl

theorem exec_otpEnc (s : State) : exec .otpEnc s = guardLength s (emit (xorText (otpFilter s.text) s.otpKey) s) := rfl

theorem exec_otpDec (s : State) : exec .otpDec s = guardLength s (emit (xorText s.text s.otpKey) s) := rfl

theorem exec_otpKeygen (s : State) : exec .otpKeygen s = guardLength s (.next (keygenState s)) := rfl

theorem exec_otpKeygen_of_le {s : State} (h : s.inLen.toNat ≤ s.cap) : exec .otpKeygen s = .next (keygenState s) :=
  (exec_otpKeygen s).trans (guardLength_of_le h _)

/-! ### The obligations -/

/-- Settles O19: the two ends of a command whose output is as long as its text. -/
theorem otpPrepResult : Obligations.OtpPrepResult := by
  refine ⟨(decodeEncodeAgree .otpPrep).1, fun s => ⟨fun hl => ?_, fun hl => ?_⟩⟩ <;> rw [exec_otpPrep]
  · exact guardLength_emit_gives (by simp) hl
  · exact guardLength_lengthError hl _

/-- Settles O20: one end for each answer of the source, and the two ends that do not ask it. -/
theorem otpKeygenResult : Obligations.OtpKeygenResult := by
  refine ⟨(decodeEncodeAgree .otpKeygen).1, fun s => ⟨fun h0 => ?_, fun hne hl => ⟨fun k r hk => ?_, fun k r hk => ?_⟩,
    fun hl => ?_⟩⟩
  · have hl : s.inLen.toNat ≤ s.cap := by simp [h0]
    refine ⟨_, exec_otpKeygen_of_le hl, ?_⟩
    have heq := keygenState_of_zero h0
    obtain ⟨hinputs, hregs, -⟩ := keygenState_frame_of_done (s := s) (by rw [heq]; rfl)
    rw [heq] at hinputs hregs ⊢
    exact ⟨completed_complete s, rfl, hinputs, hregs, fun sp _ a => State.peek_complete s sp a⟩
  · obtain ⟨hlen, heq⟩ := keygenState_of_bytes hne hk
    have hframe := keygenState_frame_of_done (s := s) (by rw [heq]; rfl)
    refine ⟨_, exec_otpKeygen_of_le hl, ?_⟩
    rw [heq] at hframe ⊢
    refine ⟨completed_complete ((s.setRbs r).setKey k), rfl, State.otpKey_setKey hlen, fun a ha => ?_, hframe⟩
    rw [State.peek_complete, State.peek_setKey, if_neg (by omega)]
    rfl
  · obtain ⟨hlt, heq⟩ := keygenState_of_short hne hk
    have hframe := keygenState_frame s
    refine ⟨_, exec_otpKeygen_of_le hl, ?_⟩
    rw [heq] at hframe ⊢
    refine ⟨failed_raise _ _, hlt, fun a ha => ?_, hframe⟩
    rw [State.peek_raise (by decide), State.peek_loseKey_of_le ha]
    rfl
  · exact ⟨_, (exec_otpKeygen s).trans (guardLength_of_lt hl _), lengthError_raise s, rfl⟩

/-- Settles O21: the XOR of the filtered text, byte by byte. -/
theorem otpEncResult : Obligations.OtpEncResult := by
  refine ⟨(decodeEncodeAgree .otpEnc).1, fun s => ⟨fun hl => ?_, fun hl => ?_⟩⟩ <;> rw [exec_otpEnc]
  · exact guardLength_emit_xorText (by simp) hl
  · exact guardLength_lengthError hl _

/-- Settles O22: the XOR of the text itself, whose bytes are those of IBUF. -/
theorem otpDecResult : Obligations.OtpDecResult := by
  refine ⟨(decodeEncodeAgree .otpDec).1, fun s => ⟨fun hl => ?_, fun hl => ?_⟩⟩ <;> rw [exec_otpDec]
  · obtain ⟨t, ht, hdone, hlen, hbytes, hframe⟩ := guardLength_emit_xorText s.length_text hl
    refine ⟨t, ht, hdone, hlen, fun i hi => ?_, hframe⟩
    have hibuf : s.text.getD i 0 = s.peek .ibuf i := State.getD_slice s .ibuf hi
    rw [hbytes i hi, hibuf]
  · exact guardLength_lengthError hl _

/-- Settles O23: the ciphertext moved back meets the same key, and the XOR with it leaves the filtered text. -/
theorem otpRoundTrip : Obligations.OtpRoundTrip := by
  intro s t u hl henc hback hkeybuf
  rw [exec_otpEnc, guardLength_of_le hl] at henc
  obtain ⟨hfit, rfl⟩ := emit_cases henc
  obtain ⟨htext, hlu⟩ := movedBack_setOutput hfit hback
  have hlen : u.inLen.toNat = s.inLen.toNat := by simpa using congrArg List.length htext
  have hkey : u.otpKey = s.otpKey := by
    rw [State.otpKey, State.otpKey, hlen]
    exact State.slice_congr hkeybuf
  have hplain : xorText u.text u.otpKey = otpFilter s.text := by
    rw [htext, hkey, xorText_xorText (by simp)]
  obtain ⟨v, hv, hgave, -⟩ := guardLength_emit_gives (u := xorText u.text u.otpKey) (by simp) hlu
  rw [hplain] at hgave
  refine ⟨v, hv, hgave, fun hform => ?_⟩
  obtain ⟨-, hout⟩ := hgave
  rw [hout, otpFilter_of_otpForm hform]

end Sys2Proof.Machine
end

section
/-! PROOFS. The order of the key matrix (43_playfair.md R171, R172) and PF_KEYMX (R173). -/

namespace Sys2Proof.Machine

/-! ### The letters a loop of the builder adds -/

/-- Whether a turn of the builder adds `c` to the matrix `g`. -/
def isNewLetter (g : Text) (c : Byte) : Bool := isUpper c && decide (c ≠ letterI) && decide (c ∉ g)

/-- What either loop of the builder adds to the matrix `g` on the text `w`: its new letters in order of first occurrence. -/
def newLetters (g w : Text) : Text := (w.filter (isNewLetter g)).eraseDups

theorem isNewLetter_iff (g : Text) (c : Byte) : isNewLetter g c = true ↔ matrixLetter c ∧ c ∉ g := by
  simp [isNewLetter, matrixLetter]

theorem newLetters_cons_of_new {g : Text} {c : Byte} (hc : matrixLetter c ∧ c ∉ g) (w : Text) :
    newLetters g (c :: w) = c :: newLetters (g ++ [c]) w := by
  have hsplit : (fun x => !x == c && isNewLetter g x) = isNewLetter (g ++ [c]) := by
    funext x
    by_cases hx : x = c <;> simp [isNewLetter, hx]
  rw [newLetters, List.filter_cons_of_pos ((isNewLetter_iff g c).2 hc), List.eraseDups_cons, List.filter_filter, hsplit,
    newLetters]

theorem newLetters_cons_of_not_new {g : Text} {c : Byte} (hc : ¬(matrixLetter c ∧ c ∉ g)) (w : Text) :
    newLetters g (c :: w) = newLetters g w := by
  rw [newLetters, List.filter_cons_of_neg (by rwa [isNewLetter_iff]), newLetters]

/-- Either loop of the builder appends its new letters (43_playfair.md R171). -/
theorem foldl_placeLetter_eq {g : Text} (h : partialMatrix g) (w : Text) :
    w.foldl placeLetter g = g ++ newLetters g w := by
  induction w generalizing g with
  | nil => simp [newLetters]
  | cons c w ih =>
    rw [List.foldl_cons, ih (h.placeLetter c)]
    rcases placeLetter_cases h c with ⟨hc, hg, heq⟩ | ⟨hnot, heq⟩ <;> rw [heq]
    · rw [newLetters_cons_of_new ⟨hc, hg⟩, List.append_assoc, List.singleton_append]
    · rw [newLetters_cons_of_not_new hnot]

theorem eraseDups_of_nodup {t : Text} (h : t.Nodup) : t.eraseDups = t := by
  induction t with
  | nil => rfl
  | cons a t ih =>
    obtain ⟨ha, ht⟩ := List.nodup_cons.1 h
    have hkeep : t.filter (fun b => !b == a) = t := by
      refine List.filter_eq_self.2 fun b hb => ?_
      simpa using fun heq : b = a => ha (heq ▸ hb)
    rw [List.eraseDups_cons, hkeep, ih ht]

theorem newLetters_nil (w : Text) :
    newLetters [] w = (w.filter fun c => isUpper c && decide (c ≠ letterI)).eraseDups :=
  congrArg List.eraseDups (List.filter_congr fun c _ => by simp [isNewLetter])

/-- After the keyword's letters the second loop adds the other letters of the alphabet, in its order. -/
theorem newLetters_alphabet (w : Text) :
    newLetters (w.foldl placeLetter []) alphabet = alphabet.filter fun c => decide (c ≠ letterI) && decide (c ∉ w) := by
  have hnodup : alphabet.Nodup := by decide
  rw [newLetters, eraseDups_of_nodup (hnodup.filter _)]
  refine List.filter_congr fun c hc => ?_
  have hup := (mem_alphabet_iff c).1 hc
  rw [Bool.eq_iff_iff, isNewLetter_iff, mem_foldl_placeLetter_iff partialMatrix_nil]
  simp only [matrixLetter, hup, List.not_mem_nil, Bool.and_eq_true, decide_eq_true_eq]
  tauto

/-- The builder's text: the keyword's letters, then the other letters of the alphabet (43_playfair.md R171). -/
theorem buildKM_eq (w : Text) :
    buildKM w = (w.filter fun c => isUpper c && decide (c ≠ letterI)).eraseDups ++
      alphabet.filter fun c => decide (c ≠ letterI) && decide (c ∉ w) := by
  rw [buildKM, foldl_placeLetter_eq (partialMatrix_nil.foldl w), newLetters_alphabet,
    foldl_placeLetter_eq partialMatrix_nil, newLetters_nil, List.nil_append]

/-- Settles O24: the built matrix from `buildKM_perm`, the order from the two loops. -/
theorem builderGivesMatrix : Obligations.BuilderGivesMatrix := by
  refine fun w => ⟨builtMatrix_buildKM w, fun h => ((mem_buildKM_iff w _).1 h).2 rfl, ?_, buildKM_eq w⟩
  exact ⟨_, (buildKM_eq w).symm⟩

/-! ### PF_KEYMX -/

theorem exec_pfKeymx (s : State) :
    exec .pfKeymx s = guardLength s (.next (s.setMatrix (buildKM s.text)).complete) := rfl

theorem State.matrix_complete (s : State) : s.complete.matrix = s.matrix :=
  State.slice_congr fun _ _ => State.peek_complete s _ _

theorem State.matrix_complete_setMatrix {g : Text} (h : g.length = 25) (s : State) : (s.setMatrix g).complete.matrix = g :=
  (State.matrix_complete _).trans (State.matrix_setMatrix h s)

/-- PF_KEYMX completes and writes nothing but KM (20_memory.md R66). -/
theorem complete_setMatrix_frame (g : Text) (s : State) :
    completed s (s.setMatrix g).complete ∧ keepsInputs s (s.setMatrix g).complete ∧
      keepsRegs [.outLen, .inv] s (s.setMatrix g).complete ∧
      keepsBytes [.obuf, .keybuf, .rks] s (s.setMatrix g).complete := by
  refine ⟨⟨rfl, rfl, rfl, rfl, rfl⟩, keepsInputs_of rfl rfl rfl rfl rfl rfl rfl rfl, fun r hr => ?_, fun sp hsp a => ?_⟩
  · fin_cases hr <;> rfl
  · fin_cases hsp <;> rfl

/-- Settles O25: the state with the matrix written, whose 25 bytes are the builder's text. -/
theorem pfKeymxResult : Obligations.PfKeymxResult := by
  refine ⟨(decodeEncodeAgree .pfKeymx).1, fun s => ⟨fun hl => ?_, fun hl => ?_⟩⟩ <;> rw [exec_pfKeymx]
  · obtain ⟨hdone, hframe⟩ := complete_setMatrix_frame (buildKM s.text) s
    exact ⟨_, guardLength_of_le hl _, hdone, State.matrix_complete_setMatrix (length_buildKM s.text) s, hframe⟩
  · exact guardLength_lengthError hl _

end Sys2Proof.Machine
end

section
/-! PROOFS. Locating a byte in the matrix and substituting a digraph (43_playfair.md R178, R179). On a built matrix a digraph
is a pair of cells, and the three rules of R179 move the cells. -/

namespace Sys2Proof.Machine

/-! ### Locating a byte -/

theorem scanCells_eq (c : Byte) (cells : Text) (i : Nat) :
    scanCells c cells i = if c ∈ cells then some (i + cells.idxOf c) else none := by
  induction cells generalizing i with
  | nil => rfl
  | cons k cells ih =>
    by_cases hk : k = c
    · subst hk
      simp [scanCells]
    · rw [scanCells, if_neg hk, ih, List.idxOf_cons_ne cells hk]
      simp only [List.mem_cons, Ne.symm hk, false_or]
      congr 2
      omega

theorem locate_of_mem {km : Text} {c : Byte} (h : c ∈ km) : locate km c = some (km.idxOf c / 5, km.idxOf c % 5) := by
  simp [locate, scanCells_eq, h]

theorem locate_of_not_mem {km : Text} {c : Byte} (h : c ∉ km) : locate km c = none := by
  simp [locate, scanCells_eq, h]

theorem locate_eq_none_iff (km : Text) (c : Byte) : locate km c = none ↔ c ∉ km := by
  refine ⟨fun h hc => ?_, locate_of_not_mem⟩
  rw [locate_of_mem hc] at h
  cases h

/-- `Locate` answers the row and the column of the first cell that holds the byte (43_playfair.md R178). -/
theorem locate_eq_some_iff (km : Text) (c : Byte) (r k : Nat) :
    locate km c = some (r, k) ↔ c ∈ km ∧ k < 5 ∧ 5 * r + k = km.idxOf c := by
  by_cases hc : c ∈ km
  · simp only [locate_of_mem hc, Option.some.injEq, Prod.mk.injEq, hc, true_and]
    omega
  · simp [locate_of_not_mem hc, hc]

theorem getD_idxOf {km : Text} {c : Byte} (h : c ∈ km) : km.getD (km.idxOf c) 0 = c := by
  rw [List.getD_eq_getElem km 0 (List.idxOf_lt_length_of_mem h), List.getElem_idxOf]

theorem getD_ne_of_lt_idxOf {km : Text} {c : Byte} {j : Nat} (h : j < km.idxOf c) : km.getD j 0 ≠ c := by
  have hne := List.not_of_lt_findIdx h
  rw [List.getD_eq_getElem km 0 (h.trans_le List.idxOf_le_length)]
  simpa using hne

/-! ### Digraphs that fail and digraphs that do not -/

section
variable {km : Text} {a b : Byte} (d : Int) (i : Nat)

theorem pfDigraph_of_fst_not_mem (ha : a ∉ km) : pfDigraph km d i a b = .error i := by
  simp only [pfDigraph, locate_of_not_mem ha]

theorem pfDigraph_of_snd_not_mem (ha : a ∈ km) (hb : b ∉ km) : pfDigraph km d i a b = .error (i + 1) := by
  simp only [pfDigraph, locate_of_mem ha, locate_of_not_mem hb]

theorem pfDigraph_of_locate {pa pb : Nat × Nat} (ha : locate km a = some pa) (hb : locate km b = some pb) :
    pfDigraph km d i a b = .ok (pfRule km d pa pb) := by
  simp only [pfDigraph, ha, hb]

theorem pfDigraph_of_mem (ha : a ∈ km) (hb : b ∈ km) : ∃ p, pfDigraph km d i a b = .ok p :=
  ⟨_, pfDigraph_of_locate d i (locate_of_mem ha) (locate_of_mem hb)⟩

variable {d i}

/-- A digraph that is substituted has both its letters in the matrix. -/
theorem mem_of_pfDigraph {p : Byte × Byte} (h : pfDigraph km d i a b = .ok p) : a ∈ km ∧ b ∈ km := by
  by_cases ha : a ∈ km
  · refine ⟨ha, ?_⟩
    by_contra hb
    cases (pfDigraph_of_snd_not_mem d i ha hb).symm.trans h
  · cases (pfDigraph_of_fst_not_mem d i ha).symm.trans h

end

/-! ### The three rules, on cells -/

/-- A cell of the matrix: row and column below 5. -/
def inGrid (p : Nat × Nat) : Prop := p.1 < 5 ∧ p.2 < 5

/-- A row or a column `d` further, wrapping (43_playfair.md R179). -/
def turn (d : Int) (x : Nat) : Nat := floorMod (x + d) 5

/-- The cells to which the rules of R179 move two cells. -/
def ruleCells (d : Int) (pa pb : Nat × Nat) : (Nat × Nat) × (Nat × Nat) :=
  if pa.1 = pb.1 then ((pa.1, turn d pa.2), (pb.1, turn d pb.2))
  else if pa.2 = pb.2 then ((turn d pa.1, pa.2), (turn d pb.1, pb.2))
  else ((pa.1, pb.2), (pb.1, pa.2))

/-- Two cells stand in one row, else in one column, else at the corners of a rectangle. -/
theorem cells_cases {motive : Nat × Nat → Nat × Nat → Prop} (row : ∀ r c c', motive (r, c) (r, c'))
    (column : ∀ r r' c, r ≠ r' → motive (r, c) (r', c))
    (rectangle : ∀ r c r' c', r ≠ r' → c ≠ c' → motive (r, c) (r', c')) (pa pb : Nat × Nat) : motive pa pb := by
  obtain ⟨r, c⟩ := pa
  obtain ⟨r', c'⟩ := pb
  by_cases hrow : r = r'
  · exact hrow ▸ row r c c'
  by_cases hcol : c = c'
  · exact hcol ▸ column r r' c hrow
  · exact rectangle r c r' c' hrow hcol

theorem ruleCells_row (d : Int) (r c c' : Nat) : ruleCells d (r, c) (r, c') = ((r, turn d c), (r, turn d c')) := if_pos rfl

theorem ruleCells_column (d : Int) {r r' : Nat} (hr : r ≠ r') (c : Nat) :
    ruleCells d (r, c) (r', c) = ((turn d r, c), (turn d r', c)) :=
  (if_neg hr).trans (if_pos rfl)

theorem ruleCells_rectangle (d : Int) {r c r' c' : Nat} (hr : r ≠ r') (hc : c ≠ c') :
    ruleCells d (r, c) (r', c') = ((r, c'), (r', c)) :=
  (if_neg hr).trans (if_neg hc)

theorem turn_lt (d : Int) (x : Nat) : turn d x < 5 := floorMod_lt _ (by decide)

theorem turn_neg_turn (d : Int) {x : Nat} (hx : x < 5) : turn (-d) (turn d x) = x := by
  rw [turn, turn, floorMod_floorMod_add _ _ (by decide), add_neg_cancel_right, floorMod]
  omega

theorem turn_inj (d : Int) {x y : Nat} (hx : x < 5) (hy : y < 5) : turn d x = turn d y ↔ x = y := by
  refine ⟨fun h => ?_, congrArg _⟩
  rw [← turn_neg_turn d hx, h, turn_neg_turn d hy]

section
variable (d : Int) {pa pb : Nat × Nat} (ha : inGrid pa) (hb : inGrid pb)
include ha hb

theorem inGrid_ruleCells : inGrid (ruleCells d pa pb).1 ∧ inGrid (ruleCells d pa pb).2 := by
  obtain ⟨hra, hca⟩ := ha
  obtain ⟨hrb, hcb⟩ := hb
  induction pa, pb using cells_cases with
  | row r c c' =>
    rw [ruleCells_row]
    exact ⟨⟨hra, turn_lt d c⟩, ⟨hrb, turn_lt d c'⟩⟩
  | column r r' c hr =>
    rw [ruleCells_column d hr]
    exact ⟨⟨turn_lt d r, hca⟩, ⟨turn_lt d r', hcb⟩⟩
  | rectangle r c r' c' hr hc =>
    rw [ruleCells_rectangle d hr hc]
    exact ⟨⟨hra, hcb⟩, ⟨hrb, hca⟩⟩

/-- The rules keep distinct cells apart (43_playfair.md R185). -/
theorem ruleCells_fst_eq_snd_iff : (ruleCells d pa pb).1 = (ruleCells d pa pb).2 ↔ pa = pb := by
  obtain ⟨hra, hca⟩ := ha
  obtain ⟨hrb, hcb⟩ := hb
  induction pa, pb using cells_cases with
  | row r c c' => simp [ruleCells_row, turn_inj d hca hcb]
  | column r r' c hr => simp [ruleCells_column d hr, turn_inj d hra hrb]
  | rectangle r c r' c' hr hc => simp [ruleCells_rectangle d hr hc, hr]

/-- The opposite shift takes the cells back: the same rule applies again (43_playfair.md R184). -/
theorem ruleCells_neg_ruleCells : ruleCells (-d) (ruleCells d pa pb).1 (ruleCells d pa pb).2 = (pa, pb) := by
  obtain ⟨hra, hca⟩ := ha
  obtain ⟨hrb, hcb⟩ := hb
  induction pa, pb using cells_cases with
  | row r c c' => rw [ruleCells_row, ruleCells_row, turn_neg_turn d hca, turn_neg_turn d hcb]
  | column r r' c hr =>
    have hturn : turn d r ≠ turn d r' := (turn_inj d hra hrb).not.2 hr
    rw [ruleCells_column d hr, ruleCells_column (-d) hturn, turn_neg_turn d hra, turn_neg_turn d hrb]
  | rectangle r c r' c' hr hc => rw [ruleCells_rectangle d hr hc, ruleCells_rectangle (-d) hr hc.symm]

end

/-! ### The letters of a built matrix -/

/-- The letter at a cell. -/
def cellAt (km : Text) (p : Nat × Nat) : Byte := cell km p.1 p.2

theorem pfRule_eq (km : Text) (d : Int) (pa pb : Nat × Nat) :
    pfRule km d pa pb = (cellAt km (ruleCells d pa pb).1, cellAt km (ruleCells d pa pb).2) := by
  unfold pfRule ruleCells
  split_ifs <;> rfl

section
variable {km : Text} (hkm : builtMatrix km)
include hkm

theorem builtMatrix.cellAt_eq_getElem {p : Nat × Nat} (hp : inGrid p) :
    ∃ h : 5 * p.1 + p.2 < km.length, cellAt km p = km[5 * p.1 + p.2] := by
  obtain ⟨hr, hc⟩ := hp
  have hlt : 5 * p.1 + p.2 < km.length := by rw [hkm.1]; omega
  exact ⟨hlt, List.getD_eq_getElem km _ hlt⟩

theorem builtMatrix.cellAt_mem {p : Nat × Nat} (hp : inGrid p) : cellAt km p ∈ km := by
  obtain ⟨hlt, heq⟩ := hkm.cellAt_eq_getElem hp
  exact heq ▸ List.getElem_mem hlt

/-- Every letter of a built matrix is located at its only cell. -/
theorem builtMatrix.locate_cellAt {p : Nat × Nat} (hp : inGrid p) : locate km (cellAt km p) = some p := by
  obtain ⟨hlt, heq⟩ := hkm.cellAt_eq_getElem hp
  refine (locate_eq_some_iff km _ p.1 p.2).2 ⟨hkm.cellAt_mem hp, hp.2, ?_⟩
  rw [heq, hkm.2.1.idxOf_getElem]

theorem builtMatrix.cellAt_inj {p q : Nat × Nat} (hp : inGrid p) (hq : inGrid q) : cellAt km p = cellAt km q ↔ p = q := by
  refine ⟨fun h => ?_, congrArg _⟩
  have hloc := hkm.locate_cellAt hp
  rw [h, hkm.locate_cellAt hq] at hloc
  exact (Option.some.inj hloc).symm

theorem builtMatrix.exists_cellAt {c : Byte} (hc : c ∈ km) : ∃ p, inGrid p ∧ c = cellAt km p := by
  have hlt := List.idxOf_lt_length_of_mem hc
  rw [hkm.1] at hlt
  refine ⟨(km.idxOf c / 5, km.idxOf c % 5), ⟨by simp; omega, by simp; omega⟩, ?_⟩
  rw [cellAt, cell, Nat.div_add_mod]
  exact (getD_idxOf hc).symm

theorem builtMatrix.pfDigraph_cellAt (d : Int) (i : Nat) {pa pb : Nat × Nat} (ha : inGrid pa) (hb : inGrid pb) :
    pfDigraph km d i (cellAt km pa) (cellAt km pb) =
      .ok (cellAt km (ruleCells d pa pb).1, cellAt km (ruleCells d pa pb).2) := by
  rw [pfDigraph_of_locate d i (hkm.locate_cellAt ha) (hkm.locate_cellAt hb), pfRule_eq]

/-- A digraph that is substituted is a pair of cells, which the rules move. -/
theorem builtMatrix.exists_cells {d : Int} {i : Nat} {a b x y : Byte} (h : pfDigraph km d i a b = .ok (x, y)) :
    ∃ pa pb, inGrid pa ∧ inGrid pb ∧ a = cellAt km pa ∧ b = cellAt km pb ∧
      x = cellAt km (ruleCells d pa pb).1 ∧ y = cellAt km (ruleCells d pa pb).2 := by
  obtain ⟨ha, hb⟩ := mem_of_pfDigraph h
  obtain ⟨pa, hpa, rfl⟩ := hkm.exists_cellAt ha
  obtain ⟨pb, hpb, rfl⟩ := hkm.exists_cellAt hb
  rw [hkm.pfDigraph_cellAt d i hpa hpb] at h
  cases h
  exact ⟨pa, pb, hpa, hpb, rfl, rfl, rfl, rfl⟩

variable {d : Int} {i : Nat} {a b x y : Byte} (h : pfDigraph km d i a b = .ok (x, y))
include h

theorem builtMatrix.pfDigraph_mem : x ∈ km ∧ y ∈ km := by
  obtain ⟨pa, pb, ha, hb, -, -, rfl, rfl⟩ := hkm.exists_cells h
  obtain ⟨hx, hy⟩ := inGrid_ruleCells d ha hb
  exact ⟨hkm.cellAt_mem hx, hkm.cellAt_mem hy⟩

/-- A substitution keeps equal letters equal and distinct letters distinct (43_playfair.md R185). -/
theorem builtMatrix.pfDigraph_eq_iff : x = y ↔ a = b := by
  obtain ⟨pa, pb, ha, hb, rfl, rfl, rfl, rfl⟩ := hkm.exists_cells h
  obtain ⟨hx, hy⟩ := inGrid_ruleCells d ha hb
  rw [hkm.cellAt_inj hx hy, hkm.cellAt_inj ha hb, ruleCells_fst_eq_snd_iff d ha hb]

/-- The opposite shift substitutes a digraph back (43_playfair.md R184). -/
theorem builtMatrix.pfDigraph_neg (j : Nat) : pfDigraph km (-d) j x y = .ok (a, b) := by
  obtain ⟨pa, pb, ha, hb, rfl, rfl, rfl, rfl⟩ := hkm.exists_cells h
  obtain ⟨hx, hy⟩ := inGrid_ruleCells d ha hb
  rw [hkm.pfDigraph_cellAt (-d) j hx hy, ruleCells_neg_ruleCells d ha hb]

end

end Sys2Proof.Machine
end

section
/-! PROOFS. The substitution of a text, digraph by digraph (43_playfair.md R180, R184 to R186). -/

namespace Sys2Proof.Machine

/-! ### One digraph and the rest -/

/-- A text of even length is a sequence of digraphs. -/
theorem evenText_induction {motive : (s : Text) → s.length % 2 = 0 → Prop} (nil : motive [] rfl)
    (digraph : ∀ a b t (h : t.length % 2 = 0), motive t h → motive (a :: b :: t) ((Nat.add_mod_right _ 2).trans h))
    (s : Text) (h : s.length % 2 = 0) : motive s h := by
  induction s using pfSeparate.induct with
  | case1 a b t ih =>
    have ht : t.length % 2 = 0 := (Nat.add_mod_right _ 2).symm.trans h
    exact digraph a b t ht (ih ht)
  | case2 s hn =>
    match s, hn with
    | [], _ => exact nil
    | [_], _ => simp at h
    | a :: b :: t, hn => exact absurd rfl (hn a b t)

section
variable (km : Text) (d : Int) (i : Nat) (a b : Byte) (t : Text)

theorem pfSubst_cons_eq_ok_iff (e : Text) :
    pfSubst km d i (a :: b :: t) = .ok e ↔
      ∃ x y u, pfDigraph km d i a b = .ok (x, y) ∧ pfSubst km d (i + 2) t = .ok u ∧ e = x :: y :: u := by
  rw [pfSubst]
  cases hab : pfDigraph km d i a b with
  | error j => simp
  | ok p =>
    obtain ⟨x, y⟩ := p
    cases ht : pfSubst km d (i + 2) t with
    | error j => simp
    | ok u =>
      constructor
      · rintro ⟨⟩
        exact ⟨x, y, u, rfl, rfl, rfl⟩
      · rintro ⟨_, _, _, ⟨⟩, ⟨⟩, rfl⟩
        rfl

theorem pfSubst_cons_eq_error_iff (j : Nat) :
    pfSubst km d i (a :: b :: t) = .error j ↔
      pfDigraph km d i a b = .error j ∨
        (∃ p, pfDigraph km d i a b = .ok p) ∧ pfSubst km d (i + 2) t = .error j := by
  rw [pfSubst]
  cases hab : pfDigraph km d i a b with
  | error j => simp
  | ok p =>
    obtain ⟨x, y⟩ := p
    cases ht : pfSubst km d (i + 2) t <;> simp

end

/-! ### The digraphs of a text, and which index a failure reports -/

section
variable {km : Text} {d : Int} {s : Text}

/-- Every digraph of a substituted text is the substitution of the digraph in its place (43_playfair.md R180). -/
theorem pfDigraph_of_pfSubst_ok {i : Nat} {e : Text} (h : pfSubst km d i s = .ok e) {k : Nat} (hk : 2 * k + 1 < s.length) :
    pfDigraph km d (i + 2 * k) (s.getD (2 * k) 0) (s.getD (2 * k + 1) 0) = .ok (e.getD (2 * k) 0, e.getD (2 * k + 1) 0) := by
  induction s using pfSeparate.induct generalizing i e k with
  | case1 a b t ih =>
    obtain ⟨x, y, u, hab, ht, rfl⟩ := (pfSubst_cons_eq_ok_iff km d i a b t e).1 h
    cases k with
    | zero => exact hab
    | succ k =>
      have htail := ih ht (k := k) (by simp only [List.length_cons] at hk; omega)
      rwa [show i + 2 * (k + 1) = i + 2 + 2 * k by omega]
  | case2 s hn =>
    match s, hn with
    | [], _ | [_], _ => simp at hk
    | a :: b :: t, hn => exact absurd rfl (hn a b t)

/-- A substitution that fails reports what its first failing digraph reports (43_playfair.md R180). -/
theorem pfDigraph_of_pfSubst_error {i j : Nat} (heven : s.length % 2 = 0) (h : pfSubst km d i s = .error j) :
    ∃ k, 2 * k + 1 < s.length ∧
      pfDigraph km d (i + 2 * k) (s.getD (2 * k) 0) (s.getD (2 * k + 1) 0) = .error j ∧
      ∀ k', k' < k → ∃ p, pfDigraph km d (i + 2 * k') (s.getD (2 * k') 0) (s.getD (2 * k' + 1) 0) = .ok p := by
  induction s, heven using evenText_induction generalizing i with
  | nil => cases h
  | digraph a b t _ ih =>
    rcases (pfSubst_cons_eq_error_iff km d i a b t j).1 h with hab | ⟨hab, ht⟩
    · exact ⟨0, by simp, hab, fun k' hk' => absurd hk' (Nat.not_lt_zero k')⟩
    · obtain ⟨k, hk, hfail, hbefore⟩ := ih ht
      have hindex : ∀ m, i + 2 * (m + 1) = i + 2 + 2 * m := fun m => by omega
      refine ⟨k + 1, by simp only [List.length_cons]; omega, ?_, fun k' hk' => ?_⟩
      · rwa [hindex]
      · cases k' with
        | zero => exact hab
        | succ k' =>
          rw [hindex]
          exact hbefore k' (by omega)

/-- A text all in the matrix has a substitution (43_playfair.md R180). -/
theorem pfSubst_ok_of_mem (i : Nat) (heven : s.length % 2 = 0) (h : ∀ c ∈ s, c ∈ km) :
    ∃ e, pfSubst km d i s = .ok e := by
  induction s, heven using evenText_induction generalizing i with
  | nil => exact ⟨[], rfl⟩
  | digraph a b t _ ih =>
    simp only [List.forall_mem_cons] at h
    obtain ⟨ha, hb, ht⟩ := h
    obtain ⟨⟨x, y⟩, hab⟩ := pfDigraph_of_mem d i ha hb
    obtain ⟨u, hu⟩ := ih (i + 2) ht
    exact ⟨x :: y :: u, (pfSubst_cons_eq_ok_iff km d i a b t _).2 ⟨x, y, u, hab, hu, rfl⟩⟩

/-- A substitution fails with the lowest index of a byte that is not in the matrix (60_exceptions.md R233). -/
theorem pfSubst_error_of_not_mem (i : Nat) {j : Nat} (heven : s.length % 2 = 0) (hj : j < s.length)
    (hnot : s.getD j 0 ∉ km) (hfirst : ∀ k, k < j → s.getD k 0 ∈ km) : pfSubst km d i s = .error (i + j) := by
  induction s, heven using evenText_induction generalizing i j with
  | nil => cases hj
  | digraph a b t _ ih =>
    rw [pfSubst_cons_eq_error_iff]
    match j with
    | 0 => exact .inl (pfDigraph_of_fst_not_mem d i hnot)
    | 1 => exact .inl (pfDigraph_of_snd_not_mem d i (hfirst 0 (by decide)) hnot)
    | j + 2 =>
      have htail := ih (i + 2) (j := j) (by simp only [List.length_cons] at hj; omega) hnot
        fun k hk => hfirst (k + 2) (by omega)
      refine .inr ⟨pfDigraph_of_mem d i (hfirst 0 (by omega)) (hfirst 1 (by omega)), ?_⟩
      rw [htail, Nat.add_assoc, Nat.add_comm 2 j]

/-! ### Substituting under a built matrix -/

variable (hkm : builtMatrix km)
include hkm

theorem builtMatrix.pfSubst_mem {i : Nat} {e : Text} (heven : s.length % 2 = 0) (h : pfSubst km d i s = .ok e) :
    ∀ c ∈ e, c ∈ km := by
  induction s, heven using evenText_induction generalizing i e with
  | nil => cases h; simp
  | digraph a b t _ ih =>
    obtain ⟨x, y, u, hab, hu, rfl⟩ := (pfSubst_cons_eq_ok_iff km d i a b t e).1 h
    obtain ⟨hx, hy⟩ := hkm.pfDigraph_mem hab
    simp only [List.forall_mem_cons]
    exact ⟨hx, hy, ih hu⟩

/-- The opposite shift substitutes a text back (43_playfair.md R184). -/
theorem builtMatrix.pfSubst_neg {i : Nat} {e : Text} (heven : s.length % 2 = 0) (h : pfSubst km d i s = .ok e) :
    pfSubst km (-d) i e = .ok s := by
  induction s, heven using evenText_induction generalizing i e with
  | nil => cases h; rfl
  | digraph a b t _ ih =>
    obtain ⟨x, y, u, hab, hu, rfl⟩ := (pfSubst_cons_eq_ok_iff km d i a b t e).1 h
    exact (pfSubst_cons_eq_ok_iff km (-d) i x y u _).2 ⟨a, b, t, hkm.pfDigraph_neg hab i, ih hu, rfl⟩

/-- A preprocessed text has a substitution (43_playfair.md R175, R181). -/
theorem builtMatrix.pfSubst_ok (d : Int) {s : Text} (h : pfForm s) : ∃ e, pfSubst km d 0 s = .ok e := by
  obtain ⟨hletters, heven, -⟩ := h
  exact pfSubst_ok_of_mem 0 heven fun c hc => (hkm.2.2 c).2 (hletters c hc)

end

/-! ### The obligations -/

/-- Settles O31: the first cell, the rules on cells, the failing digraph, and the digraphs of a text. -/
theorem digraphRules : Obligations.DigraphRules := by
  refine ⟨fun km c => ⟨locate_eq_none_iff km c, fun r k h => ?_⟩, ?_, ?_, ?_⟩
  · obtain ⟨hc, hk, hidx⟩ := (locate_eq_some_iff km c r k).1 h
    rw [hidx]
    exact ⟨hk, List.idxOf_lt_length_of_mem hc, getD_idxOf hc, fun j => getD_ne_of_lt_idxOf⟩
  · intro km d i r c r' c' hkm hr hc hr' hc'
    refine (hkm.pfDigraph_cellAt d i (pa := (r, c)) (pb := (r', c')) ⟨hr, hc⟩ ⟨hr', hc'⟩).trans (congrArg Except.ok ?_)
    rw [← pfRule_eq, pfRule]
    split_ifs with hrow hcol
    · obtain rfl : r = r' := hrow
      rfl
    · obtain rfl : c = c' := hcol
      rfl
    · rfl
  · exact fun km d i a b => ⟨pfDigraph_of_fst_not_mem d i, pfDigraph_of_snd_not_mem d i, pfDigraph_of_mem d i⟩
  · refine fun km d s heven => ⟨fun e h => ⟨length_pfSubst h heven, fun k hk => ?_⟩, fun j h => ?_⟩
    · simpa only [Nat.zero_add] using pfDigraph_of_pfSubst_ok h hk
    · simpa only [Nat.zero_add] using pfDigraph_of_pfSubst_error heven h

/-- Settles O34: the ciphertext's digraphs are those of the text moved on the matrix, and substituting back accepts them. -/
theorem ciphertextIsDecryptable : Obligations.CiphertextIsDecryptable := by
  refine fun km hkm => ⟨fun d i a b x y _ h => hkm.pfDigraph_eq_iff h, fun s e hs h => ?_⟩
  obtain ⟨-, heven, -⟩ := hs
  have hlen := length_pfSubst h heven
  have hletters : ∀ c ∈ e, isUpper c = true ∧ c ≠ letterI := fun c hc => (hkm.2.2 c).1 (hkm.pfSubst_mem heven h c hc)
  refine ⟨hlen, hletters, ⟨s, hkm.pfSubst_neg heven h⟩, fun hdistinct => ⟨hletters, hlen ▸ heven, fun k hk heq => ?_⟩⟩
  rw [hlen] at hk
  exact absurd ((hkm.pfDigraph_eq_iff (pfDigraph_of_pfSubst_ok h hk)).1 heq) (hdistinct k hk)

end Sys2Proof.Machine
end

section
/-! PROOFS. The Playfair commands on texts (43_playfair.md): PF_PREP, PF_ENC and PF_DEC, their errors, and the round trip. -/

namespace Sys2Proof.Machine

/-! ### Texts -/

theorem length_pfStrip (t : Text) : (pfStrip t).length = (t.filter isUpper).length := List.length_map _

/-- Settles O27: stripping keeps the letters, and the pad makes their number even. -/
theorem pfPrepLength : Obligations.PfPrepLength := by
  intro t
  have hle := length_pfStrip_le t
  have hlen := length_pfPrep t
  rw [length_pfStrip] at hle hlen
  exact ⟨fun h => by omega, fun h => by omega, by omega, fun cap heven hfit => length_pfPrep_le heven hfit⟩

/-- A text that passes the length check of a block with an admissible CAP fits OBUF preprocessed (43_playfair.md R176). -/
theorem State.admissible.length_pfPrep_le {s : State} (h : s.admissible) (hl : s.inLen.toNat ≤ s.cap) :
    (pfPrep s.text).length ≤ s.cap := by
  obtain ⟨hcap, -, -⟩ := s.admissible_iff.1 h
  exact Machine.length_pfPrep_le (by omega) (s.length_text.trans_le hl)

theorem mem_zeros {c : Byte} {n : Nat} (h : c ∈ zeros n) : c = 0 := List.eq_of_mem_replicate h

theorem zeros_add_two (n : Nat) : zeros (n + 2) = 0 :: 0 :: zeros n := rfl

/-! ### Without a matrix -/

theorem letter_not_mem_zeros {c : Byte} (h : isUpper c = true) (n : Nat) : c ∉ zeros n := by
  intro hc
  rw [mem_zeros hc] at h
  cases h

theorem pfDigraph_zeros (i : Nat) : pfDigraph (zeros 25) (-1) i 0 0 = .ok (0, 0) := rfl

/-- Without a matrix zero bytes are substituted by zero bytes (43_playfair.md R183). -/
theorem pfSubst_zeros (i : Nat) {n : Nat} (h : n % 2 = 0) : pfSubst (zeros 25) (-1) i (zeros n) = .ok (zeros n) := by
  obtain ⟨m, rfl⟩ := Nat.dvd_of_mod_eq_zero h
  clear h
  induction m generalizing i with
  | zero => rfl
  | succ m ih =>
    rw [Nat.mul_succ, zeros_add_two]
    exact (pfSubst_cons_eq_ok_iff _ _ _ _ _ _ _).2 ⟨0, 0, _, pfDigraph_zeros i, ih (i + 2), rfl⟩

/-- Without a matrix a preprocessed text that is not empty fails at its first byte (43_playfair.md R181). -/
theorem pfSubst_zeros_error (d : Int) {s : Text} (hs : pfForm s) (hne : s ≠ []) : pfSubst (zeros 25) d 0 s = .error 0 := by
  obtain ⟨hletters, heven, -⟩ := hs
  have hpos : 0 < s.length := List.length_pos_iff.2 hne
  refine pfSubst_error_of_not_mem 0 heven hpos ?_ fun k hk => absurd hk (Nat.not_lt_zero k)
  rw [List.getD_eq_getElem s 0 hpos]
  exact letter_not_mem_zeros (hletters _ (List.getElem_mem hpos)).1 25

/-! ### The ends of a substituting command -/

theorem emitSubst_ok (e : Text) (s : State) : emitSubst (.ok e) s = emit e s := rfl

/-- A text that fits OBUF ends a command that gives it (20_memory.md R71). -/
theorem emit_of_fits {e : Text} {s : State} (h : e.length ≤ s.cap) :
    ∃ t, emit e s = .next t ∧ gaveText e s t ∧ t.outLen.toNat = e.length ∧ keepsInputs s t ∧ keepsRegs [.inv] s t ∧
      keepsBytes [.keybuf, .rks, .km] s t :=
  ⟨_, emit_of_le h, emit_gives h⟩

/-- The error Symbol (60_exceptions.md R233, R242). -/
theorem emitSubst_symbol (j : Nat) (s : State) :
    ∃ t, emitSubst (.error j) s = .next t ∧ failed 3 (BitVec.ofNat 16 j) t ∧ keepsInputs s t ∧ keepsRegs [.inv] s t ∧
      keepsBytes [.keybuf, .rks, .km] s t :=
  ⟨_, rfl, failed_raise (.symbol j) s, keepsInputs_raise _ s, keepsRest_raise _ s⟩

/-! ### The commands -/

theorem exec_pfPrep (s : State) : exec .pfPrep s = guardLength s (emit (pfPrep s.text) s) := rfl

theorem exec_pfEnc (s : State) :
    exec .pfEnc s = guardLength s (emitSubst (pfSubst s.matrix 1 0 (pfPrep s.text)) s) := rfl

theorem exec_pfDec_of_even {s : State} (hl : s.inLen.toNat ≤ s.cap) (heven : s.inLen.toNat % 2 = 0) :
    exec .pfDec s = emitSubst (pfSubst s.matrix (-1) 0 s.text) s :=
  (guardLength_of_le hl _).trans (if_neg (by omega))

/-- An odd length is refused like one beyond CAP (43_playfair.md R182). -/
theorem exec_pfDec_lengthError {s : State} (h : s.cap < s.inLen.toNat ∨ s.inLen.toNat % 2 = 1) :
    ∃ t, exec .pfDec s = .next t ∧ lengthError s t := by
  rcases Nat.lt_or_ge s.cap s.inLen.toNat with hl | hl
  · exact guardLength_lengthError hl _
  · have hodd : s.inLen.toNat % 2 = 1 := h.resolve_left (Nat.not_lt.2 hl)
    exact ⟨_, (guardLength_of_le hl _).trans (if_pos hodd), lengthError_raise s⟩

/-- PF_DEC completes with the substitution of its text, when there is one (43_playfair.md R182). -/
theorem exec_pfDec_gives {s : State} (hl : s.inLen.toNat ≤ s.cap) (heven : s.inLen.toNat % 2 = 0) {e : Text}
    (he : pfSubst s.matrix (-1) 0 s.text = .ok e) :
    ∃ t, exec .pfDec s = .next t ∧ gaveText e s t ∧ t.outLen = s.inLen ∧ keepsInputs s t ∧ keepsRegs [.inv] s t ∧
      keepsBytes [.keybuf, .rks, .km] s t := by
  have hlen : e.length = s.inLen.toNat := by rw [length_pfSubst he (by rwa [s.length_text]), s.length_text]
  obtain ⟨t, ht, hgave, hout, hframe⟩ := emit_of_fits (hlen.trans_le hl)
  rw [exec_pfDec_of_even hl heven, he]
  exact ⟨t, ht, hgave, BitVec.eq_of_toNat_eq (hout.trans hlen), hframe⟩

theorem State.getD_text (s : State) {i : Nat} (h : i < s.inLen.toNat) : s.text.getD i 0 = s.peek .ibuf i :=
  State.getD_slice s .ibuf h

theorem State.mem_text_iff (s : State) (c : Byte) : c ∈ s.text ↔ ∃ i, i < s.inLen.toNat ∧ s.peek .ibuf i = c := by
  simp [State.text, State.slice]

/-! ### The obligations -/

/-- Settles O28: the preprocessed text fits OBUF. -/
theorem pfPrepResult : Obligations.PfPrepResult := by
  refine ⟨(decodeEncodeAgree .pfPrep).1, fun s hadm => ⟨fun hl => ?_, fun hl => ?_⟩⟩ <;> rw [exec_pfPrep]
  · rw [guardLength_of_le hl]
    exact emit_of_fits (hadm.length_pfPrep_le hl)
  · exact guardLength_lengthError hl _

/-- Settles O29: a preprocessed text has only letters of a built matrix and none of a matrix of zeros. -/
theorem pfEncResult : Obligations.PfEncResult := by
  refine ⟨(decodeEncodeAgree .pfEnc).1, fun s hadm => ⟨fun hl => ?_, fun hl => ?_⟩⟩ <;> rw [exec_pfEnc]
  · rw [guardLength_of_le hl]
    refine ⟨fun hkm => hkm.pfSubst_ok 1 (pfForm_pfPrep _), fun e he => ?_, fun hzero hne => ?_⟩
    · have hlen := length_pfSubst he (length_pfPrep_even s.text)
      rw [he, emitSubst_ok, ← hlen]
      exact emit_of_fits (hlen.trans_le (hadm.length_pfPrep_le hl))
    · rw [hzero, pfSubst_zeros_error 1 (pfForm_pfPrep _) hne]
      exact emitSubst_symbol 0 s
  · exact guardLength_lengthError hl _

/-- Settles O30: a text all in the matrix is substituted, and else the lowest index not found is reported. -/
theorem pfDecResult : Obligations.PfDecResult := by
  refine ⟨(decodeEncodeAgree .pfDec).1, fun s => ⟨fun hl heven => ?_, exec_pfDec_lengthError⟩⟩
  have hmem : ∀ i, locate s.matrix (s.peek .ibuf i) ≠ none ↔ s.peek .ibuf i ∈ s.matrix := fun i => by
    rw [ne_eq, locate_eq_none_iff, not_not]
  have htext : s.text.length % 2 = 0 := by rwa [s.length_text]
  refine ⟨fun hall => ?_, fun i hi hnone hfirst => ?_⟩
  · obtain ⟨e, he⟩ : ∃ e, pfSubst s.matrix (-1) 0 s.text = .ok e := by
      refine pfSubst_ok_of_mem 0 htext fun c hc => ?_
      obtain ⟨i, hi, rfl⟩ := (s.mem_text_iff c).1 hc
      exact (hmem i).1 (hall i hi)
    obtain ⟨t, ht⟩ := exec_pfDec_gives hl heven he
    exact ⟨e, t, he, ht⟩
  · have herr : pfSubst s.matrix (-1) 0 s.text = .error (0 + i) := by
      refine pfSubst_error_of_not_mem 0 htext (by rwa [s.length_text]) ?_ fun k hk => ?_
      · rwa [s.getD_text hi, ← locate_eq_none_iff]
      · rw [s.getD_text (hk.trans hi), ← hmem]
        exact hfirst k hk
    rw [exec_pfDec_of_even hl heven, herr, Nat.zero_add]
    exact emitSubst_symbol i s

/-- Settles O32: the cells of a matrix of zeros hold only the byte 0. -/
theorem noMatrixLocatesNothing : Obligations.NoMatrixLocatesNothing := by
  refine ⟨fun c hc => locate_of_not_mem fun h => hc (mem_zeros h), rfl, fun s hzero hl heven htext => ?_⟩
  have he : pfSubst s.matrix (-1) 0 s.text = .ok (zeros s.inLen.toNat) := by rw [hzero, htext, pfSubst_zeros 0 heven]
  obtain ⟨t, ht, hgave, -⟩ := exec_pfDec_gives hl heven he
  exact ⟨t, ht, hgave⟩

/-- Settles O33: the ciphertext moved back has the length of the preprocessed text and meets the same matrix. -/
theorem pfRoundTrip : Obligations.PfRoundTrip := by
  refine ⟨fun km s e hkm ⟨_, heven, _⟩ => hkm.pfSubst_neg heven, fun s t u hadm hl hkm henc hback hkeep => ?_⟩
  obtain ⟨e, he⟩ := hkm.pfSubst_ok 1 (pfForm_pfPrep s.text)
  have hlen := length_pfSubst he (length_pfPrep_even s.text)
  rw [exec_pfEnc, guardLength_of_le hl, he, emitSubst_ok] at henc
  obtain ⟨hfit, rfl⟩ := emit_cases henc
  obtain ⟨htext, hlu⟩ := movedBack_setOutput hfit hback
  have hin : u.inLen.toNat = e.length := by rw [← u.length_text, htext]
  have hmatrix : u.matrix = s.matrix := State.slice_congr fun i _ => hkeep i
  have hdec : pfSubst u.matrix (-1) 0 u.text = .ok (pfPrep s.text) := by
    rw [hmatrix, htext]
    exact hkm.pfSubst_neg (length_pfPrep_even s.text) he
  obtain ⟨v, hv, hgave, -⟩ := exec_pfDec_gives hlu (by rw [hin, hlen, length_pfPrep_even]) hdec
  exact ⟨v, hv, hgave⟩

end Sys2Proof.Machine
end

section
/-! PROOFS. The Feistel rounds (44_feistel.md R202 to R205, R208, R210, R211): passes over the schedule in opposite order undo
each other, and every block goes through the rounds by itself. -/

namespace Sys2Proof.Machine

/-! ### One round -/

theorem xorHalf_xorHalf (a b : Half) : xorHalf (xorHalf a b) b = a := by
  simp [xorHalf]

/-- A decrypt round undoes the encrypt round of the same key, whatever the round function gives (44_feistel.md R208). -/
theorem decRound_encRound (k : Half) : Function.LeftInverse (decRound k) (encRound k) := fun w => by
  rw [encRound, decRound, xorHalf_xorHalf]

theorem encRound_decRound (k : Half) : Function.LeftInverse (encRound k) (decRound k) := fun w => by
  rw [decRound, encRound, xorHalf_xorHalf]

/-- A zero key leaves the exchange alone (44_feistel.md R211). -/
theorem encRound_zeros (w : Block) : encRound ⟨0, 0, 0, 0⟩ w = ⟨w.right, w.left⟩ := by
  simp [encRound, roundF, xorHalf]

theorem encRound_ones (w : Block) : encRound ⟨1, 1, 1, 1⟩ w = ⟨w.right, xorHalf w.left w.right⟩ := by
  simp [encRound, roundF]

/-! ### Passes over the schedule -/

/-- Steps taken in order are undone by their inverses taken in reverse order. -/
theorem foldl_reverse_foldl {α β : Type} {f g : α → β → β} (h : ∀ k, Function.LeftInverse (g k) (f k)) (ks : List α) (x : β) :
    ks.reverse.foldl (fun y k => g k y) (ks.foldl (fun y k => f k y) x) = x := by
  induction ks generalizing x with
  | nil => rfl
  | cons k ks ih => rw [List.foldl_cons, List.reverse_cons, List.foldl_append, ih, List.foldl_cons, List.foldl_nil, h]

/-- Passes over a whole list, one after the other, take every element through all the steps. -/
theorem foldl_map_eq_map_foldl {α β : Type} (f : α → β → β) (ks : List α) (xs : List β) :
    ks.foldl (fun ys k => ys.map (f k)) xs = xs.map fun x => ks.foldl (fun y k => f k y) x := by
  induction ks generalizing xs with
  | nil => exact (List.map_id xs).symm
  | cons k ks ih => rw [List.foldl_cons, ih, List.map_map]; rfl

theorem decBlocks_encBlocks (ks : List Half) (ws : List Block) : decBlocks ks (encBlocks ks ws) = ws :=
  foldl_reverse_foldl (fun k => (decRound_encRound k).list_map) ks ws

theorem encBlocks_decBlocks (ks : List Half) (ws : List Block) : encBlocks ks (decBlocks ks ws) = ws := by
  have hundo := foldl_reverse_foldl (fun k => (encRound_decRound k).list_map) ks.reverse ws
  rwa [List.reverse_reverse] at hundo

/-! ### Texts -/

theorem ofBlocks_eq_flatMap (ws : List Block) : ofBlocks ws = ws.flatMap fun w => w.left.toText ++ w.right.toText := by
  induction ws with
  | nil => rfl
  | cons w ws ih => rw [ofBlocks, ih, List.flatMap_cons]

/-- The keys of a schedule are those it was written from (10_state.md R37). -/
theorem toHalves_flatMap_toText (ks : List Half) : toHalves (ks.flatMap Half.toText) = ks := by
  induction ks with
  | nil => rfl
  | cons k ks ih => exact congrArg (k :: ·) ih

theorem decRounds_encRounds {w : Text} (h : w.length % 8 = 0) (S : Text) : decRounds (encRounds w S) S = w := by
  rw [decRounds, encRounds, toBlocks_ofBlocks, decBlocks_encBlocks, ofBlocks_toBlocks h]

theorem encRounds_decRounds {w : Text} (h : w.length % 8 = 0) (S : Text) : encRounds (decRounds w S) S = w := by
  rw [encRounds, decRounds, toBlocks_ofBlocks, encBlocks_decBlocks, ofBlocks_toBlocks h]

/-- Every block goes through the rounds of the keys in order (44_feistel.md R205). -/
theorem encRounds_ofBlocks (ws : List Block) (ks : List Half) :
    encRounds (ofBlocks ws) (ks.flatMap Half.toText) = ofBlocks (ws.map fun w => ks.foldl (fun x k => encRound k x) w) := by
  rw [encRounds, toBlocks_ofBlocks, toHalves_flatMap_toText, encBlocks, foldl_map_eq_map_foldl]

/-- Every block goes through the rounds of the keys in reverse order (44_feistel.md R208). -/
theorem decRounds_ofBlocks (ws : List Block) (ks : List Half) :
    decRounds (ofBlocks ws) (ks.flatMap Half.toText) =
      ofBlocks (ws.map fun w => ks.reverse.foldl (fun x k => decRound k x) w) := by
  rw [decRounds, toBlocks_ofBlocks, toHalves_flatMap_toText, decBlocks, foldl_map_eq_map_foldl]

/-- With zero keys the eight exchanges cancel (44_feistel.md R211). -/
theorem encRounds_zeros {w : Text} (h : w.length % 8 = 0) : encRounds w (zeros 32) = w := by
  have hkeys : zeros 32 = (List.replicate 8 (⟨0, 0, 0, 0⟩ : Half)).flatMap Half.toText := by decide
  have hcancel : (fun b => (List.replicate 8 (⟨0, 0, 0, 0⟩ : Half)).foldl (fun x k => encRound k x) b) = id := by
    funext b
    simp only [List.replicate, List.foldl_cons, List.foldl_nil, encRound_zeros, id]
  rw [← ofBlocks_toBlocks h, hkeys, encRounds_ofBlocks, hcancel, List.map_id]

theorem decRounds_zeros {w : Text} (h : w.length % 8 = 0) : decRounds w (zeros 32) = w := by
  simpa only [encRounds_zeros h] using decRounds_encRounds h (zeros 32)

/-! ### The obligation -/

/-- Settles O41: a round's lanes, the layout of texts and schedules, and the passes block by block. -/
theorem specialSchedules : Obligations.SpecialSchedules := by
  refine ⟨fun h k => ?_, fun k w => ⟨rfl, rfl, decRound_encRound k w⟩, ofBlocks_eq_flatMap, fun w h => ?_,
    fun ws k0 k1 k2 k3 k4 k5 k6 k7 => ?_, fun w h => ⟨encRounds_zeros h, decRounds_zeros h⟩,
    fun w => ⟨encRound_zeros w, encRound_ones w⟩, by decide⟩
  · exact ⟨BitVec.toNat_mul _ _, BitVec.toNat_mul _ _, BitVec.toNat_mul _ _, BitVec.toNat_mul _ _, rfl, rfl, rfl, rfl⟩
  · exact ⟨toBlocks w, (ofBlocks_toBlocks h).symm⟩
  · exact ⟨encRounds_ofBlocks ws [k0, k1, k2, k3, k4, k5, k6, k7], decRounds_ofBlocks ws [k0, k1, k2, k3, k4, k5, k6, k7]⟩

end Sys2Proof.Machine
end

section
/-! PROOFS. The round-key sequencer on a source with directives (44_feistel.md R207, 30_encoding.md R106). -/

namespace Sys2Proof.Machine

/-! ### One acquisition -/

/-- Named bytes come first and in order, where no limit is set (30_encoding.md R106; log 6). -/
theorem Rbs.acquire_of_named {r : Rbs} {n : Nat} (hlimit : r.limit = none) (h : n ≤ r.named.length) :
    r.acquire n = .bytes (r.named.take n) { named := r.named.drop n, limit := none, asked := r.asked + 1 } := by
  have havailable : r.available n = n := by simp [Rbs.available, hlimit, h]
  have hlen : (r.named.take n).length = n := List.length_take_of_le h
  have hbytes : (List.range (r.named.take n).length).map r.byte = r.named.take n := map_range_eq fun i hi => by
    have hin : i < n := hlen ▸ hi
    simp [Rbs.byte, hin, hin.trans_le h]
  rw [hlen] at hbytes
  rw [Rbs.acquire, havailable, if_pos (Nat.le_refl n), hbytes, Rbs.after, hlimit]
  rfl

/-- A limit decides how much an acquisition gets and goes down by that much (30_encoding.md R106; log 6). -/
theorem Rbs.acquire_of_limit {r : Rbs} {l n : Nat} (hlimit : r.limit = some l) (h : n ≤ l) :
    ∃ t, r.acquire n = .bytes t (r.after n) ∧ (r.after n).limit = some (l - n) := by
  have havailable : r.available n = l := by simp [Rbs.available, hlimit]
  exact ⟨_, by rw [Rbs.acquire, havailable, if_pos h], by rw [Rbs.after, hlimit]; rfl⟩

theorem Rbs.acquire_of_limit_short {r : Rbs} {l n : Nat} (hlimit : r.limit = some l) (h : l < n) :
    r.acquire n = .short l (r.after l) := by
  have havailable : r.available n = l := by simp [Rbs.available, hlimit]
  rw [Rbs.acquire, havailable, if_neg (Nat.not_le.2 h)]

/-! ### The sequencer -/

/-- Any number of keys are the first named bytes in order, none skipped (44_feistel.md R207, 60_exceptions.md R261). -/
theorem Rbs.drawKeys_of_named {r : Rbs} {n : Nat} (hlimit : r.limit = none) (h : 4 * n ≤ r.named.length) :
    r.drawKeys n =
      .bytes (r.named.take (4 * n)) { named := r.named.drop (4 * n), limit := none, asked := r.asked + n } := by
  induction n generalizing r with
  | zero =>
    obtain ⟨named, limit, asked⟩ := r
    obtain rfl : limit = none := hlimit
    rfl
  | succ n ih =>
    have hfirst := Rbs.acquire_of_named (n := 4) hlimit (by omega)
    have hrest := ih (r := { named := r.named.drop 4, limit := none, asked := r.asked + 1 }) rfl
      (by rw [List.length_drop]; omega)
    simp only [Rbs.drawKeys, hfirst, hrest, List.drop_drop, ← List.take_add]
    rw [show 4 * (n + 1) = 4 + 4 * n by omega, show r.asked + (n + 1) = r.asked + 1 + n by omega]

/-- A limit below what the keys need ends them short, with every byte received in the count (60_exceptions.md R234). -/
theorem Rbs.drawKeys_of_limit {r : Rbs} {l n : Nat} (hlimit : r.limit = some l) (h : l < 4 * n) :
    ∃ r', r.drawKeys n = .short l r' := by
  induction n generalizing r l with
  | zero => omega
  | succ n ih =>
    rcases Nat.lt_or_ge l 4 with hl | hl
    · exact ⟨_, by simp only [Rbs.drawKeys, Rbs.acquire_of_limit_short hlimit hl]; rfl⟩
    · obtain ⟨t, hfirst, hafter⟩ := Rbs.acquire_of_limit hlimit hl
      obtain ⟨r', hrest⟩ := ih hafter (by omega)
      exact ⟨r', by simp only [Rbs.drawKeys, hfirst, hrest, Nat.add_sub_cancel' hl]⟩

/-! ### The obligation -/

/-- Settles O38: the two directives, for any number of keys and so for eight. -/
theorem keysDrawnInOrder : Obligations.KeysDrawnInOrder := fun _ =>
  ⟨fun hlimit h => Rbs.drawKeys_of_named hlimit h, fun _ hlimit h => Rbs.drawKeys_of_limit hlimit h⟩

end Sys2Proof.Machine
end

section
/-! PROOFS. The Feistel commands (44_feistel.md): FEISTEL_PAD, FEISTEL_ENC and FEISTEL_DEC, their errors, and the round trip. -/

namespace Sys2Proof.Machine

/-! ### Padding -/

/-- Settles O35: the pad is what is missing to the next multiple of 8. -/
theorem feistelPadIsLeast : Obligations.FeistelPadIsLeast := by
  refine fun t => ⟨⟨_, Nat.mod_lt _ (by decide), rfl⟩, length_feistelPad_mod t, fun h => ?_, fun _ => length_feistelPad_le⟩
  rw [feistelPad, h]
  exact List.append_nil t

/-- A text that passes the length check of a block with an admissible CAP fits OBUF padded (44_feistel.md R201). -/
theorem State.admissible.length_feistelPad_le {s : State} (h : s.admissible) (hl : s.inLen.toNat ≤ s.cap) :
    (feistelPad s.text).length ≤ s.cap := by
  obtain ⟨hcap, -, -⟩ := s.admissible_iff.1 h
  exact Machine.length_feistelPad_le hcap (s.length_text.trans_le hl)

/-! ### FEISTEL_ENC after its length check -/

/-- A full draw is the schedule, and the output the rounds under it (44_feistel.md R206). -/
theorem feistelEncState_of_bytes {s : State} {k : Text} {r : Rbs} (h : s.rbs.drawKeys 8 = .bytes k r) (w : Text) :
    k.length = 32 ∧ feistelEncState w s = (((s.setRbs r).setSchedule k).setOutput (encRounds w k)).complete := by
  rcases feistelEncState_cases w s with ⟨k', r', hlen, hk', heq⟩ | ⟨k', r', -, hk', -⟩ <;> cases h.symm.trans hk'
  exact ⟨hlen, heq⟩

/-- A short draw is the error RbsShort with the number of bytes that came (44_feistel.md R206). -/
theorem feistelEncState_of_short {s : State} {n : Nat} {r : Rbs} (h : s.rbs.drawKeys 8 = .short n r) (w : Text) :
    n < 32 ∧ feistelEncState w s = (s.setRbs r).loseSchedule.raise (.rbsShort n) := by
  rcases feistelEncState_cases w s with ⟨k', r', -, hk', -⟩ | ⟨k', r', hlt, hk', heq⟩ <;> cases h.symm.trans hk'
  exact ⟨hlt, heq⟩

/-- A command whose row does not name INV keeps it as it reads. -/
theorem keepsRow.keepsRegs_inv {i : Instr} {s t : State} (h : keepsRow i s t) (hi : writesReg i .inv = false) :
    keepsRegs [.inv] s t := fun r hr => by
  obtain rfl := List.mem_singleton.1 hr
  exact congrArg (BitVec.setWidth 32) (h.inv hi)

theorem keepsRow.keepsBytes_of {i : Instr} {s t : State} (h : keepsRow i s t) {sps : List Space}
    (hsps : ∀ sp ∈ sps, sp ≠ .obuf ∧ writesSpace i sp = false) : keepsBytes sps s t :=
  fun sp hsp => h.bytes sp (hsps sp hsp).1 (hsps sp hsp).2

/-- The frame of FEISTEL_ENC however it ends (20_memory.md R66). -/
theorem feistelEncState_frame (w : Text) (s : State) : keepsInputs s (feistelEncState w s) ∧
    keepsRegs [.inv] s (feistelEncState w s) ∧ keepsBytes [.keybuf, .km] s (feistelEncState w s) := by
  have hrow := keepsRow_feistelEncState w s
  exact ⟨hrow.inputs, hrow.keepsRegs_inv rfl, hrow.keepsBytes_of (by decide)⟩

/-- A schedule written before the output is the one RKS holds at the end. -/
theorem State.schedule_complete_setOutput {k : Text} (h : k.length = 32) (w : Text) (s : State) :
    ((s.setSchedule k).setOutput w).complete.schedule = k :=
  State.schedule_setSchedule h s

/-! ### The commands -/

theorem exec_feistelPad (s : State) : exec .feistelPad s = guardLength s (emit (feistelPad s.text) s) := rfl

theorem exec_feistelEnc (s : State) : exec .feistelEnc s =
    guardLength s (guardOutput (feistelPad s.text).length s (feistelEncState (feistelPad s.text) s)) := rfl

theorem exec_feistelEnc_of_le {s : State} (hadm : s.admissible) (hl : s.inLen.toNat ≤ s.cap) :
    exec .feistelEnc s = .next (feistelEncState (feistelPad s.text) s) :=
  (guardLength_of_le hl _).trans (guardOutput_of_le (hadm.length_feistelPad_le hl) _)

/-- A length that is no multiple of 8 is refused like one beyond CAP (44_feistel.md R209). -/
theorem exec_feistelDec_lengthError {s : State} (h : s.cap < s.inLen.toNat ∨ s.inLen.toNat % 8 ≠ 0) :
    ∃ t, exec .feistelDec s = .next t ∧ lengthError s t := by
  rcases Nat.lt_or_ge s.cap s.inLen.toNat with hl | hl
  · exact guardLength_lengthError hl _
  · have hunaligned : s.inLen.toNat % 8 ≠ 0 := h.resolve_left (Nat.not_lt.2 hl)
    exact ⟨_, (guardLength_of_le hl _).trans (if_pos hunaligned), lengthError_raise s⟩

/-- FEISTEL_DEC of whole blocks is a command whose output is as long as its text (44_feistel.md R209). -/
theorem exec_feistelDec_of_aligned {s : State} (h : s.inLen.toNat % 8 = 0) :
    exec .feistelDec s = guardLength s (emit (decRounds s.text s.schedule) s) :=
  congrArg (guardLength s) (if_neg (not_not.2 h))

theorem length_decRounds_text {s : State} (h : s.inLen.toNat % 8 = 0) (S : Text) :
    (decRounds s.text S).length = s.inLen.toNat := by
  rw [length_decRounds (by rwa [s.length_text]), s.length_text]

/-! ### The obligations -/

/-- Settles O36: the padded text fits OBUF. -/
theorem feistelPadResult : Obligations.FeistelPadResult := by
  refine ⟨(decodeEncodeAgree .feistelPad).1, fun s hadm => ⟨fun hl => ?_, fun hl => ?_⟩⟩ <;> rw [exec_feistelPad]
  · have hfit := hadm.length_feistelPad_le hl
    obtain ⟨hgave, hlen, hframe⟩ := emit_gives hfit
    exact ⟨_, (guardLength_of_le hl _).trans (emit_of_le hfit), hgave, hlen, rfl, hframe⟩
  · exact guardLength_lengthError hl _

/-- Settles O37: one end for each answer of the source, and one that does not ask it. -/
theorem feistelEncResult : Obligations.FeistelEncResult := by
  refine ⟨(decodeEncodeAgree .feistelEnc).1, fun s hadm => ⟨fun hl => ⟨fun k r hk => ?_, fun n r hk => ?_⟩, fun hl => ?_⟩⟩
  · obtain ⟨hlen, heq⟩ := feistelEncState_of_bytes hk (feistelPad s.text)
    have hframe := feistelEncState_frame (feistelPad s.text) s
    have hrounds := length_encRounds (length_feistelPad_mod s.text) k
    obtain ⟨hgave, hout, -⟩ := emit_gives (s := (s.setRbs r).setSchedule k) (hrounds.trans_le (hadm.length_feistelPad_le hl))
    refine ⟨_, exec_feistelEnc_of_le hadm hl, ?_⟩
    rw [heq] at hframe ⊢
    exact ⟨hgave, hout.trans hrounds, State.schedule_complete_setOutput hlen _ _, rfl, hframe⟩
  · obtain ⟨hlt, heq⟩ := feistelEncState_of_short hk (feistelPad s.text)
    have hframe := feistelEncState_frame (feistelPad s.text) s
    refine ⟨_, exec_feistelEnc_of_le hadm hl, ?_⟩
    rw [heq] at hframe ⊢
    exact ⟨failed_raise _ _, hlt, hframe⟩
  · exact ⟨_, (exec_feistelEnc s).trans (guardLength_of_lt hl _), lengthError_raise s, rfl⟩

/-- Settles O39: the two ends of a command whose output is as long as its text, and the refusal of a part of a block. -/
theorem feistelDecResult : Obligations.FeistelDecResult := by
  refine ⟨(decodeEncodeAgree .feistelDec).1, fun s => ⟨fun hl haligned => ?_, exec_feistelDec_lengthError⟩⟩
  obtain ⟨t, ht, hgave, hlen, hframe⟩ := guardLength_emit_gives (length_decRounds_text haligned s.schedule) hl
  have hexec := (exec_feistelDec_of_aligned haligned).trans ht
  exact ⟨t, hexec, hgave, hlen, (exec_keepsRow hexec).source (by decide) (by decide), hframe⟩

/-- Settles O40: the ciphertext moved back is whole blocks and meets the schedule it was made with. -/
theorem feistelRoundTrip : Obligations.FeistelRoundTrip := by
  refine ⟨fun w S h => ⟨decRounds_encRounds h S, encRounds_decRounds h S⟩, fun s t u hadm hl henc hdone hback hkeep => ?_⟩
  obtain rfl : feistelEncState (feistelPad s.text) s = t := by simpa [exec_feistelEnc_of_le hadm hl] using henc
  have hpad := length_feistelPad_mod s.text
  rcases feistelEncState_cases (feistelPad s.text) s with ⟨k, r, hlen, -, heq⟩ | ⟨n, r, -, -, heq⟩ <;>
    rw [heq] at hdone hback hkeep
  · have hrounds := length_encRounds hpad k
    obtain ⟨htext, hlu⟩ := movedBack_setOutput (s := (s.setRbs r).setSchedule k)
      (hrounds.trans_le (hadm.length_feistelPad_le hl)) hback
    have hschedule : u.schedule = k :=
      (State.slice_congr fun i _ => hkeep i).trans (State.schedule_complete_setOutput hlen _ _)
    have haligned : u.inLen.toNat % 8 = 0 := by rw [← u.length_text, htext, hrounds, hpad]
    have hplain : decRounds u.text u.schedule = feistelPad s.text := by
      rw [htext, hschedule, decRounds_encRounds hpad]
    obtain ⟨v, hv, hgave, -⟩ := guardLength_emit_gives (length_decRounds_text haligned u.schedule) hlu
    exact ⟨v, (exec_feistelDec_of_aligned haligned).trans hv, hplain ▸ hgave⟩
  · cases hdone

end Sys2Proof.Machine
end

section
/-! PROOFS. The errors of the block (60_exceptions.md): what raises each and what it leaves (R231, R232, R235, R242), the fault
state (R241), and the interrupt output (R250). -/

namespace Sys2Proof.Machine

/-! ### Precise errors -/

/-- An error raised before the command has written anything changes only the flags, ECODE and EINFO (60_exceptions.md R242). -/
theorem keepsAll_raise {e : Err} (h : e.precise = true) (s : State) : keepsAll s (s.raise e) := by
  refine ⟨fun r hr => ?_, fun sp _ a => State.peek_raise_precise h s sp a⟩
  fin_cases hr <;> simp [State.regValue, State.ctrl, h]

/-- A byte that names no command raises IllegalCommand at its completion step (20_memory.md R71, 30_encoding.md R96). -/
theorem engineStep_of_illegal {s : State} (h : ∀ i, decode s.op ≠ .ok i) : engineStep s = .next (raiseIllegal s) := by
  unfold engineStep
  split
  · exact absurd ‹_› (h _)
  · rfl

/-- Every command but AFF_INV checks IN_LEN before it does anything else (60_exceptions.md R232). -/
theorem exec_of_cap_lt {i : Instr} {s : State} (hi : i ≠ .affInv) (h : s.cap < s.inLen.toNat) :
    exec i s = .next (s.raise (.length s.inLen)) := by
  cases i with
  | affInv => exact absurd rfl hi
  | _ => exact guardLength_of_lt h _

/-! ### Which command ends in which error -/

/-- The only error of OTP_KEYGEN after its length check is RbsShort. -/
theorem keygenState_ecode_of_err {s : State} (he : s.err = false) (h : (keygenState s).err = true) :
    (keygenState s).ecode = 4 := by
  rcases keygenState_cases s with ⟨-, heq⟩ | ⟨k, r, -, -, heq⟩ | ⟨k, r, -, -, heq⟩ <;> rw [heq] at h ⊢
  · cases he.symm.trans h
  · cases he.symm.trans h
  · rfl

/-- The only error of FEISTEL_ENC after its length check is RbsShort. -/
theorem feistelEncState_ecode_of_err {w : Text} {s : State} (he : s.err = false) (h : (feistelEncState w s).err = true) :
    (feistelEncState w s).ecode = 4 := by
  rcases feistelEncState_cases w s with ⟨k, r, -, -, heq⟩ | ⟨k, r, -, -, heq⟩ <;> rw [heq] at h ⊢
  · cases he.symm.trans h
  · rfl

/-- Every way a command can end in an error, one disjunct per code (60_exceptions.md R235). -/
theorem exec_err_cases {i : Instr} {s t : State} (he : s.err = false) (hx : exec i s = .next t) (ht : t.err = true) :
    (t.ecode = 2 ∧ i ≠ .affInv ∧ (s.cap < s.inLen.toNat ∨ (i = .pfDec ∧ s.inLen.toNat % 2 = 1) ∨
      (i = .feistelDec ∧ s.inLen.toNat % 8 ≠ 0))) ∨
    (t.ecode = 3 ∧ (i = .pfEnc ∨ i = .pfDec)) ∨ (t.ecode = 4 ∧ (i = .otpKeygen ∨ i = .feistelEnc)) := by
  rcases exec_cases hx with ⟨rfl, hi, hl⟩ | ⟨j, rfl, hi⟩ | ⟨u, rfl, -⟩ | ⟨u, rfl, -⟩ | ⟨rfl, -⟩ | ⟨rfl, -⟩ | ⟨rfl, -, hi⟩ |
    ⟨rfl, -, hi⟩
  · exact .inl ⟨rfl, hi, hl⟩
  · exact .inr (.inl ⟨rfl, hi⟩)
  · simp [he] at ht
  · simp [he] at ht
  · simp [he] at ht
  · simp [he] at ht
  · exact .inr (.inr ⟨keygenState_ecode_of_err he ht, .inl hi⟩)
  · exact .inr (.inr ⟨feistelEncState_ecode_of_err he ht, .inr hi⟩)

/-! ### The fault state -/

/-- The flags, ECODE, EINFO and OP are as before: nothing of the fault state has been cleared and no command accepted. -/
def keepsFault (s t : State) : Prop :=
  t.err = s.err ∧ t.ecode = s.ecode ∧ t.einfo = s.einfo ∧ t.busy = s.busy ∧ t.done = s.done ∧ t.op = s.op

theorem keepsFault_refl (s : State) : keepsFault s s := ⟨rfl, rfl, rfl, rfl, rfl, rfl⟩

/-- Of the writes to a register only an acceptance touches these fields, and the fault state accepts nothing (10_state.md R22). -/
theorem keepsFault_hostWriteReg {s : State} (he : s.err = true) (n : Nat) (v : Word) : keepsFault s (hostWriteReg n v s) := by
  rcases hostWriteReg_cases n v s with heq | ⟨-, -, hno, heq⟩ | ⟨-, heq⟩ | ⟨-, -, heq⟩ | ⟨-, -, heq⟩ <;> rw [heq]
  · exact keepsFault_refl s
  · cases he.symm.trans hno
  · exact keepsFault_refl s
  · exact keepsFault_refl s
  · exact keepsFault_refl s

theorem keepsFault_hostWriteBuf (sp : Space) (i : Nat) (v : Word) (s : State) : keepsFault s (hostWriteBuf sp i v s) := by
  rcases hostWriteBuf_cases sp i v s with heq | ⟨-, -, ⟨-, heq⟩ | ⟨-, heq⟩ | ⟨-, heq⟩⟩ <;> rw [heq] <;>
    exact keepsFault_refl s

theorem keepsFault_performMove {s : State} (he : s.err = true) {m : HostMove} (hm : m ≠ .rst) :
    keepsFault s (performMove m s) := by
  cases m with
  | wr n v => exact keepsFault_hostWriteReg he n v
  | wb sp i v => exact keepsFault_hostWriteBuf sp i v s
  | wbLast sp i => exact keepsFault_hostWriteBuf sp i _ s
  | wait =>
    rw [performMove_wait]
    split <;> exact keepsFault_refl s
  | rst => exact absurd rfl hm
  | rd _ | rb _ _ | mov | rbs _ | rbsShort _ => exact keepsFault_refl s

theorem keepsFault_hostTurn {s : State} (he : s.err = true) (hrst : ∀ rest, s.script ≠ .rst :: rest) :
    keepsFault s (hostTurn s) := by
  rcases hostTurn_cases s with ⟨-, heq⟩ | ⟨m, rest, hscript, heq⟩ <;> rw [heq]
  · exact keepsFault_refl s
  · exact keepsFault_performMove (s := { s with script := rest, delay := s.delay - 1 }) he
      fun hm => hrst rest (hm ▸ hscript)

/-! ### The bits of CTRL and STATUS -/

theorem State.getLsbD_regValue_ctrl (s : State) : (s.regValue .ctrl).getLsbD 0 = s.ie := by
  have hbit : ∀ b : Bool, ((0#7 ++ BitVec.ofBool b).setWidth 32).getLsbD 0 = b := by decide
  exact hbit s.ie

/-- DONE is bit 1 and ERR bit 2 of STATUS (10_state.md R23). -/
theorem State.getLsbD_regValue_status (s : State) :
    (s.regValue .status).getLsbD 1 = s.done ∧ (s.regValue .status).getLsbD 2 = s.err := by
  have hbits : ∀ (c : BitVec 4) (e d b : Bool),
      ((c ++ (0#1 ++ (BitVec.ofBool e ++ (BitVec.ofBool d ++ BitVec.ofBool b)))).setWidth 32).getLsbD 1 = d ∧
        ((c ++ (0#1 ++ (BitVec.ofBool e ++ (BitVec.ofBool d ++ BitVec.ofBool b)))).setWidth 32).getLsbD 2 = e := by decide
  exact hbits s.ecode s.err s.done s.busy

/-! ### The obligations -/

/-- Settles O4: the error step of a precise error. -/
theorem illegalByteOnlyRaises : Obligations.IllegalByteOnlyRaises := by
  intro s hb hnext hillegal
  have hstep : step s = .next (raiseIllegal s) :=
    (step_of_engineTurn (s.engineTurn_iff.2 ⟨hb, hnext⟩)).trans (engineStep_of_illegal hillegal)
  exact ⟨_, hstep, failed_raise (.illegalCommand s.op) s, keepsAll_raise rfl s, rfl, rfl, rfl⟩

/-- Settles O42: the length check comes first, and Length is precise. -/
theorem lengthErrorIsPrecise : Obligations.LengthErrorIsPrecise :=
  fun _ s hi hl => ⟨_, exec_of_cap_lt hi hl, lengthError_raise s, rfl, rfl, rfl⟩

/-- Settles O43: an error end has one of three codes, each with commands of its own, and AFF_INV is none of them. -/
theorem errorsPerCommand : Obligations.ErrorsPerCommand := by
  intro i s t he hx ht
  rcases exec_err_cases he hx ht with ⟨hc, hi, hl⟩ | ⟨hc, hi⟩ | ⟨hc, hi⟩
  · exact ⟨hi, .inl hc, fun _ => hl⟩
  · exact ⟨by rintro rfl; simp at hi, .inr (.inl ⟨hc, hi⟩), fun h => by simp [hc] at h⟩
  · exact ⟨by rintro rfl; simp at hi, .inr (.inr ⟨hc, hi⟩), fun h => by simp [hc] at h⟩

/-- Settles O53: with BUSY = 0 the step is a host move, and only rst clears the fault state. -/
theorem faultStateIsSticky : Obligations.FaultStateIsSticky := by
  intro s t he hb hrst hstep
  rw [step_of_hostTurn (s.engineTurn_eq_false_iff.2 (.inl hb))] at hstep
  cases hstep
  obtain ⟨herr, hecode, heinfo, hbusy, hdone, hop⟩ := keepsFault_hostTurn he hrst
  exact ⟨herr.trans he, hecode, heinfo, hbusy.trans hb, hdone, hop⟩

/-- Settles O54: the bits are the fields irq is made of, and BUSY excludes DONE and ERR. -/
theorem interruptOutput : Obligations.InterruptOutput := by
  refine fun s => ⟨?_, fun hflags hb => ?_⟩
  · obtain ⟨hdone, herr⟩ := s.getLsbD_regValue_status
    rw [s.getLsbD_regValue_ctrl, hdone, herr]
    simp [State.irq]
  · obtain ⟨hbd, hbe, -⟩ := hflags
    have hd : s.done = false := by simpa [hb] using hbd
    have he : s.err = false := by simpa [hb] using hbe
    simp [State.irq, hd, he]

end Sys2Proof.Machine
end

section
/-! PROOFS. The reset input rst (70_reset_and_hazards.md R270): the registers, the constants and the bytes after it. -/

namespace Sys2Proof.Machine

/-- rst clears OBUF's unspecified part too, so every index of every memory reads as it does after reset (10_state.md R44). -/
@[simp] theorem State.peek_rst (s : State) (sp : Space) (a : Nat) : s.rst.peek sp a = 0 := by
  calc s.rst.peek sp a
    _ = State.reset.peek sp a := by cases sp <;> rfl
    _ = 0 := State.peek_reset sp a

@[simp] theorem State.rst_status (s : State) : s.rst.status = 0 := by simp [State.status]
@[simp] theorem State.rst_ctrl (s : State) : s.rst.ctrl = 0 := by simp [State.ctrl]
@[simp] theorem State.rst_irq (s : State) : s.rst.irq = false := rfl

/-- AFF_A and AFF_B are no part of the state, and CAPR keeps its value (10_state.md R29). -/
theorem keepsRegs_rst (s : State) : keepsRegs [.affA, .affB, .capr] s s.rst := by
  intro r hr
  fin_cases hr
  · rfl
  · rfl
  · simp [State.regValue]

/-- Settles O56: the fields by the rules of rst, the constants and the bytes by their lemmas. -/
theorem rstZeroises : Obligations.RstZeroises := fun s =>
  ⟨s.rst_op, s.rst_status, s.rst_ctrl, s.rst_inLen, s.rst_outLen, s.rst_shift, s.rst_inv, s.rst_einfo, s.rst_irq,
    keepsRegs_rst s, s.peek_rst⟩

end Sys2Proof.Machine
end
